-- ==== Sys2Proof/Word.lean ====
section
/-!
DEFINITION. The word types of RBX and their plainest facts (00_scope.md R7): bit 0 is the least
significant bit, quantities are unsigned unless a rule says otherwise.
-/

namespace Sys2Proof

/-- A byte, 8 bits (00_scope.md R7). -/
abbrev Byte := BitVec 8

/-- A 16-bit quantity: sizes, ring-buffer cursors, EDM lengths, the operand `n` (10_state.md R22, 30_encoding.md R90). -/
abbrev Half := BitVec 16

/-- A 32-bit quantity: command words, extension words, the result word, the clock (30_encoding.md R90, R94). -/
abbrev Word := BitVec 32

/-- A boolean result: 1 for true, 0 for false (30_encoding.md R94). -/
def boolWord (b : Bool) : Word := if b then 1 else 0

/-- A count or size as a result word (30_encoding.md R94). -/
def countWord (n : Nat) : Word := BitVec.ofNat 32 n

/-- The high byte of a 16-bit value, `v[15:8]`. -/
def hiByte (v : Half) : Byte := v.extractLsb' 8 8

/-- The low byte of a 16-bit value, `v[7:0]`. -/
def loByte (v : Half) : Byte := v.extractLsb' 0 8

/-- The 16-bit value whose high byte is `hi` and low byte is `lo`. -/
def halfOf (hi lo : Byte) : Half := hi ++ lo

end Sys2Proof
end

