-- ==== Sys2Proof/Syntax.lean ====
section
/-!
DEFINITION. The command set of RBX: one constructor per row of spec/opcode_table.json (30_encoding.md
R96). A command carries its operands and, where R93 gives it a data-in stream, the bytes of that
stream: the operand `n` of such a command is the number of those bytes (R101).
-/

namespace Sys2Proof

/-- Modes of the PUMP agent (10_state.md R42): 0 Off, 1 Add, 2 ForceAdd. The code 3 never occurs. -/
inductive PumpMode where
  | off
  | add
  | forceAdd
deriving DecidableEq, Repr, Inhabited

/-- A command of RBX. `none` for an expected class or id is the wildcard −1, "accept any" (30_encoding.md R92). -/
inductive Instr where
  /-- RB.CREATE, R120. -/
  | rbCreate (size : Half)
  /-- RB.CREATEH, R121. -/
  | rbCreateh (maxHandles : Byte) (size : Half)
  /-- RB.DESTROY, R122. -/
  | rbDestroy
  /-- RB.SETRHR, R123; the encoding admits only 0 and 1. -/
  | rbSetrhr (on : Bool)
  /-- RB.TAKE, R124. -/
  | rbTake
  /-- RB.GIVE, R125. -/
  | rbGive (handle : Byte)
  /-- RB.LOCK, R126. -/
  | rbLock (handle : Byte)
  /-- RB.UNLOCK, R127. -/
  | rbUnlock (handle : Byte)
  /-- RB.ADD, R150. -/
  | rbAdd (data : List Byte)
  /-- RB.FADD, R151. -/
  | rbFadd (data : List Byte)
  /-- RB.READ, R155. -/
  | rbRead (length : Half)
  /-- RB.PEEK, R156. -/
  | rbPeek (length : Half)
  /-- RB.READH, R157. -/
  | rbReadh (cursor : Byte) (length : Half)
  /-- RB.PEEKH, R158. -/
  | rbPeekh (cursor : Byte) (length : Half)
  /-- RB.AVAIL, R159. -/
  | rbAvail
  /-- RB.AVAILMAX, R160. -/
  | rbAvailmax
  /-- RB.STATADD, R161. -/
  | rbStatadd
  /-- RB.STATREAD, R162. -/
  | rbStatread (cursor : Byte)
  /-- EDM.PARSE, R190. -/
  | edmParse (byte : Byte)
  /-- EDM.READY, R206. -/
  | edmReady
  /-- EDM.RESET, R207. -/
  | edmReset
  /-- EDM.EVDATA, R208. -/
  | edmEvdata (max : Half)
  /-- EDM.EVENT, R212. -/
  | edmEvent
  /-- EDM.ENCDATA, R231. -/
  | edmEncdata (channel : Byte) (data : List Byte)
  /-- EDM.ENCHEAD, R232. -/
  | edmEnchead (channel : Byte) (length : Half)
  /-- EDM.ENCTAIL, R233. -/
  | edmEnctail
  /-- EDM.ENCATREQ, R234. -/
  | edmEncatreq (data : List Byte)
  /-- EDM.ENCATRSP, R235. -/
  | edmEncatrsp (data : List Byte)
  /-- UBX.ENCODE, R252. -/
  | ubxEncode (cls id : Byte) (body : List Byte)
  /-- UBX.DECODE, R253. -/
  | ubxDecode (buf : List Byte)
  /-- UBX.SENDRECV, R280. -/
  | ubxSendrecv (cls id : Byte) (expClass expId : Option Byte) (maxBody : Half) (timeout : Word) (body : List Byte)
  /-- UBX.SENDONLY, R281. -/
  | ubxSendonly (cls id : Byte) (timeout : Word) (body : List Byte)
  /-- UART.WRITE, R311. -/
  | uartWrite (data : List Byte)
  /-- UART.AVAIL, R312. -/
  | uartAvail
  /-- UART.READ, R313. -/
  | uartRead (maxLen : Half)
  /-- LINK.PUMP, R316; the encoding admits only the three modes. -/
  | linkPump (mode : PumpMode)
  /-- LINK.DRAIN, R318; the encoding admits only enable 0 and 1. -/
  | linkDrain (cursor : Byte) (enable : Bool)
deriving DecidableEq, Repr

end Sys2Proof
end

