-- ==== Sys2Proof/WellFormed.lean ====
section
/-!
DEFINITION. Which terms of `Instr` the encoding can spell: the length of a data-in stream is the
16-bit operand `n` (30_encoding.md R90, R93). Every other range the spec sets on an operand (R91,
R92) is carried by the operand's type.
-/

namespace Sys2Proof

/-- The bytes a command receives on data-in (30_encoding.md R93); the commands not listed there take none. -/
def Instr.dataIn : Instr → List Byte
  | .rbAdd d => d
  | .rbFadd d => d
  | .edmEncdata _ d => d
  | .edmEncatreq d => d
  | .edmEncatrsp d => d
  | .ubxEncode _ _ d => d
  | .ubxDecode d => d
  | .ubxSendrecv _ _ _ _ _ _ d => d
  | .ubxSendonly _ _ _ d => d
  | .uartWrite d => d
  | .rbCreate _ => []
  | .rbCreateh _ _ => []
  | .rbDestroy => []
  | .rbSetrhr _ => []
  | .rbTake => []
  | .rbGive _ => []
  | .rbLock _ => []
  | .rbUnlock _ => []
  | .rbRead _ => []
  | .rbPeek _ => []
  | .rbReadh _ _ => []
  | .rbPeekh _ _ => []
  | .rbAvail => []
  | .rbAvailmax => []
  | .rbStatadd => []
  | .rbStatread _ => []
  | .edmParse _ => []
  | .edmReady => []
  | .edmReset => []
  | .edmEvdata _ => []
  | .edmEvent => []
  | .edmEnchead _ _ => []
  | .edmEnctail => []
  | .uartAvail => []
  | .uartRead _ => []
  | .linkPump _ => []
  | .linkDrain _ _ => []

/-- A command can be encoded: its data-in stream has a length the 16-bit operand `n` can hold (30_encoding.md R90, R93). -/
def Instr.wellFormed (i : Instr) : Bool := decide (i.dataIn.length < 65536)

end Sys2Proof
end

