-- ==== Sys2Proof/Decode.lean ====
section
/-!
DEFINITION. The command decoder and, after it, the encoder, both written from 30_encoding.md R90 to
R93, R96 and R99. The port offers a stream of 32-bit words and a stream of data-in bytes; a decoder
knows the number of extension words and of data-in bytes from `op` and `n` alone (R90).
-/

namespace Sys2Proof

/-- Bits 31:24 of a command word (R90). -/
def opField (w : Word) : Byte := w.extractLsb' 24 8

/-- Bits 23:16 of a command word (R90). -/
def hField (w : Word) : Byte := w.extractLsb' 16 8

/-- Bits 15:0 of a command word (R90). -/
def nField (w : Word) : Half := w.extractLsb' 0 16

/-- Why a command is illegal (R99). -/
inductive Illegal where
  /-- The opcode is in none of the rows of R96. -/
  | unassignedOpcode
  /-- A field of the command word that the format does not use is not zero (R91). -/
  | nonzeroField
  /-- An operand is outside the range R91 sets: RB.SETRHR `h`, LINK.PUMP `h`, LINK.DRAIN `n`. -/
  | operandOutOfRange
  /-- A must-be-zero field of an extension word is not zero (R92). -/
  | nonzeroExtensionField
  /-- `expClass8` with `anyClass`, or `expId8` with `anyId`, is not zero (R92). -/
  | wildcardWithValue
deriving DecidableEq, Repr

/-- What the port still lacks of a command (R90: the word, then the extension words, then data-in). -/
inductive Missing where
  | commandWord
  | extensionWords
  | inputBytes
deriving DecidableEq, Repr

/-- What the decoder finds at the front of the port's two streams. -/
inductive Decoded where
  /-- A legal command, and what is left of the words and of data-in after it. -/
  | command (i : Instr) (words : List Word) (input : List Byte)
  /-- An illegal command, and what is left of the words; no data-in byte is consumed (R99). -/
  | illegal (why : Illegal) (words : List Word)
  /-- The command is not all there yet: the port waits (log entry 10). -/
  | waiting (what : Missing)
deriving DecidableEq, Repr

/-! ### Formats (R91) -/

/-- The end of a command that receives exactly `n` data-in bytes (R93). -/
def receive (n : Half) (ws : List Word) (input : List Byte) (mk : List Byte → Instr) : Decoded :=
  if input.length < n.toNat then .waiting .inputBytes
  else .command (mk (input.take n.toNat)) ws (input.drop n.toNat)

/-- Format Z: neither operand is used. -/
def formatZ (w : Word) (ws : List Word) (input : List Byte) (i : Instr) : Decoded :=
  if hField w = 0 ∧ nField w = 0 then .command i ws input else .illegal .nonzeroField ws

/-- Format H: `h` is used; `mk` gives no instruction for a value of `h` outside the range R91 sets. -/
def formatH (w : Word) (ws : List Word) (input : List Byte) (mk : Byte → Option Instr) : Decoded :=
  if nField w = 0 then
    match mk (hField w) with
    | some i => .command i ws input
    | none => .illegal .operandOutOfRange ws
  else .illegal .nonzeroField ws

/-- Format N without data-in. -/
def formatN (w : Word) (ws : List Word) (input : List Byte) (mk : Half → Instr) : Decoded :=
  if hField w = 0 then .command (mk (nField w)) ws input else .illegal .nonzeroField ws

/-- Format N of a command that receives `n` bytes. -/
def formatNIn (w : Word) (ws : List Word) (input : List Byte) (mk : List Byte → Instr) : Decoded :=
  if hField w = 0 then receive (nField w) ws input mk else .illegal .nonzeroField ws

/-- Format HN without data-in; `mk` gives no instruction for a value of `n` outside the range R91 sets. -/
def formatHN (w : Word) (ws : List Word) (input : List Byte) (mk : Byte → Half → Option Instr) : Decoded :=
  match mk (hField w) (nField w) with
  | some i => .command i ws input
  | none => .illegal .operandOutOfRange ws

/-- Format HN of a command that receives `n` bytes. -/
def formatHNIn (w : Word) (ws : List Word) (input : List Byte) (mk : Byte → List Byte → Instr) : Decoded :=
  receive (nField w) ws input (mk (hField w))

/-! ### Extension words (R92) -/

/-- `id`, bits 7:0 of ext1. -/
def extId (e : Word) : Byte := e.extractLsb' 0 8

/-- Bits 31:8 of ext1 of UBX.ENCODE and UBX.SENDONLY, which must be zero. -/
def extIdZero (e : Word) : BitVec 24 := e.extractLsb' 8 24

/-- `expClass8`, bits 15:8 of ext1 of UBX.SENDRECV. -/
def extClass8 (e : Word) : Byte := e.extractLsb' 8 8

/-- `expId8`, bits 23:16 of ext1 of UBX.SENDRECV. -/
def extId8 (e : Word) : Byte := e.extractLsb' 16 8

/-- `anyClass`, bit 24 of ext1 of UBX.SENDRECV. -/
def extAnyClass (e : Word) : Bool := e.getLsbD 24

/-- `anyId`, bit 25 of ext1 of UBX.SENDRECV. -/
def extAnyId (e : Word) : Bool := e.getLsbD 25

/-- Bits 31:26 of ext1 of UBX.SENDRECV, which must be zero. -/
def extExpectZero (e : Word) : BitVec 6 := e.extractLsb' 26 6

/-- `maxBody`, bits 15:0 of ext2 of UBX.SENDRECV. -/
def extMaxBody (e : Word) : Half := e.extractLsb' 0 16

/-- Bits 31:16 of ext2 of UBX.SENDRECV, which must be zero. -/
def extMaxBodyZero (e : Word) : Half := e.extractLsb' 16 16

/-- An expected class or id: `none` (−1, "accept any") when the any bit is set, and then its value field must be zero (R92). -/
def expectField (any : Bool) (v : Byte) : Option (Option Byte) :=
  if any then (if v = 0 then some none else none) else some (some v)

/-- Format X1, UBX.ENCODE. -/
def formatX1 (w : Word) (ws : List Word) (input : List Byte) (mk : Byte → Byte → List Byte → Instr) : Decoded :=
  match ws with
  | e1 :: rest =>
    if extIdZero e1 = 0 then receive (nField w) rest input (mk (hField w) (extId e1))
    else .illegal .nonzeroExtensionField rest
  | [] => .waiting .extensionWords

/-- Format X2, UBX.SENDONLY. -/
def formatX2 (w : Word) (ws : List Word) (input : List Byte) (mk : Byte → Byte → Word → List Byte → Instr) : Decoded :=
  match ws with
  | e1 :: e2 :: rest =>
    if extIdZero e1 = 0 then receive (nField w) rest input (mk (hField w) (extId e1) e2)
    else .illegal .nonzeroExtensionField rest
  | _ => .waiting .extensionWords

/-- Format X3, UBX.SENDRECV. -/
def formatX3 (w : Word) (ws : List Word) (input : List Byte)
    (mk : Byte → Byte → Option Byte → Option Byte → Half → Word → List Byte → Instr) : Decoded :=
  match ws with
  | e1 :: e2 :: e3 :: rest =>
    if extExpectZero e1 = 0 ∧ extMaxBodyZero e2 = 0 then
      match expectField (extAnyClass e1) (extClass8 e1), expectField (extAnyId e1) (extId8 e1) with
      | some c, some i => receive (nField w) rest input (mk (hField w) (extId e1) c i (extMaxBody e2) e3)
      | _, _ => .illegal .wildcardWithValue rest
    else .illegal .nonzeroExtensionField rest
  | _ => .waiting .extensionWords

/-! ### Operands with a restricted range (R91) -/

/-- RB.SETRHR `h`: 0 or 1. -/
def boolOfByte (h : Byte) : Option Bool :=
  if h = 0 then some false else if h = 1 then some true else none

/-- LINK.DRAIN `n`: 0 or 1. -/
def boolOfHalf (n : Half) : Option Bool :=
  if n = 0 then some false else if n = 1 then some true else none

/-- LINK.PUMP `h`: 0 Off, 1 Add, 2 ForceAdd. -/
def pumpOfByte (h : Byte) : Option PumpMode :=
  if h = 0 then some .off else if h = 1 then some .add else if h = 2 then some .forceAdd else none

/-! ### The decoder (R96, R99) -/

/-- The command at the front of the port, by its opcode (the table of R96). -/
def decodeOp (w : Word) (ws : List Word) (input : List Byte) : Decoded :=
  match (opField w).toNat with
  | 0x01 => formatN w ws input .rbCreate
  | 0x02 => formatHN w ws input fun h n => some (.rbCreateh h n)
  | 0x03 => formatZ w ws input .rbDestroy
  | 0x04 => formatH w ws input fun h => (boolOfByte h).map .rbSetrhr
  | 0x10 => formatZ w ws input .rbTake
  | 0x11 => formatH w ws input fun h => some (.rbGive h)
  | 0x12 => formatH w ws input fun h => some (.rbLock h)
  | 0x13 => formatH w ws input fun h => some (.rbUnlock h)
  | 0x20 => formatNIn w ws input .rbAdd
  | 0x21 => formatNIn w ws input .rbFadd
  | 0x22 => formatN w ws input .rbRead
  | 0x23 => formatN w ws input .rbPeek
  | 0x24 => formatHN w ws input fun h n => some (.rbReadh h n)
  | 0x25 => formatHN w ws input fun h n => some (.rbPeekh h n)
  | 0x30 => formatZ w ws input .rbAvail
  | 0x31 => formatZ w ws input .rbAvailmax
  | 0x32 => formatZ w ws input .rbStatadd
  | 0x33 => formatH w ws input fun h => some (.rbStatread h)
  | 0x40 => formatH w ws input fun h => some (.edmParse h)
  | 0x41 => formatZ w ws input .edmReady
  | 0x42 => formatZ w ws input .edmReset
  | 0x43 => formatN w ws input .edmEvdata
  | 0x44 => formatZ w ws input .edmEvent
  | 0x50 => formatHNIn w ws input .edmEncdata
  | 0x51 => formatHN w ws input fun h n => some (.edmEnchead h n)
  | 0x52 => formatZ w ws input .edmEnctail
  | 0x53 => formatNIn w ws input .edmEncatreq
  | 0x54 => formatNIn w ws input .edmEncatrsp
  | 0x60 => formatX1 w ws input .ubxEncode
  | 0x61 => formatNIn w ws input .ubxDecode
  | 0x62 => formatX3 w ws input .ubxSendrecv
  | 0x63 => formatX2 w ws input .ubxSendonly
  | 0x70 => formatNIn w ws input .uartWrite
  | 0x71 => formatZ w ws input .uartAvail
  | 0x72 => formatN w ws input .uartRead
  | 0x73 => formatH w ws input fun h => (pumpOfByte h).map .linkPump
  | 0x74 => formatHN w ws input fun h n => (boolOfHalf n).map (.linkDrain h)
  | _ => .illegal .unassignedOpcode ws

/-- What stands at the front of the port's streams: total on any words and bytes (R99). -/
def decode (words : List Word) (input : List Byte) : Decoded :=
  match words with
  | [] => .waiting .commandWord
  | w :: ws => decodeOp w ws input

/-! ### The encoder (R90 to R93, R96) -/

/-- A command as the HOST presents it: its words, and its data-in bytes. -/
structure Encoded where
  words : List Word
  input : List Byte
deriving DecidableEq, Repr

/-- A command word from its three fields (R90). -/
def commandWord (op h : Byte) (n : Half) : Word := (op ++ h) ++ n

/-- The operand `n` of a command that receives the bytes `d` (R93). -/
def lengthField (d : List Byte) : Half := BitVec.ofNat 16 d.length

/-- RB.SETRHR's operand. -/
def byteOfBool (b : Bool) : Byte := if b then 1 else 0

/-- LINK.DRAIN's enable operand. -/
def halfOfBool (b : Bool) : Half := if b then 1 else 0

/-- LINK.PUMP's operand (10_state.md R42). -/
def byteOfPump : PumpMode → Byte
  | .off => 0
  | .add => 1
  | .forceAdd => 2

/-- Ext1 of UBX.ENCODE and UBX.SENDONLY (R92). -/
def idWord (id : Byte) : Word := (0 : BitVec 24) ++ id

/-- Ext1 of UBX.SENDRECV (R92). -/
def expectWord (id : Byte) (expClass expId : Option Byte) : Word :=
  (0 : BitVec 6) ++ BitVec.ofBool expId.isNone ++ BitVec.ofBool expClass.isNone
    ++ expId.getD 0 ++ expClass.getD 0 ++ id

/-- Ext2 of UBX.SENDRECV (R92). -/
def maxBodyWord (maxBody : Half) : Word := (0 : Half) ++ maxBody

/-- The words and bytes of a command. -/
def encode : Instr → Encoded
  | .rbCreate n => ⟨[commandWord 0x01 0 n], []⟩
  | .rbCreateh h n => ⟨[commandWord 0x02 h n], []⟩
  | .rbDestroy => ⟨[commandWord 0x03 0 0], []⟩
  | .rbSetrhr b => ⟨[commandWord 0x04 (byteOfBool b) 0], []⟩
  | .rbTake => ⟨[commandWord 0x10 0 0], []⟩
  | .rbGive h => ⟨[commandWord 0x11 h 0], []⟩
  | .rbLock h => ⟨[commandWord 0x12 h 0], []⟩
  | .rbUnlock h => ⟨[commandWord 0x13 h 0], []⟩
  | .rbAdd d => ⟨[commandWord 0x20 0 (lengthField d)], d⟩
  | .rbFadd d => ⟨[commandWord 0x21 0 (lengthField d)], d⟩
  | .rbRead n => ⟨[commandWord 0x22 0 n], []⟩
  | .rbPeek n => ⟨[commandWord 0x23 0 n], []⟩
  | .rbReadh h n => ⟨[commandWord 0x24 h n], []⟩
  | .rbPeekh h n => ⟨[commandWord 0x25 h n], []⟩
  | .rbAvail => ⟨[commandWord 0x30 0 0], []⟩
  | .rbAvailmax => ⟨[commandWord 0x31 0 0], []⟩
  | .rbStatadd => ⟨[commandWord 0x32 0 0], []⟩
  | .rbStatread h => ⟨[commandWord 0x33 h 0], []⟩
  | .edmParse b => ⟨[commandWord 0x40 b 0], []⟩
  | .edmReady => ⟨[commandWord 0x41 0 0], []⟩
  | .edmReset => ⟨[commandWord 0x42 0 0], []⟩
  | .edmEvdata n => ⟨[commandWord 0x43 0 n], []⟩
  | .edmEvent => ⟨[commandWord 0x44 0 0], []⟩
  | .edmEncdata h d => ⟨[commandWord 0x50 h (lengthField d)], d⟩
  | .edmEnchead h n => ⟨[commandWord 0x51 h n], []⟩
  | .edmEnctail => ⟨[commandWord 0x52 0 0], []⟩
  | .edmEncatreq d => ⟨[commandWord 0x53 0 (lengthField d)], d⟩
  | .edmEncatrsp d => ⟨[commandWord 0x54 0 (lengthField d)], d⟩
  | .ubxEncode c i d => ⟨[commandWord 0x60 c (lengthField d), idWord i], d⟩
  | .ubxDecode d => ⟨[commandWord 0x61 0 (lengthField d)], d⟩
  | .ubxSendrecv c i ec ei m t d =>
    ⟨[commandWord 0x62 c (lengthField d), expectWord i ec ei, maxBodyWord m, t], d⟩
  | .ubxSendonly c i t d => ⟨[commandWord 0x63 c (lengthField d), idWord i, t], d⟩
  | .uartWrite d => ⟨[commandWord 0x70 0 (lengthField d)], d⟩
  | .uartAvail => ⟨[commandWord 0x71 0 0], []⟩
  | .uartRead n => ⟨[commandWord 0x72 0 n], []⟩
  | .linkPump m => ⟨[commandWord 0x73 (byteOfPump m) 0], []⟩
  | .linkDrain h b => ⟨[commandWord 0x74 h (halfOfBool b)], []⟩

/-! ### The opcode table's match and mask (R91, spec/opcode_table.json) -/

/-- A row of spec/opcode_table.json: the fixed bits of the command word and the number of extension words. -/
structure Row where
  fixed : Word
  mask : Word
  extensionWords : Nat
deriving DecidableEq, Repr

/-- The table's row of a command. -/
def Instr.row : Instr → Row
  | .rbCreate _ => ⟨0x01000000, 0xFFFF0000, 0⟩
  | .rbCreateh _ _ => ⟨0x02000000, 0xFF000000, 0⟩
  | .rbDestroy => ⟨0x03000000, 0xFFFFFFFF, 0⟩
  | .rbSetrhr _ => ⟨0x04000000, 0xFFFEFFFF, 0⟩
  | .rbTake => ⟨0x10000000, 0xFFFFFFFF, 0⟩
  | .rbGive _ => ⟨0x11000000, 0xFF00FFFF, 0⟩
  | .rbLock _ => ⟨0x12000000, 0xFF00FFFF, 0⟩
  | .rbUnlock _ => ⟨0x13000000, 0xFF00FFFF, 0⟩
  | .rbAdd _ => ⟨0x20000000, 0xFFFF0000, 0⟩
  | .rbFadd _ => ⟨0x21000000, 0xFFFF0000, 0⟩
  | .rbRead _ => ⟨0x22000000, 0xFFFF0000, 0⟩
  | .rbPeek _ => ⟨0x23000000, 0xFFFF0000, 0⟩
  | .rbReadh _ _ => ⟨0x24000000, 0xFF000000, 0⟩
  | .rbPeekh _ _ => ⟨0x25000000, 0xFF000000, 0⟩
  | .rbAvail => ⟨0x30000000, 0xFFFFFFFF, 0⟩
  | .rbAvailmax => ⟨0x31000000, 0xFFFFFFFF, 0⟩
  | .rbStatadd => ⟨0x32000000, 0xFFFFFFFF, 0⟩
  | .rbStatread _ => ⟨0x33000000, 0xFF00FFFF, 0⟩
  | .edmParse _ => ⟨0x40000000, 0xFF00FFFF, 0⟩
  | .edmReady => ⟨0x41000000, 0xFFFFFFFF, 0⟩
  | .edmReset => ⟨0x42000000, 0xFFFFFFFF, 0⟩
  | .edmEvdata _ => ⟨0x43000000, 0xFFFF0000, 0⟩
  | .edmEvent => ⟨0x44000000, 0xFFFFFFFF, 0⟩
  | .edmEncdata _ _ => ⟨0x50000000, 0xFF000000, 0⟩
  | .edmEnchead _ _ => ⟨0x51000000, 0xFF000000, 0⟩
  | .edmEnctail => ⟨0x52000000, 0xFFFFFFFF, 0⟩
  | .edmEncatreq _ => ⟨0x53000000, 0xFFFF0000, 0⟩
  | .edmEncatrsp _ => ⟨0x54000000, 0xFFFF0000, 0⟩
  | .ubxEncode _ _ _ => ⟨0x60000000, 0xFF000000, 1⟩
  | .ubxDecode _ => ⟨0x61000000, 0xFFFF0000, 0⟩
  | .ubxSendrecv _ _ _ _ _ _ _ => ⟨0x62000000, 0xFF000000, 3⟩
  | .ubxSendonly _ _ _ _ => ⟨0x63000000, 0xFF000000, 2⟩
  | .uartWrite _ => ⟨0x70000000, 0xFFFF0000, 0⟩
  | .uartAvail => ⟨0x71000000, 0xFFFFFFFF, 0⟩
  | .uartRead _ => ⟨0x72000000, 0xFFFF0000, 0⟩
  | .linkPump _ => ⟨0x73000000, 0xFF00FFFF, 0⟩
  | .linkDrain _ _ => ⟨0x74000000, 0xFF00FFFE, 0⟩

/-! ### A table word as the port sees it -/

/-- How many extension words an opcode takes (R91). -/
def extensionCount (w : Word) : Nat :=
  match (opField w).toNat with
  | 0x60 => 1
  | 0x62 => 3
  | 0x63 => 2
  | _ => 0

/-- How many data-in bytes a command word announces (R93). -/
def inputCount (w : Word) : Nat :=
  match (opField w).toNat with
  | 0x20 | 0x21 | 0x50 | 0x53 | 0x54 | 0x60 | 0x61 | 0x62 | 0x63 | 0x70 => (nField w).toNat
  | _ => 0

/-- `k` words of the number `w`, from bit `at` up. -/
def wordsFrom (w start : Nat) : Nat → List Word
  | 0 => []
  | k + 1 => BitVec.ofNat 32 (w / 2 ^ start) :: wordsFrom w (start + 32) k

/-- `k` bytes of the number `w`, from bit `at` up. -/
def bytesFrom (w start : Nat) : Nat → List Byte
  | 0 => []
  | k + 1 => BitVec.ofNat 8 (w / 2 ^ start) :: bytesFrom w (start + 8) k

/-- The command whose bits are `w`, numbered as spec/opcode_table.json numbers them: the command word is
bits 31:0, each extension word the next 32 bits, then the data-in bytes; bits from `nbits` up are 0. -/
def tableCommand (nbits w : Nat) : Encoded :=
  let v := w % 2 ^ nbits
  let head : Word := BitVec.ofNat 32 v
  let ext := extensionCount head
  ⟨head :: wordsFrom v 32 ext, bytesFrom v (32 + 32 * ext) (inputCount head)⟩

/-- The instruction the decoder reads from the instruction whose bits are `w`. -/
def decodeTableWord (nbits w : Nat) : Option Instr :=
  match decode (tableCommand nbits w).words (tableCommand nbits w).input with
  | .command i _ _ => some i
  | .illegal _ _ => none
  | .waiting _ => none

end Sys2Proof
end

