-- ==== Sys2Proof/Config.lean ====
section
/-!
DEFINITION. What a build of RBX fixes: the parameters of 00_scope.md R6 as one record, with the defaults
R6 gives and the range each may take (log entries 1 and 16), and the constants R6 takes from the source;
then the environment's turn, and the one free value: which turn the environment takes (log entry 5).
-/

namespace Sys2Proof.Config

/-! ### Constants: the parameters R6 marks as from the source, "not to be changed" -/

/-- `EDM_HEAD`: EDM head marker (R6, source). -/
def edmHead : Byte := 0xAA

/-- `EDM_TAIL`: EDM tail marker (R6, source). -/
def edmTail : Byte := 0x55

/-- `EDM_MIN_LEN`: smallest legal declared length (R6, source). -/
def edmMinLen : Nat := 2

/-- `EDM_STACK`: bytes of the fixed frame buffer (R6, source). -/
def edmStack : Nat := 256

/-- `UBX_CLASS_ACK` (R6, source). -/
def ubxClassAck : Byte := 0x05

/-- `UBX_ID_ACK` (R6, source). -/
def ubxIdAck : Byte := 0x01

/-- `UBX_ID_NACK` (R6, source). No rule tests for it: R296 takes every id but the Ack's as the Nack outcome. -/
def ubxIdNack : Byte := 0x00

/-! ### Parameters: the values R6 marks as decided or from general knowledge -/

/-- How heap allocation for an oversized frame answers (R6, `EDM_HEAP`). -/
inductive HeapPolicy where
  | draw
  | always
  | never
deriving DecidableEq, Repr

/-- The error kinds of 60_exceptions.md R341. -/
inductive ErrKind where
  | notInitialised
  | notSupported
  | invalidParameter
  | noMemory
  | transportError
  | timeout
  | deviceError
  | notFound
deriving DecidableEq, Repr

/-- `ERR_*`: the signed result of each error kind (R6; 60_exceptions.md R341). -/
structure ErrCodes where
  notInitialised : Int
  notSupported : Int
  invalidParameter : Int
  noMemory : Int
  transportError : Int
  timeout : Int
  deviceError : Int
  notFound : Int
deriving DecidableEq, Repr

/-- The parameters of one build of RBX (R6), inputs of the step relation (10_state.md R20). -/
structure Params where
  /-- `SIZE_MAX`: bytes of ring-buffer storage RAM. -/
  sizeMax : Nat
  /-- `NMAX`: number of read-handle slots. -/
  nmax : Nat
  /-- `LOSSW`: width in bits of each loss counter. -/
  lossw : Nat
  /-- `EDM_MAX_LEN`: hard maximum declared length. -/
  edmMaxLen : Nat
  /-- `EDM_HEAP`. -/
  edmHeap : HeapPolicy
  /-- `T_CONNECT`. -/
  tConnect : Half
  /-- `T_DISCONNECT`. -/
  tDisconnect : Half
  /-- `T_DATA_EVT`. -/
  tDataEvt : Half
  /-- `T_DATA_CMD`. -/
  tDataCmd : Half
  /-- `T_AT_EVT`. -/
  tAtEvt : Half
  /-- `T_AT_REQ`. -/
  tAtReq : Half
  /-- `T_AT_RSP`. -/
  tAtRsp : Half
  /-- `T_START`. -/
  tStart : Half
  /-- `CT_BT`. -/
  ctBt : Byte
  /-- `CT_IPV4`. -/
  ctIpv4 : Byte
  /-- `CT_IPV6`. -/
  ctIpv6 : Byte
  /-- `P_BT`. -/
  pBt : Nat
  /-- `P_IPV4`. -/
  pIpv4 : Nat
  /-- `P_IPV6`. -/
  pIpv6 : Nat
  /-- `UBX_SYNC1`. -/
  ubxSync1 : Byte
  /-- `UBX_SYNC2`. -/
  ubxSync2 : Byte
  /-- `UBX_OVERHEAD`: frame bytes that are not body. -/
  ubxOverhead : Nat
  /-- `ERR_*`. -/
  err : ErrCodes
deriving DecidableEq, Repr

/-- The error codes R341 gives as defaults (D3; general knowledge, 93_implementation_defined.md U10). -/
def ErrCodes.default : ErrCodes where
  notInitialised := -2
  notSupported := -4
  invalidParameter := -5
  noMemory := -6
  transportError := -8
  timeout := -9
  deviceError := -10
  notFound := -11

/-- The build with every parameter at R6's default (D17, D12, D19; general knowledge for the rest, U2 to U10). -/
def Params.default : Params where
  sizeMax := 65535
  nmax := 8
  lossw := 32
  edmMaxLen := 4095
  edmHeap := .draw
  tConnect := 0x0011
  tDisconnect := 0x0021
  tDataEvt := 0x0031
  tDataCmd := 0x0036
  tAtEvt := 0x0041
  tAtReq := 0x0044
  tAtRsp := 0x0045
  tStart := 0x0071
  ctBt := 1
  ctIpv4 := 2
  ctIpv6 := 3
  pBt := 11
  pIpv4 := 15
  pIpv6 := 39
  ubxSync1 := 0xB5
  ubxSync2 := 0x62
  ubxOverhead := 8
  err := .default

/-- `ERR_*` of an error kind (R341). -/
def ErrCodes.code (c : ErrCodes) : ErrKind → Int
  | .notInitialised => c.notInitialised
  | .notSupported => c.notSupported
  | .invalidParameter => c.invalidParameter
  | .noMemory => c.noMemory
  | .transportError => c.transportError
  | .timeout => c.timeout
  | .deviceError => c.deviceError
  | .notFound => c.notFound

/-- The values a build's parameters may have, DEDUCED from the rules that use them (log entry 1): the widths
of the fields they bound (10_state.md R22, R30, R36), type headers and connection types that tell frames
apart (42_edm_parser.md R196; data event and data command may share one code, 90_conflicts.md C6),
sub-payloads that hold their fields (R197 to R199), an overhead that leaves the ENGINE the room of
45_ubx_engine.md R293, and error codes that are negative and pairwise distinct 32-bit values
(60_exceptions.md R341). -/
structure Params.Legal (p : Params) : Prop where
  sizeMax_le : p.sizeMax ≤ 65535
  nmax_le : p.nmax ≤ 255
  lossw_pos : 1 ≤ p.lossw
  lossw_le : p.lossw ≤ 32
  edmMaxLen_le : p.edmMaxLen ≤ 65535
  types_evt : [p.tConnect, p.tDisconnect, p.tDataEvt, p.tAtEvt, p.tAtReq, p.tAtRsp, p.tStart].Nodup
  types_cmd : [p.tConnect, p.tDisconnect, p.tDataCmd, p.tAtEvt, p.tAtReq, p.tAtRsp, p.tStart].Nodup
  ctypes : [p.ctBt, p.ctIpv4, p.ctIpv6].Nodup
  pBt_ge : 11 ≤ p.pBt
  pIpv4_ge : 15 ≤ p.pIpv4
  pIpv6_ge : 39 ≤ p.pIpv6
  overhead_ge : 8 ≤ p.ubxOverhead
  overhead_le : p.ubxOverhead ≤ 65536
  err_neg : ∀ k, -2 ^ 31 ≤ p.err.code k ∧ p.err.code k < 0
  err_inj : ∀ j k, p.err.code j = p.err.code k → j = k

/-- What an unlisted byte of the ring storage or of the frame buffer reads as. DESIGN CHOICE, unsafe
(log entry 3): the spec leaves it unspecified and says that no rule can observe it
(93_implementation_defined.md U14, U16). -/
def unlisted : Byte := 0

/-- Which agent a turn gives the next step to, with that agent's own inputs (60_exceptions.md R352). -/
inductive AgentTurn where
  /-- HOST: first presents further command words and data-in bytes, then has the command at the front of the port taken. -/
  | host (words : List Word) (input : List Byte)
  /-- LINE (46_uart_link.md R314): appends received bytes to `uart.rx` and takes `sent` bytes from the front of `uart.tx`. -/
  | line (received : List Byte) (sent : Nat)
  /-- PUMP (46_uart_link.md R317). -/
  | pump
  /-- DRAIN (46_uart_link.md R319). -/
  | drain
  /-- ENGINE (45_ubx_engine.md R290). -/
  | engine
deriving DecidableEq, Repr, Inhabited

/-- One turn of the environment: the inputs of one step (10_state.md R20). -/
structure Turn where
  /-- Milliseconds `clk.now` advances by before the step, modulo 2^32 (10_state.md R44). -/
  elapsed : Word
  /-- The answer of `draw(heap_ok)` in this step (42_edm_parser.md R193). -/
  heapOk : Bool
  /-- The answer of `draw(write_ok)` in this step (46_uart_link.md R311). -/
  writeOk : Bool
  /-- The agent that takes the step. -/
  agent : AgentTurn
deriving DecidableEq, Repr, Inhabited

/-- The turn the environment takes at tick `n` once the agenda in State is used up: a FREE VALUE, "every
interleaving is legal" (93_implementation_defined.md U13, U21, U22; 20_memory.md R73). It has no body,
so nothing can be proved of its value (log entry 5). -/
opaque turn : Nat → Turn

end Sys2Proof.Config

namespace Sys2Proof

/-- The result word of an error kind: its code in 32-bit two's complement (30_encoding.md R94). -/
def errWord (par : Config.Params) (e : Config.ErrKind) : Word := BitVec.ofInt 32 (par.err.code e)

end Sys2Proof
end

