-- ==== Sys2Proof/Machine/State.lean ====
section
/-!
DEFINITION. The state of RBX as plain data: every field of 10_state.md R20 to R48, the outputs of the
last step, and the inputs of the step relation: the environment's (log entries 4 to 7) and the build's
parameters (log entry 1).
-/

namespace Sys2Proof.Machine

/-- A byte space: (index, byte) pairs, indices strictly rising, none equal to `Config.unlisted` (20_memory.md R60; log entry 3). -/
abbrev Memory := List Host.Cell

/-- A loss counter (10_state.md R22): LOSSW bits, so below 2^LOSSW; `Loss.bump` wraps it. LOSSW is a parameter
of the build, so the width stands in the counter's one operation and not in its type. -/
abbrev Loss := Nat

/-- Ring-buffer unit RB (10_state.md R22). -/
structure RB where
  /-- The buffer has been created and not destroyed. -/
  created : Bool
  /-- Size in bytes; the capacity is one less. -/
  size : Half
  /-- Number of handle slots, `maxHandles`. -/
  n : Byte
  /-- Backing storage. -/
  mem : Memory
  /-- Write cursor. -/
  w : Half
  /-- Read cursors 0..NMAX; 0 is the normal cursor. NMAX is the build's, so the tables are lists (log entry 19). -/
  x : List Half
  /-- `taken[k]` at index k − 1, 1 ≤ k ≤ NMAX. -/
  taken : List Bool
  /-- `lock[k]` at index k − 1, 1 ≤ k ≤ NMAX. -/
  lock : List Bool
  /-- Bytes discarded from cursor k before it read them, 0..NMAX. -/
  lossRead : List Loss
  /-- Bytes offered to an add that were refused. -/
  lossAdd : Loss
  /-- `readHandleRequired`. -/
  rhr : Bool
deriving DecidableEq, Repr

/-- The buffer-wide mutex (10_state.md R27). -/
inductive Mutex where
  | free
  | held
deriving DecidableEq, Repr

/-- `edm.state` (10_state.md R30), codes 0 to 4 in this order. -/
inductive EdmState where
  | parseStartByte
  | parsePayloadLength
  | accumulatePayload
  | parseTailByte
  | waitForEventProcessing
deriving DecidableEq, Repr

/-- An EDM event (10_state.md R31). `off` and `length` name a slice of the frame buffer. -/
inductive Event where
  | connectBT (channel profile : Byte) (address : Vector Byte 6) (framesize : Half)
  | connectIPv4 (channel protocol : Byte) (remoteAddr : Vector Byte 4) (remotePort : Half)
      (localAddr : Vector Byte 4) (localPort : Half)
  | connectIPv6 (channel protocol : Byte) (remoteAddr : Vector Byte 16) (remotePort : Half)
      (localAddr : Vector Byte 16) (localPort : Half)
  | disconnect (channel : Byte)
  | data (channel : Byte) (off length : Half)
  | atText (channel : Byte) (off length : Half)
  | startup (channel : Byte)
deriving DecidableEq, Repr

/-- EDM parser unit (10_state.md R30). -/
structure Edm where
  state : EdmState
  /-- Length bytes received so far in ParsePayloadLength. -/
  lenCnt : BitVec 1
  /-- Declared length L. -/
  len : Half
  /-- Payload bytes accumulated so far. -/
  cnt : Half
  /-- The in-flight frame buffer: type header and sub-payload. -/
  buf : Memory
  /-- The in-flight buffer is the heap-allocated one. -/
  heap : Bool
  /-- The unconsumed event. -/
  event : Option Event
deriving DecidableEq, Repr

/-- `ubx.phase` (10_state.md R36), codes 0 and 1. -/
inductive UbxPhase where
  | idle
  | poll
deriving DecidableEq, Repr

/-- UBX unit (10_state.md R36): one send/receive call while it is in progress. -/
structure Ubx where
  phase : UbxPhase
  /-- Bytes read from the UART and not yet discarded. -/
  acc : List Byte
  /-- Capacity of `acc`. -/
  cap : BitVec 18
  /-- Largest response body the caller accepts. -/
  maxBody : Half
  /-- Expected class; `none` is −1, "accept any". -/
  expClass : Option Byte
  /-- Expected id; `none` is −1, "accept any". -/
  expId : Option Byte
  /-- The call is UBX.SENDONLY. -/
  ack : Bool
  reqClass : Byte
  reqId : Byte
  /-- `clk.now` when the call started. -/
  t0 : Word
  timeout : Word
deriving DecidableEq, Repr

/-- UART unit (10_state.md R40, 46_uart_link.md R310): two byte queues, oldest first. -/
structure Uart where
  rx : List Byte
  tx : List Byte
deriving DecidableEq, Repr

/-- LINK unit (10_state.md R42). -/
structure Link where
  pump : PumpMode
  drainEn : Bool
  /-- Cursor index the DRAIN reads. -/
  drainCur : Byte
deriving DecidableEq, Repr

/-- The outputs of the last step (10_state.md R20): the result word it posted, if any, and data-out. -/
structure Port where
  result : Option Word
  out : List Byte
deriving DecidableEq, Repr

/-- The environment's inputs, the model's own fields (10_state.md R20, R44; log entries 4 to 6, 18). -/
structure Env where
  /-- `clk.now`. -/
  now : Word
  /-- The answer of `draw(heap_ok)` in this step. -/
  heapOk : Bool
  /-- The answer of `draw(write_ok)` in this step. -/
  writeOk : Bool
  /-- Words presented at the command port and not yet taken. -/
  words : List Word
  /-- Data-in bytes presented and not yet taken. -/
  input : List Byte
  /-- The environment's next turns. -/
  agenda : List Config.Turn
  /-- How many turns have been drawn from `Config.turn`. -/
  tick : Nat
deriving DecidableEq, Repr

/-- The whole state of RBX, and the inputs of its next step (10_state.md R20). -/
structure State where
  /-- The build's parameters (00_scope.md R6), inputs of the step relation; no step writes them (log entry 1). -/
  par : Config.Params
  rb : RB
  mutex : Mutex
  edm : Edm
  ubx : Ubx
  uart : Uart
  link : Link
  port : Port
  env : Env
deriving DecidableEq, Repr

/-- Why the machine stops: never. RBX never traps (60_exceptions.md R340), so there is no constructor; an
error is a result word. Having none is safe: no step can hide behind a fault. -/
inductive Fault where
deriving DecidableEq, Repr

/-- Why the model gives a command no meaning. -/
inductive Refusal where
  /-- An arm of `exec` that has no meaning yet raises it; no arm does. Safe: the machine stops. -/
  | notModelled (mnemonic : String)
deriving DecidableEq, Repr

/-- A build after power-on reset (70_reset_and_hazards.md R370, 10_state.md R48). A field the spec
calls unspecified has the value log entry 2 names; the storage lists nothing (log entry 3); the
environment has chosen nothing yet (log entries 4 to 6, 18). -/
def State.powerOn (par : Config.Params) : State where
  par := par
  rb :=
    { created := false, size := 0, n := 0, mem := [], w := 0
      x := List.replicate (par.nmax + 1) 0
      taken := List.replicate par.nmax false
      lock := List.replicate par.nmax false
      lossRead := List.replicate (par.nmax + 1) 0
      lossAdd := 0, rhr := false }
  mutex := .free
  edm :=
    { state := .parseStartByte, lenCnt := 0, len := 0, cnt := 0, buf := []
      heap := false, event := none }
  ubx :=
    { phase := .idle, acc := [], cap := 0, maxBody := 0
      expClass := some 0, expId := some 0, ack := false
      reqClass := 0, reqId := 0, t0 := 0, timeout := 0 }
  uart := { rx := [], tx := [] }
  link := { pump := .off, drainEn := false, drainCur := 0 }
  port := { result := none, out := [] }
  env :=
    { now := 0, heapOk := true, writeOk := true, words := [], input := [], agenda := [], tick := 0 }

/-- The machine after power-on reset: the build whose parameters are R6's defaults. -/
def State.reset : State := State.powerOn Config.Params.default

end Sys2Proof.Machine
end

