-- ==== Sys2Proof/Machine/Ops.lean ====
section
/-!
DEFINITION. The named operations over memory and registers that every family uses: byte spaces
(00_scope.md R8, 20_memory.md R60), the read-cursor registers and per-handle bits (10_state.md R22),
posting a result, and `raise` (60_exceptions.md R340), which stands where taking an exception stands
in a processor.
-/

namespace Sys2Proof.Machine

/-! ### Byte spaces -/

/-- The byte at an index; an index not listed reads as `Config.unlisted`. -/
def Memory.read : Memory → Nat → Byte
  | [], _ => Config.unlisted
  | (a, b) :: rest, i => if a = i then b else Memory.read rest i

/-- Writes one byte and keeps the canonical form: writing `Config.unlisted` removes the entry. -/
def Memory.write : Memory → Nat → Byte → Memory
  | [], i, v => if v = Config.unlisted then [] else [(i, v)]
  | (a, b) :: rest, i, v =>
    if i < a then (if v = Config.unlisted then (a, b) :: rest else (i, v) :: (a, b) :: rest)
    else if i = a then (if v = Config.unlisted then rest else (i, v) :: rest)
    else (a, b) :: Memory.write rest i v

/-- The canonical form, with every index at least `lo`. -/
def Memory.wfFrom : Nat → Memory → Bool
  | _, [] => true
  | lo, (a, b) :: rest => decide (lo ≤ a) && decide (b ≠ Config.unlisted) && Memory.wfFrom (a + 1) rest

/-- The canonical form: indices strictly rising, no entry equal to what an unlisted index reads as. -/
def Memory.wf (m : Memory) : Bool := Memory.wfFrom 0 m

/-- `MemRead(addr, n)`: the bytes at `(addr + i) mod size`, i = 0..n−1, lowest i first (R8). -/
def Memory.readRing (m : Memory) (size addr : Nat) : Nat → List Byte
  | 0 => []
  | n + 1 => m.read (addr % size) :: Memory.readRing m size (addr + 1) n

/-- `MemWrite(addr, |v|, v)`: `v[i]` to `(addr + i) mod size`, i ascending, a later i over an earlier one (R8). -/
def Memory.writeRing (m : Memory) (size addr : Nat) : List Byte → Memory
  | [] => m
  | v :: vs => Memory.writeRing (m.write (addr % size) v) size (addr + 1) vs

/-- The `n` bytes from index `off` up of a space that does not wrap (the frame buffer). -/
def Memory.slice (m : Memory) (off : Nat) : Nat → List Byte
  | 0 => []
  | n + 1 => m.read off :: Memory.slice m (off + 1) n

/-! ### Register tables -/

/-- A read-cursor register `x[k]` as a number (R22, R23). A slot that does not exist reads 0 (log entry 19). -/
def RB.cursor (rb : RB) (k : Nat) : Nat := (rb.x[k]?.getD 0).toNat

/-- `x[k] <- v`; the register keeps 16 bits. -/
def RB.setCursor (rb : RB) (k v : Nat) : RB := { rb with x := rb.x.set k (BitVec.ofNat 16 v) }

/-- `rb.taken[k]`; there is no bit for cursor 0. -/
def RB.takenBit (rb : RB) : Nat → Bool
  | 0 => false
  | k + 1 => rb.taken[k]?.getD false

/-- `rb.taken[k] <- b`. -/
def RB.setTaken (rb : RB) (b : Bool) : Nat → RB
  | 0 => rb
  | k + 1 => { rb with taken := rb.taken.set k b }

/-- `rb.lock[k]`; there is no bit for cursor 0. -/
def RB.lockBit (rb : RB) : Nat → Bool
  | 0 => false
  | k + 1 => rb.lock[k]?.getD false

/-- `rb.lock[k] <- b`. -/
def RB.setLock (rb : RB) (b : Bool) : Nat → RB
  | 0 => rb
  | k + 1 => { rb with lock := rb.lock.set k b }

/-- `rb.lossRead[k]`. -/
def RB.lossOf (rb : RB) (k : Nat) : Loss := rb.lossRead[k]?.getD 0

/-- `rb.lossRead[k] <- v`. -/
def RB.setLoss (rb : RB) (k : Nat) (v : Loss) : RB := { rb with lossRead := rb.lossRead.set k v }

/-- A loss counter after `d` more lost bytes: `(c + d) mod 2^LOSSW`, so it wraps and never saturates (00_scope.md R12 (c)). -/
def Loss.bump (c : Loss) (par : Config.Params) (d : Nat) : Loss := (c + d) % 2 ^ par.lossw

/-- A loss counter as a result word, unsigned (30_encoding.md R94). -/
def Loss.word (c : Loss) : Word := countWord c

/-! ### Posting, raising, the mutex -/

/-- Posts a result word and the bytes of data-out (00_scope.md R8, `result <- v`, `out <- s`). -/
def State.post (s : State) (r : Word) (out : List Byte) : State :=
  { s with port := { result := some r, out := out } }

/-- A step that posts nothing (log entry 7). -/
def State.silent (s : State) : State := { s with port := { result := none, out := [] } }

/-- `raise <Kind>()`: no state change, no data-out, the result word `ERR_<Kind>` (60_exceptions.md R340). -/
def State.raise (s : State) (e : Config.ErrKind) : State := s.post (errWord s.par e) []

/-- The mutex taken at the start of a ring-buffer operation (10_state.md R27). -/
def State.takeMutex (s : State) : State := { s with mutex := .held }

/-- The mutex freed at its end. -/
def State.freeMutex (s : State) : State := { s with mutex := .free }

/-- A ring-buffer operation under the buffer-wide mutex, held for its whole duration (20_memory.md R72). -/
def State.underMutex (s : State) (op : State → State) : State := (op s.takeMutex).freeMutex

/-- The ring buffer after an operation on it. -/
def State.setRb (s : State) (rb : RB) : State := { s with rb := rb }

/-- The EDM parser after an operation on it. -/
def State.setEdm (s : State) (edm : Edm) : State := { s with edm := edm }

/-- The ubx unit after an operation on it. -/
def State.setUbx (s : State) (ubx : Ubx) : State := { s with ubx := ubx }

/-- `uart.rx` after an operation on it. -/
def State.setRx (s : State) (rx : List Byte) : State := { s with uart := { s.uart with rx := rx } }

/-- `uart.tx` after an operation on it. -/
def State.setTx (s : State) (tx : List Byte) : State := { s with uart := { s.uart with tx := tx } }

end Sys2Proof.Machine
end

