-- ==== Sys2Proof/Machine/Flags.lean ====
section
/-!
DEFINITION. The single-bit predicates of RBX and what is computed from them. There are no condition
codes (10_state.md R24); the bits are created, rhr, taken and lock, and the derived functions of
00_scope.md R9 read them.
-/

namespace Sys2Proof.Machine

/-- `C = rb.size − 1`, the capacity (R9). -/
def RB.capacity (rb : RB) : Nat := rb.size.toNat - 1

/-- `(w − x) mod size`, in [0, size) (R9, R12 (b)). -/
def ringDistance (size w x : Nat) : Nat := (w + (size - x % size)) % size

/-- `unread(k) = (rb.w − x[k]) mod rb.size` (R9). -/
def RB.unread (rb : RB) (k : Nat) : Nat := ringDistance rb.size.toNat rb.w.toNat (rb.cursor k)

/-- `1 ≤ k ≤ rb.n and rb.taken[k] = 1`: handle k is acquired (R9). -/
def RB.held (rb : RB) (k : Nat) : Bool := decide (1 ≤ k) && decide (k ≤ rb.n.toNat) && rb.takenBit k

/-- `present(k)` (R9). -/
def RB.present (rb : RB) (k : Nat) : Bool := decide (k = 0) || rb.held k

/-- `eligible(k)` (R9): cursor 0 is excluded when `readHandleRequired` is set. -/
def RB.eligible (rb : RB) (k : Nat) : Bool := (decide (k = 0) && !rb.rhr) || rb.held k

/-- `locked(k)` (R9). -/
def RB.locked (rb : RB) (k : Nat) : Bool := rb.held k && rb.lockBit k

/-- `max({unread(k) : p(k), k ≤ m} ∪ {0})`. -/
def RB.maxUnread (rb : RB) (p : Nat → Bool) : Nat → Nat
  | 0 => if p 0 then rb.unread 0 else 0
  | k + 1 => max (if p (k + 1) then rb.unread (k + 1) else 0) (rb.maxUnread p k)

/-- `avail()` (R9): room behind the furthest-behind eligible cursor. -/
def RB.avail (rb : RB) : Nat := rb.capacity - rb.maxUnread rb.eligible rb.n.toNat

/-- `availmax()` (R9): room behind the furthest-behind locked cursor. -/
def RB.availmax (rb : RB) : Nat := rb.capacity - rb.maxUnread rb.locked rb.n.toNat

/-- `ready()`: the parser accepts bytes (42_edm_parser.md R206). -/
def Edm.ready (e : Edm) : Bool := decide (e.state ≠ .waitForEventProcessing)

end Sys2Proof.Machine
end

