-- ==== Sys2Proof/Machine/Operands.lean ====
section
/-!
DEFINITION. What a command's operands name: handles and cursors (40_rb_lifecycle.md R128,
41_rb_data.md R154), the wildcard class and id (45_ubx_engine.md R294), and the head of a frame.
-/

namespace Sys2Proof.Machine

/-- `validh(h)` (R128): the buffer is created and h is an acquired handle. -/
def RB.validh (rb : RB) (h : Nat) : Bool := rb.created && rb.held h

/-- `readable(h)` (R154): cursor 0 unless `readHandleRequired`, or an acquired handle. -/
def RB.readable (rb : RB) (h : Nat) : Bool :=
  rb.created && ((decide (h = 0) && !rb.rhr) || rb.validh h)

/-- The lowest free handle slot among 1..rb.n, `min(F)` of R124; `fuel` slots from `k` up are looked at. -/
def RB.freeSlotFrom (rb : RB) (k : Nat) : Nat → Option Nat
  | 0 => none
  | fuel + 1 => if rb.takenBit k then rb.freeSlotFrom (k + 1) fuel else some k

/-- `min(F)` for `F = { k : 1 ≤ k ≤ rb.n and rb.taken[k] = 0 }` (R124). -/
def RB.freeSlot (rb : RB) : Option Nat := rb.freeSlotFrom 1 rb.n.toNat

/-- `match(exp, actual)`: equal, or the expectation is the wildcard −1 (R294). -/
def expectMatches (exp : Option Byte) (actual : Byte) : Bool :=
  match exp with
  | none => true
  | some e => decide (e = actual)

/-- A 16-bit value, high byte first (20_memory.md R63). -/
def bigEndian (v : Half) : List Byte := [hiByte v, loByte v]

/-- A 16-bit value, low byte first (20_memory.md R63). -/
def littleEndian (v : Half) : List Byte := [loByte v, hiByte v]

end Sys2Proof.Machine
end

