-- ==== Sys2Proof/Machine/EdmEncode.lean ====
section
/-!
DEFINITION. EDM encode helpers (43_edm_encode.md): pure functions of their operands. The frame layout
is 30_encoding.md R97.
-/

namespace Sys2Proof.Machine

open Host

/-- Head marker, declared length and type header of a frame (R97). -/
def frameHead (len : Nat) (hdr : Half) : List Byte :=
  [Config.edmHead] ++ bigEndian (BitVec.ofNat 16 len) ++ bigEndian hdr

/-- The head bytes of a data frame for a payload of `n` bytes (R231, R232): L = n + 3. -/
def dataHead (par : Config.Params) (channel : Byte) (n : Nat) : List Byte := frameHead (n + 3) par.tDataCmd ++ [channel]

/-- A complete data frame (R231). -/
def dataFrame (par : Config.Params) (channel : Byte) (d : List Byte) : List Byte :=
  dataHead par channel d.length ++ d ++ [Config.edmTail]

/-- A complete AT frame (R234, R235): L = n + 2, no channel byte. -/
def atFrame (hdr : Half) (d : List Byte) : List Byte := frameHead (d.length + 2) hdr ++ d ++ [Config.edmTail]

/-- Posts a frame, or `ERR_INVALID_PARAMETER` when its declared length would exceed EDM_MAX_LEN. -/
def State.postFrame (s : State) (len : Nat) (bytes : List Byte) : State :=
  if len > s.par.edmMaxLen then s.raise .invalidParameter
  else s.post (countWord bytes.length) bytes

/-- EDM.ENCDATA (R231). -/
def execEdmEncdata (channel : Byte) (data : List Byte) (s : State) : Outcome State Fault Refusal :=
  .next (s.postFrame (data.length + 3) (dataFrame s.par channel data))

/-- EDM.ENCHEAD (R232). -/
def execEdmEnchead (channel : Byte) (length : Half) (s : State) : Outcome State Fault Refusal :=
  .next (s.postFrame (length.toNat + 3) (dataHead s.par channel length.toNat))

/-- EDM.ENCTAIL (R233). -/
def execEdmEnctail (s : State) : Outcome State Fault Refusal :=
  .next (s.post 1 [Config.edmTail])

/-- EDM.ENCATREQ (R234). -/
def execEdmEncatreq (data : List Byte) (s : State) : Outcome State Fault Refusal :=
  .next (s.postFrame (data.length + 2) (atFrame s.par.tAtReq data))

/-- EDM.ENCATRSP (R235). -/
def execEdmEncatrsp (data : List Byte) (s : State) : Outcome State Fault Refusal :=
  .next (s.postFrame (data.length + 2) (atFrame s.par.tAtRsp data))

end Sys2Proof.Machine
end

