-- ==== Sys2Proof/Machine/EdmParser.lean ====
section
/-!
DEFINITION. EDM parser: the byte-at-a-time state machine, dispatch, event serialisation and the
commands over them (42_edm_parser.md). The operations on `Edm` are shared with the DRAIN agent
(46_uart_link.md R319).
-/

namespace Sys2Proof.Machine

open Host

/-! ### Events (10_state.md R31, 42_edm_parser.md R209) -/

/-- Kind code of an event, 0 for null (10_state.md R31). -/
def kindCode : Option Event → Word
  | none => 0
  | some (.connectBT ..) => 1
  | some (.connectIPv4 ..) => 2
  | some (.connectIPv6 ..) => 3
  | some (.disconnect _) => 4
  | some (.data ..) => 5
  | some (.atText ..) => 6
  | some (.startup _) => 7

/-- `ser(ev)` (R209). -/
def ser : Option Event → List Byte
  | none => []
  | some (.connectBT ch profile address framesize) => [ch, profile] ++ address.toList ++ bigEndian framesize
  | some (.connectIPv4 ch protocol ra rp la lp) =>
    [ch, protocol] ++ ra.toList ++ bigEndian rp ++ la.toList ++ bigEndian lp
  | some (.connectIPv6 ch protocol ra rp la lp) =>
    [ch, protocol] ++ ra.toList ++ bigEndian rp ++ la.toList ++ bigEndian lp
  | some (.disconnect ch) => [ch]
  | some (.data ch off length) => [ch] ++ bigEndian off ++ bigEndian length
  | some (.atText ch off length) => [ch] ++ bigEndian off ++ bigEndian length
  | some (.startup ch) => [ch]

/-! ### Dispatch (R196 to R204)

`p i` is byte i of the sub-payload, `plen` its length P. -/

/-- `k` bytes of the sub-payload from offset `o`. -/
def field (p : Nat → Byte) (o k : Nat) : Vector Byte k := Vector.ofFn fun i => p (o + i.val)

/-- A 16-bit big-endian field of the sub-payload at offset `o`. -/
def field16 (p : Nat → Byte) (o : Nat) : Half := halfOf (p o) (p (o + 1))

/-- Connect-BT (R197). -/
def connectBT (par : Config.Params) (plen : Nat) (p : Nat → Byte) : Option Event :=
  if plen = par.pBt then some (.connectBT (p 0) (p 2) (field p 3 6) (field16 p 9)) else none

/-- Connect-IPv4 (R198). -/
def connectIPv4 (par : Config.Params) (plen : Nat) (p : Nat → Byte) : Option Event :=
  if plen = par.pIpv4 then
    some (.connectIPv4 (p 0) (p 2) (field p 3 4) (field16 p 7) (field p 9 4) (field16 p 13))
  else none

/-- Connect-IPv6 (R199). -/
def connectIPv6 (par : Config.Params) (plen : Nat) (p : Nat → Byte) : Option Event :=
  if plen = par.pIpv6 then
    some (.connectIPv6 (p 0) (p 2) (field p 3 16) (field16 p 19) (field p 21 16) (field16 p 37))
  else none

/-- A connect event, by its connection-type byte (R196). -/
def dispatchConnect (par : Config.Params) (plen : Nat) (p : Nat → Byte) : Option Event :=
  if plen < 2 then none
  else if p 1 = par.ctBt then connectBT par plen p
  else if p 1 = par.ctIpv4 then connectIPv4 par plen p
  else if p 1 = par.ctIpv6 then connectIPv6 par plen p
  else none

/-- Disconnect (R200). -/
def dispatchDisconnect (plen : Nat) (p : Nat → Byte) : Option Event :=
  if plen = 1 then some (.disconnect (p 0)) else none

/-- Data (R201): the slice starts at index 3 of the frame buffer. -/
def dispatchData (plen : Nat) (p : Nat → Byte) : Option Event :=
  if plen > 1 then some (.data (p 0) 3 (BitVec.ofNat 16 (plen - 1))) else none

/-- AT (R202): the whole sub-payload, of any length. -/
def dispatchAt (plen : Nat) : Option Event := some (.atText 0 2 (BitVec.ofNat 16 plen))

/-- Startup (R203). -/
def dispatchStartup (plen : Nat) : Option Event := if plen = 0 then some (.startup 0) else none

/-- `dispatch(hdr, P, p)` (R196, R204). -/
def dispatch (par : Config.Params) (hdr : Half) (plen : Nat) (p : Nat → Byte) : Option Event :=
  if hdr = par.tConnect then dispatchConnect par plen p
  else if hdr = par.tDisconnect then dispatchDisconnect plen p
  else if hdr = par.tDataEvt ∨ hdr = par.tDataCmd then dispatchData plen p
  else if hdr = par.tAtEvt ∨ hdr = par.tAtRsp then dispatchAt plen
  else if hdr = par.tStart then dispatchStartup plen
  else none

/-! ### The state machine (R190 to R195, R205) -/

/-- `heap_answer()` (R193): the parameter EDM_HEAP, or the environment's draw. -/
def heapAnswer (par : Config.Params) (drawn : Bool) : Bool :=
  match par.edmHeap with
  | .always => true
  | .never => false
  | .draw => drawn

/-- The declared length is complete (R193). -/
def Edm.lengthComplete (e : Edm) (par : Config.Params) (drawn : Bool) : Edm :=
  if e.len.toNat < Config.edmMinLen then { e with state := .parseStartByte }
  else if e.len.toNat > par.edmMaxLen then { e with state := .parseStartByte }
  else if e.len.toNat > Config.edmStack then
    if heapAnswer par drawn then { e with heap := true, cnt := 0, state := .accumulatePayload }
    else { e with state := .parseStartByte }
  else { e with heap := false, cnt := 0, state := .accumulatePayload }

/-- State 0 (R191). -/
def Edm.onStart (e : Edm) (b : Byte) : Edm :=
  if b = Config.edmHead then { e with lenCnt := 0, state := .parsePayloadLength } else e

/-- State 1 (R192): high byte first. -/
def Edm.onLength (e : Edm) (par : Config.Params) (b : Byte) (drawn : Bool) : Edm :=
  if e.lenCnt = 0 then { e with len := halfOf b 0, lenCnt := 1 }
  else Edm.lengthComplete { e with len := e.len ||| halfOf 0 b } par drawn

/-- State 2 (R194). -/
def Edm.onPayload (e : Edm) (b : Byte) : Edm :=
  { e with
    buf := e.buf.write e.cnt.toNat b
    cnt := e.cnt + 1
    state := if e.cnt + 1 = e.len then .parseTailByte else e.state }

/-- The event of the frame in the buffer, if its header and length give one (R195). -/
def Edm.frameEvent (e : Edm) (par : Config.Params) : Option Event :=
  dispatch par (halfOf (e.buf.read 0) (e.buf.read 1)) (e.len.toNat - 2) fun i => e.buf.read (i + 2)

/-- `abort()` (R195): frees the heap buffer and returns to state 0. -/
def Edm.abort (e : Edm) : Edm := { e with heap := false, state := .parseStartByte }

/-- State 3 (R195), and the event it produces. -/
def Edm.onTail (e : Edm) (par : Config.Params) (b : Byte) : Edm × Option Event :=
  if b ≠ Config.edmTail then (e.abort, none)
  else
    match e.frameEvent par with
    | none => (e.abort, none)
    | some ev => ({ e with event := some ev, state := .waitForEventProcessing }, some ev)

/-- The effect of EDM.PARSE on the parser, and the event it returns (R190). -/
def Edm.parse (e : Edm) (par : Config.Params) (b : Byte) (drawn : Bool) : Edm × Option Event :=
  match e.state with
  | .parseStartByte => (e.onStart b, none)
  | .parsePayloadLength => (e.onLength par b drawn, none)
  | .accumulatePayload => (e.onPayload b, none)
  | .parseTailByte => e.onTail par b
  | .waitForEventProcessing => (e, none)

/-- EDM.PARSE (R190). -/
def execEdmParse (byte : Byte) (s : State) : Outcome State Fault Refusal :=
  let r := s.edm.parse s.par byte s.env.heapOk
  .next ((s.setEdm r.1).post (kindCode r.2) (ser r.2))

/-- EDM.READY (R206). -/
def execEdmReady (s : State) : Outcome State Fault Refusal :=
  .next (s.post (boolWord s.edm.ready) [])

/-- The parser after `reset()` (R207): the frame buffer's bytes stay but are no longer reachable. -/
def Edm.reset (e : Edm) : Edm :=
  { e with heap := false, event := none, len := 0, cnt := 0, lenCnt := 0, state := .parseStartByte }

/-- EDM.RESET (R207). -/
def execEdmReset (s : State) : Outcome State Fault Refusal :=
  .next ((s.setEdm s.edm.reset).post 0 [])

/-- The event a command may look at: the latched one, in state 4 only (R208, R212). -/
def Edm.latched (e : Edm) : Option Event :=
  if e.state = .waitForEventProcessing then e.event else none

/-- At most `m` bytes of the latched event's payload slice; only Data and AT have one (R208). -/
def Edm.eventData (e : Edm) (m : Nat) : List Byte :=
  match e.latched with
  | some (.data _ off length) => e.buf.slice off.toNat (min m length.toNat)
  | some (.atText _ off length) => e.buf.slice off.toNat (min m length.toNat)
  | _ => []

/-- EDM.EVDATA (R208). -/
def execEdmEvdata (max : Half) (s : State) : Outcome State Fault Refusal :=
  let d := s.edm.eventData max.toNat
  .next (s.post (countWord d.length) d)

/-- EDM.EVENT (R212). -/
def execEdmEvent (s : State) : Outcome State Fault Refusal :=
  .next (s.post (kindCode s.edm.latched) (ser s.edm.latched))

end Sys2Proof.Machine
end

