-- ==== Sys2Proof/Machine/RbData.lean ====
section
/-!
DEFINITION. Ring buffer: add, forced add, read, peek, free space, loss counters (41_rb_data.md). The
operations on `RB` are shared with the PUMP and DRAIN agents (46_uart_link.md R317, R319).
-/

namespace Sys2Proof.Machine

open Host

/-- `max(0, unread(k) + len − C)`: what cursor k must lose before `len` bytes are written (R152). -/
def RB.mustLose (rb : RB) (len k : Nat) : Nat := rb.unread k + len - rb.capacity

/-- Whether `reclaim(len)` moves cursor k: present, not locked, and in the way (R152). -/
def RB.reclaims (rb : RB) (len k : Nat) : Bool :=
  decide (k ≤ rb.n.toNat) && rb.present k && !rb.locked k && decide (0 < rb.mustLose len k)

/-- `reclaim(len)` (R152): every cursor in the way is advanced past its oldest bytes and its loss counted,
all from the old write cursor and the old read cursors. -/
def RB.reclaim (rb : RB) (par : Config.Params) (len : Nat) : RB :=
  { rb with
    x := rb.x.mapIdx fun k v =>
      if rb.reclaims len k then BitVec.ofNat 16 ((rb.cursor k + rb.mustLose len k) % rb.size.toNat) else v
    lossRead := rb.lossRead.mapIdx fun k c =>
      if rb.reclaims len k then c.bump par (rb.mustLose len k) else c }

/-- `put(d)` (R153). -/
def RB.put (rb : RB) (d : List Byte) : RB :=
  { rb with
    mem := rb.mem.writeRing rb.size.toNat rb.w.toNat d
    w := BitVec.ofNat 16 ((rb.w.toNat + d.length) % rb.size.toNat) }

/-- A refused add of `n` bytes (R150, R151): counted, nothing else. -/
def RB.refuseAdd (rb : RB) (par : Config.Params) (n : Nat) : RB := { rb with lossAdd := rb.lossAdd.bump par n }

/-- The effect of RB.ADD and whether it succeeded (R150). -/
def RB.add (rb : RB) (par : Config.Params) (d : List Byte) : RB × Bool :=
  if rb.created then
    if d.length > rb.avail then (rb.refuseAdd par d.length, false)
    else ((rb.reclaim par d.length).put d, true)
  else (rb, false)

/-- `exists k ≤ m with locked(k) and unread(k) + n > C` (R151). -/
def RB.lockBlocks (rb : RB) (n : Nat) : Nat → Bool
  | 0 => false
  | k + 1 => (rb.locked (k + 1) && decide (rb.unread (k + 1) + n > rb.capacity)) || rb.lockBlocks n k

/-- The effect of RB.FADD and whether it succeeded (R151). -/
def RB.forceAdd (rb : RB) (par : Config.Params) (d : List Byte) : RB × Bool :=
  if rb.created then
    if rb.lockBlocks d.length rb.n.toNat then (rb.refuseAdd par d.length, false)
    else ((rb.reclaim par d.length).put d, true)
  else (rb, false)

/-- The bytes a peek through cursor h copies: at most n, none if the cursor is not readable (R158). -/
def RB.peek (rb : RB) (h n : Nat) : List Byte :=
  if rb.readable h then rb.mem.readRing rb.size.toNat (rb.cursor h) (min n (rb.unread h)) else []

/-- The effect of a read through cursor h: the same bytes, and the cursor past them (R157). -/
def RB.read (rb : RB) (h n : Nat) : RB × List Byte :=
  if rb.readable h then
    (rb.setCursor h ((rb.cursor h + min n (rb.unread h)) % rb.size.toNat), rb.peek h n)
  else (rb, [])

/-- RB.ADD (R150). -/
def execRbAdd (data : List Byte) (s : State) : Outcome State Fault Refusal :=
  .next <| s.underMutex fun s =>
    let r := s.rb.add s.par data
    (s.setRb r.1).post (boolWord r.2) []

/-- RB.FADD (R151). -/
def execRbFadd (data : List Byte) (s : State) : Outcome State Fault Refusal :=
  .next <| s.underMutex fun s =>
    let r := s.rb.forceAdd s.par data
    (s.setRb r.1).post (boolWord r.2) []

/-- A read through cursor h and its answer (R157). -/
def State.readCursor (s : State) (h n : Nat) : State :=
  let r := s.rb.read h n
  (s.setRb r.1).post (countWord r.2.length) r.2

/-- A peek through cursor h and its answer (R158). -/
def State.peekCursor (s : State) (h n : Nat) : State :=
  let d := s.rb.peek h n
  s.post (countWord d.length) d

/-- RB.READ (R155): exactly RB.READH with h = 0. -/
def execRbRead (length : Half) (s : State) : Outcome State Fault Refusal :=
  .next <| s.underMutex fun s => s.readCursor 0 length.toNat

/-- RB.PEEK (R156): exactly RB.PEEKH with h = 0. -/
def execRbPeek (length : Half) (s : State) : Outcome State Fault Refusal :=
  .next <| s.underMutex fun s => s.peekCursor 0 length.toNat

/-- RB.READH (R157). -/
def execRbReadh (cursor : Byte) (length : Half) (s : State) : Outcome State Fault Refusal :=
  .next <| s.underMutex fun s => s.readCursor cursor.toNat length.toNat

/-- RB.PEEKH (R158). -/
def execRbPeekh (cursor : Byte) (length : Half) (s : State) : Outcome State Fault Refusal :=
  .next <| s.underMutex fun s => s.peekCursor cursor.toNat length.toNat

/-- RB.AVAIL (R159). -/
def execRbAvail (s : State) : Outcome State Fault Refusal :=
  .next <| s.underMutex fun s =>
    s.post (if s.rb.created then countWord s.rb.avail else 0) []

/-- RB.AVAILMAX (R160). -/
def execRbAvailmax (s : State) : Outcome State Fault Refusal :=
  .next <| s.underMutex fun s =>
    s.post (if s.rb.created then countWord s.rb.availmax else 0) []

/-- RB.STATADD (R161). -/
def execRbStatadd (s : State) : Outcome State Fault Refusal :=
  .next <| s.underMutex fun s =>
    s.post (if s.rb.created then s.rb.lossAdd.word else 0) []

/-- RB.STATREAD (R162): readable for cursor 0 even when `rb.rhr` is set. -/
def execRbStatread (cursor : Byte) (s : State) : Outcome State Fault Refusal :=
  .next <| s.underMutex fun s =>
    s.post (if s.rb.created && (decide (cursor.toNat = 0) || s.rb.validh cursor.toNat)
      then (s.rb.lossOf cursor.toNat).word else 0) []

end Sys2Proof.Machine
end

