-- ==== Sys2Proof/Machine/RbLifecycle.lean ====
section
/-!
DEFINITION. Ring buffer: creation, destruction, handles, locks (40_rb_lifecycle.md). Every command is
one atomic step under the mutex (20_memory.md R72).
-/

namespace Sys2Proof.Machine

open Host

/-- The assignments of R120, with `maxHandles` slots (R121). `rb.mem` and the handles' cursors are not written. -/
def RB.create (rb : RB) (par : Config.Params) (size : Half) (maxHandles : Byte) : RB :=
  { rb with
    created := true, size := size, n := maxHandles, w := 0
    x := rb.x.set 0 0
    taken := List.replicate par.nmax false
    lock := List.replicate par.nmax false
    lossRead := List.replicate (par.nmax + 1) 0
    lossAdd := 0, rhr := false }

/-- The size check of R120 and R121. -/
def sizeRefused (par : Config.Params) (size : Half) : Bool := decide (size.toNat = 0) || decide (size.toNat > par.sizeMax)

/-- RB.CREATE (R120). -/
def execRbCreate (size : Half) (s : State) : Outcome State Fault Refusal :=
  .next <| s.underMutex fun s =>
    if sizeRefused s.par size then s.raise .invalidParameter
    else (s.setRb (s.rb.create s.par size 0)).post 0 []

/-- RB.CREATEH (R121): the size is checked first. -/
def execRbCreateh (maxHandles : Byte) (size : Half) (s : State) : Outcome State Fault Refusal :=
  .next <| s.underMutex fun s =>
    if sizeRefused s.par size then s.raise .invalidParameter
    else if maxHandles.toNat > s.par.nmax then s.raise .noMemory
    else (s.setRb (s.rb.create s.par size maxHandles)).post 0 []

/-- RB.DESTROY (R122). -/
def execRbDestroy (s : State) : Outcome State Fault Refusal :=
  .next <| s.underMutex fun s => (s.setRb { s.rb with created := false }).post 0 []

/-- RB.SETRHR (R123). -/
def execRbSetrhr (on : Bool) (s : State) : Outcome State Fault Refusal :=
  .next <| s.underMutex fun s =>
    if s.rb.created then (s.setRb { s.rb with rhr := on }).post 0 []
    else s.raise .notInitialised

/-- Acquiring slot k (R124): taken, unlocked, at the write position, loss counter 0. -/
def RB.takeSlot (rb : RB) (k : Nat) : RB :=
  (((rb.setTaken true k).setLock false k).setCursor k rb.w.toNat).setLoss k 0

/-- RB.TAKE (R124). -/
def execRbTake (s : State) : Outcome State Fault Refusal :=
  .next <| s.underMutex fun s =>
    if s.rb.created then
      match s.rb.freeSlot with
      | some k => (s.setRb (s.rb.takeSlot k)).post (countWord k) []
      | none => s.raise .noMemory
    else s.raise .notInitialised

/-- Releasing handle h (R125): neither taken nor locked. -/
def RB.giveSlot (rb : RB) (h : Nat) : RB := (rb.setTaken false h).setLock false h

/-- RB.GIVE (R125). -/
def execRbGive (handle : Byte) (s : State) : Outcome State Fault Refusal :=
  .next <| s.underMutex fun s =>
    if s.rb.validh handle.toNat then (s.setRb (s.rb.giveSlot handle.toNat)).post 0 []
    else s.post 0 []

/-- RB.LOCK (R126). -/
def execRbLock (handle : Byte) (s : State) : Outcome State Fault Refusal :=
  .next <| s.underMutex fun s =>
    if s.rb.validh handle.toNat then
      (s.setRb (s.rb.setLock true handle.toNat)).post (countWord (s.rb.unread handle.toNat)) []
    else s.post 0 []

/-- RB.UNLOCK (R127). -/
def execRbUnlock (handle : Byte) (s : State) : Outcome State Fault Refusal :=
  .next <| s.underMutex fun s =>
    if s.rb.validh handle.toNat then (s.setRb (s.rb.setLock false handle.toNat)).post 0 []
    else s.post 0 []

end Sys2Proof.Machine
end

