-- ==== Sys2Proof/Machine/UartLink.lean ====
section
/-!
DEFINITION. The UART byte transport and the LINK unit (46_uart_link.md): their commands, and the LINE,
PUMP and DRAIN agents.
-/

namespace Sys2Proof.Machine

open Host

/-- UART.WRITE (R311): all or nothing, as the environment's draw answers. -/
def execUartWrite (data : List Byte) (s : State) : Outcome State Fault Refusal :=
  .next (if s.env.writeOk then (s.setTx (s.uart.tx ++ data)).post (countWord data.length) []
    else s.raise .transportError)

/-- UART.AVAIL (R312). -/
def execUartAvail (s : State) : Outcome State Fault Refusal :=
  .next (s.post (countWord (min s.uart.rx.length (2 ^ 31 - 1))) [])

/-- UART.READ (R313). -/
def execUartRead (maxLen : Half) (s : State) : Outcome State Fault Refusal :=
  let m := min maxLen.toNat s.uart.rx.length
  .next ((s.setRx (s.uart.rx.drop m)).post (countWord m) (s.uart.rx.take m))

/-- LINK.PUMP (R316). -/
def execLinkPump (mode : PumpMode) (s : State) : Outcome State Fault Refusal :=
  .next (State.post { s with link := { s.link with pump := mode } } 0 [])

/-- LINK.DRAIN (R318). -/
def execLinkDrain (cursor : Byte) (enable : Bool) (s : State) : Outcome State Fault Refusal :=
  .next (if cursor.toNat > s.par.nmax then s.raise .invalidParameter
    else State.post { s with link := { s.link with drainCur := cursor, drainEn := enable } } 0 [])

/-! ### Agents -/

/-- A LINE step (R314): sent bytes leave the front of `uart.tx`, received bytes join the back of `uart.rx`. -/
def State.lineStep (s : State) (received : List Byte) (sent : Nat) : State :=
  ((s.setRx (s.uart.rx ++ received)).setTx (s.uart.tx.drop sent)).silent

/-- The effect of the add the PUMP's mode names, on one byte (R317). -/
def RB.pumpAdd (rb : RB) (par : Config.Params) (mode : PumpMode) (b : Byte) : RB :=
  match mode with
  | .off => rb
  | .add => (rb.add par [b]).1
  | .forceAdd => (rb.forceAdd par [b]).1

/-- The PUMP can take a step (R317). -/
def State.pumpEnabled (s : State) : Bool :=
  decide (s.link.pump ≠ .off) && s.rb.created && decide (s.uart.rx ≠ [])

/-- A PUMP step (R317): one byte, whose loss only the ring buffer counts; nothing when it is not enabled (log entry 11). -/
def State.pumpStep (s : State) : State :=
  if s.pumpEnabled then
    match s.uart.rx with
    | [] => s.silent
    | b :: rest => (s.underMutex fun s => (s.setRx rest).setRb (s.rb.pumpAdd s.par s.link.pump b)).silent
  else s.silent

/-- The DRAIN can take a step (R319). -/
def State.drainEnabled (s : State) : Bool :=
  s.link.drainEn && s.rb.created && s.edm.ready && s.rb.readable s.link.drainCur.toNat
    && decide (s.rb.unread s.link.drainCur.toNat > 0)

/-- A DRAIN step (R319): one byte read through the cursor and parsed, the event reported to no one;
nothing when it is not enabled (log entry 11). -/
def State.drainStep (s : State) : State :=
  if s.drainEnabled then
    let r := s.rb.read s.link.drainCur.toNat 1
    let t := s.underMutex fun s => s.setRb r.1
    match r.2 with
    | [] => t.silent
    | b :: _ => (t.setEdm (t.edm.parse t.par b t.env.heapOk).1).silent
  else s.silent

end Sys2Proof.Machine
end

