-- ==== Sys2Proof/Machine/UbxCodec.lean ====
section
/-!
DEFINITION. The ubx codec (44_ubx_codec.md): checksum, frame encoder, and the one-pass decoder with its
three outcomes. Shared with the ubx engine (45_ubx_engine.md). The frame layout is 30_encoding.md R98.
-/

namespace Sys2Proof.Machine

open Host

/-- The running checksum (CK_A, CK_B), each modulo 256 (R251). -/
structure Cksum where
  a : Byte
  b : Byte
deriving DecidableEq, Repr

/-- `upd(b)` (R251, R253). -/
def Cksum.upd (c : Cksum) (v : Byte) : Cksum := ⟨c.a + v, c.b + (c.a + v)⟩

/-- The checksum carried over a byte sequence from a start value. -/
def Cksum.over (c : Cksum) : List Byte → Cksum
  | [] => c
  | v :: vs => Cksum.over (c.upd v) vs

/-- `ck(s)` (R251). -/
def ck (s : List Byte) : Cksum := Cksum.over ⟨0, 0⟩ s

/-- Class, id, length and body: the bytes the checksum covers (R252). -/
def ubxCovered (cls id : Byte) (body : List Byte) : List Byte :=
  [cls, id] ++ littleEndian (BitVec.ofNat 16 body.length) ++ body

/-- The frame of UBX.ENCODE (R252). -/
def ubxFrame (par : Config.Params) (cls id : Byte) (body : List Byte) : List Byte :=
  let s := ubxCovered cls id body
  [par.ubxSync1, par.ubxSync2] ++ s ++ [(ck s).a, (ck s).b]

/-- UBX.ENCODE (R252). -/
def execUbxEncode (cls id : Byte) (body : List Byte) (s : State) : Outcome State Fault Refusal :=
  .next (s.post (countWord (body.length + s.par.ubxOverhead)) (ubxFrame s.par cls id body))

/-- The abstract result of `decode(buf)` (R253). -/
inductive UbxDecoded where
  /-- The first complete, checksum-correct frame; `next` is the index of the first byte after it. -/
  | found (cls id : Byte) (body : List Byte) (next : Nat)
  /-- A frame started at index `start` and is incomplete. -/
  | partialFrame (start : Nat)
  | notFound
deriving DecidableEq, Repr

/-- What the pass expects next: `st` = 0 to 8 of R253, in this order. -/
inductive ScanState where
  | sync1
  | sync2
  | cls
  | id
  | lenLo
  | lenHi
  | body
  | ckA
  | ckB
deriving DecidableEq, Repr

/-- The variables of the pass (R253). -/
structure Scan where
  st : ScanState
  start : Nat
  cls : Byte
  id : Byte
  /-- `B`, the body length. -/
  len : Half
  cnt : Nat
  body : List Byte
  ck : Cksum
deriving DecidableEq, Repr

/-- The pass before its first byte; variables that a later state writes before they are read start at 0. -/
def Scan.init : Scan :=
  { st := .sync1, start := 0, cls := 0, id := 0, len := 0, cnt := 0, body := [], ck := ⟨0, 0⟩ }

/-- One byte `b` at index `x` (R253); `none` when `b` completes a checksum-correct frame. -/
def Scan.step (c : Scan) (par : Config.Params) (x : Nat) (b : Byte) : Option Scan :=
  match c.st with
  | .sync1 => some (if b = par.ubxSync1 then { c with st := .sync2, start := x } else c)
  | .sync2 => some (if b = par.ubxSync2 then { c with st := .cls }
      else if b = par.ubxSync1 then { c with start := x }
      else { c with st := .sync1 })
  | .cls => some { c with cls := b, ck := ⟨b, b⟩, st := .id }
  | .id => some { c with id := b, ck := c.ck.upd b, st := .lenLo }
  | .lenLo => some { c with len := halfOf 0 b, ck := c.ck.upd b, st := .lenHi }
  | .lenHi =>
    let len := c.len ||| halfOf b 0
    some { c with
      len := len, ck := c.ck.upd b, cnt := 0, body := []
      st := if len.toNat > 0 then .body else .ckA }
  | .body => some { c with
      body := c.body ++ [b], ck := c.ck.upd b, cnt := c.cnt + 1
      st := if c.cnt + 1 = c.len.toNat then .ckA else .body }
  | .ckA => some (if b = c.ck.a then { c with st := .ckB } else { c with st := .sync1 })
  | .ckB => if b = c.ck.b then none else some { c with st := .sync1 }

/-- The pass over the bytes from index `x` on (R253). -/
def Scan.run (c : Scan) (par : Config.Params) (x : Nat) : List Byte → UbxDecoded
  | [] => if c.st = .sync1 then .notFound else .partialFrame c.start
  | b :: bs =>
    match c.step par x b with
    | none => .found c.cls c.id c.body (x + 1)
    | some c' => Scan.run c' par (x + 1) bs

/-- `decode(buf)` (R253). -/
def ubxDecode (par : Config.Params) (buf : List Byte) : UbxDecoded := Scan.run Scan.init par 0 buf

/-- `decode(buf)` presented at the ports (R254). -/
def State.postDecoded (s : State) : UbxDecoded → State
  | .found cls id body next =>
    s.post (countWord body.length) ([cls, id] ++ littleEndian (BitVec.ofNat 16 next) ++ body)
  | .partialFrame start => s.post (errWord s.par .timeout) (littleEndian (BitVec.ofNat 16 start))
  | .notFound => s.post (errWord s.par .notFound) []

/-- UBX.DECODE (R253, R254). -/
def execUbxDecode (buf : List Byte) (s : State) : Outcome State Fault Refusal :=
  .next (s.postDecoded (ubxDecode s.par buf))

end Sys2Proof.Machine
end

