-- ==== Sys2Proof/Machine/UbxEngine.lean ====
section
/-!
DEFINITION. The ubx message engine (45_ubx_engine.md): the two command steps, which send the request
and arm the ENGINE, and the ENGINE agent's step.
-/

namespace Sys2Proof.Machine

open Host

/-- What a call gives the ubx unit once its request is sent (R280): the fields of 10_state.md R36. -/
def Ubx.arm (par : Config.Params) (cls id : Byte) (expClass expId : Option Byte) (ack : Bool) (maxBody : Half)
    (timeout now : Word) : Ubx :=
  { phase := .poll, acc := []
    cap := BitVec.ofNat 18 (2 * (maxBody.toNat + par.ubxOverhead))
    maxBody := maxBody, expClass := expClass, expId := expId, ack := ack
    reqClass := cls, reqId := id, t0 := now, timeout := timeout }

/-- The command step of a call (R280, R297): refused while a call is in progress, failed when the
transport does not take the frame, otherwise sent and armed with no result posted. -/
def State.startCall (s : State) (frame : List Byte) (ubx : Ubx) : State :=
  if s.ubx.phase = .poll then s.raise .notSupported
  else if s.env.writeOk then ((s.setTx (s.uart.tx ++ frame)).setUbx ubx).silent
  else s.raise .transportError

/-- UBX.SENDRECV (R280). -/
def execUbxSendrecv (cls id : Byte) (expClass expId : Option Byte) (maxBody : Half) (timeout : Word)
    (body : List Byte) (s : State) : Outcome State Fault Refusal :=
  .next (s.startCall (ubxFrame s.par cls id body) (Ubx.arm s.par cls id expClass expId false maxBody timeout s.env.now))

/-- UBX.SENDONLY (R281): an Ack or Nack of any id, body of at most two bytes. -/
def execUbxSendonly (cls id : Byte) (timeout : Word) (body : List Byte) (s : State) : Outcome State Fault Refusal :=
  .next (s.startCall (ubxFrame s.par cls id body)
    (Ubx.arm s.par cls id (some Config.ubxClassAck) none true 2 timeout s.env.now))

/-! ### The ENGINE agent (R290 to R296) -/

/-- `ubx.maxBody + UBX_OVERHEAD`: how many bytes a Partial outcome keeps (R290, R293). -/
def Ubx.keep (u : Ubx) (par : Config.Params) : Nat := u.maxBody.toNat + par.ubxOverhead

/-- The deadline test, before anything is read: `(clk.now − ubx.t0) mod 2^32 ≥ ubx.timeout` (R291). -/
def Ubx.expired (u : Ubx) (now : Word) : Bool := decide (u.timeout.toNat ≤ (now - u.t0).toNat)

/-- How many bytes one step reads (R293). -/
def Ubx.room (u : Ubx) (rx : List Byte) : Nat := min rx.length (u.cap.toNat - u.acc.length)

/-- A frame is the response when its class and its id both match (R294). -/
def Ubx.accepts (u : Ubx) (cls id : Byte) : Bool := expectMatches u.expClass cls && expectMatches u.expId id

/-- How the scan of the accumulated bytes ends in one step. -/
inductive ScanEnd where
  /-- A matching frame. -/
  | matched (cls id : Byte) (body : List Byte)
  /-- No matching frame; these bytes stay accumulated. -/
  | more (acc : List Byte)
deriving DecidableEq, Repr

/-- The last `k` bytes of a sequence, all of it if it is no longer (R290). -/
def lastBytes (k : Nat) (s : List Byte) : List Byte := s.drop (s.length - k)

/-- The loop of R290 over the accumulated bytes. `fuel` bounds the number of frames skipped; a frame is
at least 8 bytes, so the length of `acc` is never used up (log entry 21). -/
def Ubx.scan (u : Ubx) (par : Config.Params) : Nat → List Byte → ScanEnd
  | 0, acc => .more acc
  | fuel + 1, acc =>
    match ubxDecode par acc with
    | .found cls id body next => if u.accepts cls id then .matched cls id body else Ubx.scan u par fuel (acc.drop next)
    | .partialFrame _ => .more (lastBytes (u.keep par) acc)
    | .notFound => .more []

/-- The unit once its call is finished (R290 `finish`, R295, R296). -/
def Ubx.finish (u : Ubx) : Ubx := { u with phase := .idle, acc := [] }

/-- The Ack of the request that was sent (R296). -/
def Ubx.isAck (u : Ubx) (id : Byte) (body : List Byte) : Bool :=
  decide (id = Config.ubxIdAck) && decide (body = [u.reqClass, u.reqId])

/-- The answer of a call on its matching frame (R295, R296). -/
def State.complete (s : State) (cls id : Byte) (body : List Byte) : State :=
  let t := s.setUbx s.ubx.finish
  if s.ubx.ack then
    if s.ubx.isAck id body then t.post 0 [] else t.post (errWord s.par .deviceError) []
  else
    let r := body.take s.ubx.maxBody.toNat
    t.post (countWord r.length) ([cls, id] ++ r)

/-- The bytes one step moves from the UART into the accumulation buffer (R293). -/
def State.readUart (s : State) : State :=
  let k := s.ubx.room s.uart.rx
  (s.setRx (s.uart.rx.drop k)).setUbx { s.ubx with acc := s.ubx.acc ++ s.uart.rx.take k }

/-- One ENGINE step (R290); a turn given to the ENGINE while no call is in progress does nothing (log entry 11). -/
def State.engineStep (s : State) : State :=
  if s.ubx.phase = .idle then s.silent
  else if s.ubx.expired s.env.now then (s.setUbx s.ubx.finish).post (errWord s.par .timeout) []
  else if s.uart.rx = [] then s.silent
  else
    let t := s.readUart
    match t.ubx.scan s.par (t.ubx.acc.length + 1) t.ubx.acc with
    | .matched cls id body => t.complete cls id body
    | .more acc => (t.setUbx { t.ubx with acc := acc }).silent

end Sys2Proof.Machine
end

