-- ==== Sys2Proof/Machine/Dispatch.lean ====
section
/-! DEFINITION. The meaning of every command: one arm per constructor of `Instr`. -/

namespace Sys2Proof.Machine

open Host

def exec (i : Instr) (s : State) : Host.Outcome State Fault Refusal :=
  match i with
  | .rbCreate size => Sys2Proof.Machine.execRbCreate size s
  | .rbCreateh maxHandles size => Sys2Proof.Machine.execRbCreateh maxHandles size s
  | .rbDestroy => Sys2Proof.Machine.execRbDestroy s
  | .rbSetrhr on => Sys2Proof.Machine.execRbSetrhr on s
  | .rbTake => Sys2Proof.Machine.execRbTake s
  | .rbGive handle => Sys2Proof.Machine.execRbGive handle s
  | .rbLock handle => Sys2Proof.Machine.execRbLock handle s
  | .rbUnlock handle => Sys2Proof.Machine.execRbUnlock handle s
  | .rbAdd data => Sys2Proof.Machine.execRbAdd data s
  | .rbFadd data => Sys2Proof.Machine.execRbFadd data s
  | .rbRead length => Sys2Proof.Machine.execRbRead length s
  | .rbPeek length => Sys2Proof.Machine.execRbPeek length s
  | .rbReadh cursor length => Sys2Proof.Machine.execRbReadh cursor length s
  | .rbPeekh cursor length => Sys2Proof.Machine.execRbPeekh cursor length s
  | .rbAvail => Sys2Proof.Machine.execRbAvail s
  | .rbAvailmax => Sys2Proof.Machine.execRbAvailmax s
  | .rbStatadd => Sys2Proof.Machine.execRbStatadd s
  | .rbStatread cursor => Sys2Proof.Machine.execRbStatread cursor s
  | .edmParse byte => Sys2Proof.Machine.execEdmParse byte s
  | .edmReady => Sys2Proof.Machine.execEdmReady s
  | .edmReset => Sys2Proof.Machine.execEdmReset s
  | .edmEvdata max => Sys2Proof.Machine.execEdmEvdata max s
  | .edmEvent => Sys2Proof.Machine.execEdmEvent s
  | .edmEncdata channel data => Sys2Proof.Machine.execEdmEncdata channel data s
  | .edmEnchead channel length => Sys2Proof.Machine.execEdmEnchead channel length s
  | .edmEnctail => Sys2Proof.Machine.execEdmEnctail s
  | .edmEncatreq data => Sys2Proof.Machine.execEdmEncatreq data s
  | .edmEncatrsp data => Sys2Proof.Machine.execEdmEncatrsp data s
  | .ubxEncode cls id body => Sys2Proof.Machine.execUbxEncode cls id body s
  | .ubxDecode buf => Sys2Proof.Machine.execUbxDecode buf s
  | .ubxSendrecv cls id expClass expId maxBody timeout body => Sys2Proof.Machine.execUbxSendrecv cls id expClass expId maxBody timeout body s
  | .ubxSendonly cls id timeout body => Sys2Proof.Machine.execUbxSendonly cls id timeout body s
  | .uartWrite data => Sys2Proof.Machine.execUartWrite data s
  | .uartAvail => Sys2Proof.Machine.execUartAvail s
  | .uartRead maxLen => Sys2Proof.Machine.execUartRead maxLen s
  | .linkPump mode => Sys2Proof.Machine.execLinkPump mode s
  | .linkDrain cursor enable => Sys2Proof.Machine.execLinkDrain cursor enable s

end Sys2Proof.Machine
end

