-- ==== Sys2Proof/Machine/Turns.lean ====
section
/-!
DEFINITION. One step of each agent under the environment's turn (60_exceptions.md R352, 20_memory.md
R73), and the command port the HOST's step fetches from (30_encoding.md R90, R99).
-/

namespace Sys2Proof.Machine

open Host

/-- The turn's inputs as the step sees them: the clock, and the answers of the two draws (10_state.md R20, R44). -/
def State.sense (s : State) (t : Config.Turn) : State :=
  { s with env := { s.env with now := s.env.now + t.elapsed, heapOk := t.heapOk, writeOk := t.writeOk } }

/-- Further words and data-in bytes join the back of the port's streams. -/
def State.present (s : State) (words : List Word) (input : List Byte) : State :=
  { s with env := { s.env with words := s.env.words ++ words, input := s.env.input ++ input } }

/-- The port's streams after a command has been taken from them. -/
def State.consume (s : State) (words : List Word) (input : List Byte) : State :=
  { s with env := { s.env with words := words, input := input } }

/-- The HOST's step: the command at the front of the port is taken and executed. An illegal command posts
`ERR_INVALID_PARAMETER`, changes no state and consumes no data-in (R99); a command that is not all there
yet is not taken (log entries 8 to 10). -/
def State.hostStep (s : State) : Outcome State Fault Refusal :=
  match decode s.env.words s.env.input with
  | .command i words input => exec i (s.consume words input)
  | .illegal _ words => .next ((s.consume words s.env.input).raise .invalidParameter)
  | .waiting _ => .next s.silent

/-- One step of the agent the turn names (R352). -/
def State.runTurn (s : State) (t : Config.Turn) : Outcome State Fault Refusal :=
  let u := s.sense t
  match t.agent with
  | .host words input => (u.present words input).hostStep
  | .line received sent => .next (u.lineStep received sent)
  | .pump => .next u.pumpStep
  | .drain => .next u.drainStep
  | .engine => .next u.engineStep

/-- The environment's next turn, and the state once it is drawn: the head of the agenda, and the free
value `Config.turn` when the agenda is empty (log entry 5). -/
def State.nextTurn (s : State) : Config.Turn × State :=
  match s.env.agenda with
  | t :: rest => (t, { s with env := { s.env with agenda := rest } })
  | [] => (Config.turn s.env.tick, { s with env := { s.env with tick := s.env.tick + 1 } })

/-- A turn in which the HOST takes the command at the port, no time passes and no answer changes. -/
def State.hostTurn (s : State) : Config.Turn :=
  { elapsed := 0, heapOk := s.env.heapOk, writeOk := s.env.writeOk, agent := .host [] [] }

/-- `s` with a command at the port and the HOST's turn next. -/
def State.placeCommand (s : State) (c : Encoded) : State :=
  { s with env := { s.env with words := c.words, input := c.input, agenda := s.hostTurn :: s.env.agenda } }

end Sys2Proof.Machine
end

