-- ==== Sys2Proof/Machine/Step.lean ====
section
/-! DEFINITION. The step function: one step of one agent, chosen by the environment (20_memory.md R73). -/

namespace Sys2Proof.Machine

open Host

/-- One step of RBX. -/
def step (s : State) : Outcome State Fault Refusal :=
  s.nextTurn.2.runTurn s.nextTurn.1

/-- `s` with the instruction of bits `w` at the command port, numbered as spec/opcode_table.json numbers
them, and the HOST's turn next, so that the very next step takes and executes it (log entry 6). -/
def State.withFetchWord (s : State) (nbits w : Nat) : State :=
  s.placeCommand (tableCommand nbits w)

end Sys2Proof.Machine
end

