-- ==== Sys2Proof/Safety.lean ====
section
/-!
DEFINITION. What counts as a safe run: the invariants the spec states of each unit, the bytes a cursor
will read next, and runs of several commands, in the terms the claims use.
-/

namespace Sys2Proof.Machine

open Host

/-- The bytes cursor k will read next, `MemRead(x[k], unread(k))` (10_state.md R26 I3). -/
def RB.content (rb : RB) (k : Nat) : List Byte :=
  rb.mem.readRing rb.size.toNat (rb.cursor k) (rb.unread k)

/-- Every listed index of a byte space is below `bound` (20_memory.md R60). -/
def Memory.below (m : Memory) (bound : Nat) : Prop := ∀ c ∈ m, c.1 < bound

/-- Ring-buffer invariants I1 and I2 of 10_state.md R26, which hold whenever the buffer is created. -/
structure RB.Live (rb : RB) (par : Config.Params) : Prop where
  size_pos : 1 ≤ rb.size.toNat
  size_le : rb.size.toNat ≤ par.sizeMax
  n_le : rb.n.toNat ≤ par.nmax
  w_lt : rb.w.toNat < rb.size.toNat
  cursor_lt : ∀ k, rb.present k = true → rb.cursor k < rb.size.toNat
  lock_taken : ∀ k, 1 ≤ k → k ≤ rb.n.toNat → rb.lockBit k = true → rb.takenBit k = true

/-- The register tables have the places the build has: cursors and counters 0..NMAX, bits 1..NMAX (10_state.md R22, R23). -/
structure RB.Sized (rb : RB) (par : Config.Params) : Prop where
  x : rb.x.length = par.nmax + 1
  taken : rb.taken.length = par.nmax
  lock : rb.lock.length = par.nmax
  lossRead : rb.lossRead.length = par.nmax + 1

/-- The ring-buffer unit's invariant: the storage is canonical and inside the RAM, the register tables have
their size, the counters have LOSSW bits (10_state.md R22), and I1, I2 hold. -/
structure RB.Inv (rb : RB) (par : Config.Params) : Prop where
  mem_wf : rb.mem.wf = true
  mem_below : rb.mem.below par.sizeMax
  lossAdd_lt : rb.lossAdd < 2 ^ par.lossw
  loss_lt : ∀ k, rb.lossOf k < 2 ^ par.lossw
  sized : rb.Sized par
  live : rb.created = true → rb.Live par

/-- The EDM unit's invariant (10_state.md R30, 42_edm_parser.md R193, R195, R210): at most one in-flight
frame, an event exactly in state 4, and there it is the event of the frame still in the buffer. -/
structure Edm.Inv (e : Edm) (par : Config.Params) : Prop where
  buf_wf : e.buf.wf = true
  buf_below : e.buf.below par.edmMaxLen
  event_iff : e.event.isSome = true ↔ e.state = .waitForEventProcessing
  idle_heap : e.state = .parseStartByte ∨ e.state = .parsePayloadLength → e.heap = false
  len_ok : e.state = .accumulatePayload ∨ e.state = .parseTailByte ∨ e.state = .waitForEventProcessing →
    Config.edmMinLen ≤ e.len.toNat ∧ e.len.toNat ≤ par.edmMaxLen ∧
      (e.heap = true ↔ Config.edmStack < e.len.toNat)
  cnt_lt : e.state = .accumulatePayload → e.cnt.toNat < e.len.toNat
  cnt_eq : e.state = .parseTailByte ∨ e.state = .waitForEventProcessing → e.cnt = e.len
  event_eq : e.state = .waitForEventProcessing → e.event = e.frameEvent par

/-- The ubx unit's invariant (10_state.md R36, 45_ubx_engine.md R293). -/
structure Ubx.Inv (u : Ubx) (par : Config.Params) : Prop where
  idle_empty : u.phase = .idle → u.acc = []
  poll_cap : u.phase = .poll → u.cap.toNat = 2 * u.keep par
  poll_acc : u.phase = .poll → u.acc.length ≤ u.keep par

/-- The invariant of the whole machine between steps: parameters a build can have, every unit's, the mutex
free (10_state.md R27), and the DRAIN's cursor one that some buffer can have (46_uart_link.md R318). -/
structure State.Inv (s : State) : Prop where
  par : s.par.Legal
  rb : s.rb.Inv s.par
  mutex : s.mutex = .free
  edm : s.edm.Inv s.par
  ubx : s.ubx.Inv s.par
  drainCur : s.link.drainCur.toNat ≤ s.par.nmax

/-- A sequence of commands, each completing before the next (20_memory.md R73), stopping at the first fault or refusal. -/
def execSeq : List Instr → State → Outcome State Fault Refusal
  | [], s => .next s
  | i :: is, s =>
    match exec i s with
    | .next t => execSeq is t
    | .fault r => .fault r
    | .refused r => .refused r

/-- The fields of the ring buffer that no data command writes (10_state.md R22). -/
structure RB.SameShape (rb rb' : RB) : Prop where
  created : rb'.created = rb.created
  size : rb'.size = rb.size
  n : rb'.n = rb.n
  taken : rb'.taken = rb.taken
  lock : rb'.lock = rb.lock
  rhr : rb'.rhr = rb.rhr

/-- Every field but the read cursors is the same. -/
structure RB.SameButCursors (rb rb' : RB) : Prop where
  shape : rb.SameShape rb'
  mem : rb'.mem = rb.mem
  w : rb'.w = rb.w
  lossRead : rb'.lossRead = rb.lossRead
  lossAdd : rb'.lossAdd = rb.lossAdd

/-- Every field but the taken and lock bitmaps is the same. -/
structure RB.SameButBits (rb rb' : RB) : Prop where
  created : rb'.created = rb.created
  size : rb'.size = rb.size
  n : rb'.n = rb.n
  mem : rb'.mem = rb.mem
  w : rb'.w = rb.w
  x : rb'.x = rb.x
  lossRead : rb'.lossRead = rb.lossRead
  lossAdd : rb'.lossAdd = rb.lossAdd
  rhr : rb'.rhr = rb.rhr

/-- The bytes `d` have been stored, every cursor in the way reclaimed, and nothing else done (41_rb_data.md
R152, R153). `unread(k) + |d| − C` is a subtraction of naturals, so it is the rule's `max(0, ·)`. -/
structure RB.Stored (par : Config.Params) (rb rb' : RB) (d : List Byte) : Prop where
  shape : rb.SameShape rb'
  lossAdd : rb'.lossAdd = rb.lossAdd
  w : rb'.w.toNat = (rb.w.toNat + d.length) % rb.size.toNat
  bytes : ∀ (i : Nat) (h : i < d.length), d.length ≤ i + rb.size.toNat →
    rb'.mem.read ((rb.w.toNat + i) % rb.size.toNat) = d[i]
  outside : ∀ a, (∀ i, i < d.length → (rb.w.toNat + i) % rb.size.toNat ≠ a) → rb'.mem.read a = rb.mem.read a
  moved : ∀ k, rb.present k = true → rb.locked k = false →
    rb'.cursor k = (rb.cursor k + (rb.unread k + d.length - rb.capacity)) % rb.size.toNat ∧
    rb'.lossOf k = (rb.lossOf k + (rb.unread k + d.length - rb.capacity)) % 2 ^ par.lossw
  kept : ∀ k, rb.present k = false ∨ rb.locked k = true → rb'.cursor k = rb.cursor k ∧ rb'.lossOf k = rb.lossOf k

/-- A locked cursor k is left as R170 promises (41_rb_data.md): in place, locked, with no loss counted and no
byte it has not read overwritten. -/
structure RB.Spared (k : Nat) (rb rb' : RB) : Prop where
  cursor : rb'.cursor k = rb.cursor k
  lossOf : rb'.lossOf k = rb.lossOf k
  locked : rb'.locked k = true
  content : rb.content k <+: rb'.content k

/-! ### What a run of commands moved through the ring buffer (41_rb_data.md R168, R170) -/

/-- Whether a command reads through cursor k. -/
def readsCursor (k : Nat) : Instr → Bool
  | .rbRead _ => decide (k = 0)
  | .rbReadh c _ => decide (k = c.toNat)
  | .rbCreate _ | .rbCreateh _ _ | .rbDestroy | .rbSetrhr _ | .rbTake | .rbGive _ | .rbLock _ | .rbUnlock _
  | .rbAdd _ | .rbFadd _ | .rbPeek _ | .rbPeekh _ _ | .rbAvail | .rbAvailmax | .rbStatadd | .rbStatread _
  | .edmParse _ | .edmReady | .edmReset | .edmEvdata _ | .edmEvent | .edmEncdata _ _ | .edmEnchead _ _
  | .edmEnctail | .edmEncatreq _ | .edmEncatrsp _ | .ubxEncode _ _ _ | .ubxDecode _ | .ubxSendrecv _ _ _ _ _ _ _
  | .ubxSendonly _ _ _ _ | .uartWrite _ | .uartAvail | .uartRead _ | .linkPump _ | .linkDrain _ _ => false

/-- A command that neither re-creates or destroys the buffer nor releases cursor k. -/
def sparesCursor (k : Nat) (i : Instr) : Prop :=
  (∀ size, i ≠ .rbCreate size) ∧ (∀ handles size, i ≠ .rbCreateh handles size) ∧ i ≠ .rbDestroy ∧
    ∀ h, i = .rbGive h → k ≠ h.toNat

/-- A command that is not one of those R170 lets change a locked cursor k. -/
def sparesLocked (k : Nat) (i : Instr) : Prop :=
  sparesCursor k i ∧ (∀ h, i = .rbUnlock h → k ≠ h.toNat) ∧ ∀ h n, i = .rbReadh h n → k ≠ h.toNat

/-- Everything a run of commands returned to cursor k. -/
def drained (k : Nat) : List Instr → State → List Byte
  | [], _ => []
  | i :: is, s =>
    match exec i s with
    | .next t => (if readsCursor k i then t.port.out else []) ++ drained k is t
    | .fault _ => []
    | .refused _ => []

/-- The bytes a command offers to the ring buffer. -/
def offered : Instr → List Byte
  | .rbAdd d => d
  | .rbFadd d => d
  | .rbCreate _ | .rbCreateh _ _ | .rbDestroy | .rbSetrhr _ | .rbTake | .rbGive _ | .rbLock _ | .rbUnlock _
  | .rbRead _ | .rbPeek _ | .rbReadh _ _ | .rbPeekh _ _ | .rbAvail | .rbAvailmax | .rbStatadd | .rbStatread _
  | .edmParse _ | .edmReady | .edmReset | .edmEvdata _ | .edmEvent | .edmEncdata _ _ | .edmEnchead _ _
  | .edmEnctail | .edmEncatreq _ | .edmEncatrsp _ | .ubxEncode _ _ _ | .ubxDecode _ | .ubxSendrecv _ _ _ _ _ _ _
  | .ubxSendonly _ _ _ _ | .uartWrite _ | .uartAvail | .uartRead _ | .linkPump _ | .linkDrain _ _ => []

/-- Everything the successful adds of a run stored. -/
def accepted : List Instr → State → List Byte
  | [], _ => []
  | i :: is, s =>
    match exec i s with
    | .next t => (if t.port.result = some 1 then offered i else []) ++ accepted is t
    | .fault _ => []
    | .refused _ => []

/-- No command of a run reclaims from cursor k (41_rb_data.md R152): what each stored found room behind it.
That k's loss counter is unchanged (R168) says this only of a counter wide enough not to wrap to the same value. -/
def NeverReclaims (k : Nat) : List Instr → State → Prop
  | [], _ => True
  | i :: is, s =>
    match exec i s with
    | .next t => (t.port.result = some 1 → s.rb.unread k + (offered i).length ≤ s.rb.capacity) ∧ NeverReclaims k is t
    | .fault _ => False
    | .refused _ => False

/-! ### The event of a frame, by header, sub-payload length and connection type (42_edm_parser.md R196 to R204) -/

/-- The kind code of the event a frame with a good envelope gives, 0 for none. -/
def frameKind (par : Config.Params) (hdr : Half) (plen : Nat) (ctype : Byte) : Nat :=
  if hdr = par.tConnect then
    if ctype = par.ctBt ∧ plen = par.pBt then 1
    else if ctype = par.ctIpv4 ∧ plen = par.pIpv4 then 2
    else if ctype = par.ctIpv6 ∧ plen = par.pIpv6 then 3
    else 0
  else if hdr = par.tDisconnect then if plen = 1 then 4 else 0
  else if hdr = par.tDataEvt ∨ hdr = par.tDataCmd then if 2 ≤ plen then 5 else 0
  else if hdr = par.tAtEvt ∨ hdr = par.tAtRsp then 6
  else if hdr = par.tStart then if plen = 0 then 7 else 0
  else 0

/-- The bytes posted with an event of that kind (42_edm_parser.md R209); `p` is the sub-payload. A connect
event's are its channel and the fields after the connection type (R197 to R199). -/
def frameOut (p : List Byte) : Nat → List Byte
  | 1 => p.take 1 ++ (p.drop 2).take 9
  | 2 => p.take 1 ++ (p.drop 2).take 13
  | 3 => p.take 1 ++ (p.drop 2).take 37
  | 4 => p
  | 5 => p.take 1 ++ [0, 3] ++ bigEndian (BitVec.ofNat 16 (p.length - 1))
  | 6 => [0, 0, 2] ++ bigEndian (BitVec.ofNat 16 p.length)
  | 7 => [0]
  | _ => []

/-- The heap answers yes in this step (R193): the build's policy, or the environment's draw. -/
abbrev State.HeapGrants (s : State) : Prop :=
  s.par.edmHeap = .always ∨ (s.par.edmHeap = .draw ∧ s.env.heapOk = true)

/-! ### Who writes what -/

/-- The unit whose state a command may write (the "written by" columns of 10_state.md R22, R30, R36, R40, R42). -/
inductive Owner where
  | ringBuffer
  | edmParser
  | ubxEngine
  | uart
  | link
  | nothing
deriving DecidableEq, Repr

/-- Which unit a command may write. The ring-buffer commands that only read still take and free the mutex. -/
def ownerOf : Instr → Owner
  | .rbCreate _ | .rbCreateh _ _ | .rbDestroy | .rbSetrhr _ | .rbTake | .rbGive _ | .rbLock _ | .rbUnlock _
  | .rbAdd _ | .rbFadd _ | .rbRead _ | .rbPeek _ | .rbReadh _ _ | .rbPeekh _ _ | .rbAvail | .rbAvailmax
  | .rbStatadd | .rbStatread _ => .ringBuffer
  | .edmParse _ | .edmReset => .edmParser
  | .ubxSendrecv _ _ _ _ _ _ _ | .ubxSendonly _ _ _ _ => .ubxEngine
  | .uartWrite _ | .uartRead _ => .uart
  | .linkPump _ | .linkDrain _ _ => .link
  | .edmReady | .edmEvdata _ | .edmEvent | .edmEncdata _ _ | .edmEnchead _ _ | .edmEnctail | .edmEncatreq _
  | .edmEncatrsp _ | .ubxEncode _ _ _ | .ubxDecode _ | .uartAvail => .nothing

/-- `t` is the turn taken at `s`, and `u` the state its agent then sees: the turn's inputs are in, and the
turn is drawn from the agenda, or is the free value `Config.turn` when the agenda is empty (log entry 5). -/
def State.Takes (s : State) (t : Config.Turn) (u : State) : Prop :=
  (∃ rest, s.env.agenda = t :: rest ∧ u = { s with env := { s.env with
      now := s.env.now + t.elapsed, heapOk := t.heapOk, writeOk := t.writeOk, agenda := rest } }) ∨
  (s.env.agenda = [] ∧ t = Config.turn s.env.tick ∧ u = { s with env := { s.env with
      now := s.env.now + t.elapsed, heapOk := t.heapOk, writeOk := t.writeOk, tick := s.env.tick + 1 } })

/-- Junk with no sync byte in it, and then a ubx frame (44_ubx_codec.md R255). -/
structure Traffic where
  junk : List Byte
  cls : Byte
  id : Byte
  body : List Byte
deriving DecidableEq, Repr

/-- The bytes of a piece of traffic on the line. -/
def Traffic.bytes (par : Config.Params) (f : Traffic) : List Byte := f.junk ++ ubxFrame par f.cls f.id f.body

/-- The junk holds no sync byte, and the body's length fits the frame's length field. -/
def Traffic.Clean (par : Config.Params) (f : Traffic) : Prop := par.ubxSync1 ∉ f.junk ∧ f.body.length < 65536

end Sys2Proof.Machine
end

