-- ==== Sys2Proof/Certificates/Slice0/Obligations.lean ====
section
/-!
DEFINITION. The statements about RBX for the provers. Each docstring names the rules of spec/ it
formalises; where a clause rests on a choice of the model it names the log entry.
-/

section

open Host Sys2Proof Sys2Proof.Machine

/-! ### Encoding -/

/-- Decoding what the encoder wrote gives the command back and leaves what follows it (30_encoding.md R90 to R93, R96). -/
def Obligations.DecodeOfEncode : Prop :=
  ∀ (i : Instr) (words : List Word) (input : List Byte), i.wellFormed = true →
    decode ((encode i).words ++ words) ((encode i).input ++ input) = .command i words input

/-- Each command has one spelling: what decodes to it is its encoding (30_encoding.md R90 to R93, R96). -/
def Obligations.EncodeOfDecode : Prop :=
  ∀ (words words' : List Word) (input input' : List Byte) (i : Instr),
    decode words input = .command i words' input' →
      i.wellFormed = true ∧ words = (encode i).words ++ words' ∧ input = (encode i).input ++ input'

/-- Words of 95_test_vectors.md, part 2.1, decode to the commands they stand for. -/
def Obligations.VectorWordsDecode : Prop :=
  decode [0x10000000] [] = .command .rbTake [] [] ∧
  decode [0x12020000] [] = .command (.rbLock 2) [] [] ∧
  decode [0x0100FFFF] [] = .command (.rbCreate 65535) [] [] ∧
  decode [0x02080100] [] = .command (.rbCreateh 8 256) [] [] ∧
  decode [0x60060002, 0x00000001] [1, 2] = .command (.ubxEncode 6 1 [1, 2]) [] [] ∧
  decode [0x63060002, 0x00000001, 0x000001F4] [1, 2] = .command (.ubxSendonly 6 1 500 [1, 2]) [] [] ∧
  decode [0x62060000, 0x03000001, 0x00000040, 0x000007D0] [] =
    .command (.ubxSendrecv 6 1 none none 64 2000 []) [] [] ∧
  decode [0x62060002, 0x02000501, 0x00000002, 0x000003E8] [1, 2] =
    .command (.ubxSendrecv 6 1 (some 5) none 2 1000 [1, 2]) [] []

/-- A command word matches at most one row of the table, and one that matches none is illegal and is taken
off the words alone (30_encoding.md R91, R99; that the word is taken off is log entry 9). -/
def Obligations.WordMatchesOneRowOrIsIllegal : Prop :=
  ∀ w : Word,
    (∀ i j : Instr, w &&& i.row.mask = i.row.fixed → w &&& j.row.mask = j.row.fixed → i.row = j.row) ∧
    ((∀ i : Instr, w &&& i.row.mask ≠ i.row.fixed) →
      ∀ (words : List Word) (input : List Byte), ∃ why, decode (w :: words) input = .illegal why words)

/-- The operand ranges and must-be-zero extension fields of 30_encoding.md R91, R92 and R99: any value outside
them is illegal. That the extension words go with the command word is log entry 9. -/
def Obligations.OperandsOutsideTheirRangeAreIllegal : Prop :=
  ∀ (words : List Word) (input : List Byte) (h : Byte) (n : Half) (e1 e2 e3 : Word),
    (1 < h.toNat → decode (commandWord 0x04 h 0 :: words) input = .illegal .operandOutOfRange words) ∧
    (2 < h.toNat → decode (commandWord 0x73 h 0 :: words) input = .illegal .operandOutOfRange words) ∧
    (1 < n.toNat → decode (commandWord 0x74 h n :: words) input = .illegal .operandOutOfRange words) ∧
    (256 ≤ e1.toNat →
      decode (commandWord 0x60 h n :: e1 :: words) input = .illegal .nonzeroExtensionField words ∧
      decode (commandWord 0x63 h n :: e1 :: e2 :: words) input = .illegal .nonzeroExtensionField words) ∧
    (2 ^ 26 ≤ e1.toNat ∨ 2 ^ 16 ≤ e2.toNat →
      decode (commandWord 0x62 h n :: e1 :: e2 :: e3 :: words) input = .illegal .nonzeroExtensionField words) ∧
    (e1.toNat < 2 ^ 26 → e2.toNat < 2 ^ 16 →
      (e1.getLsbD 24 = true ∧ e1.extractLsb' 8 8 ≠ 0) ∨ (e1.getLsbD 25 = true ∧ e1.extractLsb' 16 8 ≠ 0) →
      decode (commandWord 0x62 h n :: e1 :: e2 :: e3 :: words) input = .illegal .wildcardWithValue words)

/-! ### The step -/

/-- A HOST turn whose front command is legal runs exactly that command (20_memory.md R73, 30_encoding.md R90),
whether the turn stands on the agenda or is the environment's free choice. How a command reaches the port is log
entry 6. -/
def Obligations.StepRunsDecodedCommand : Prop :=
  ∀ (s u : State) (t : Config.Turn) (more words : List Word) (bytes input : List Byte) (i : Instr),
    s.Takes t u → t.agent = .host more bytes →
    decode (s.env.words ++ more) (s.env.input ++ bytes) = .command i words input →
      step s = exec i (u.consume words input)

/-- A HOST turn whose front command is illegal posts ERR_INVALID_PARAMETER (60_exceptions.md R341), changes no state
of the block, posts no data and consumes no data-in (30_encoding.md R99). That its words leave the port is log
entry 9. -/
def Obligations.IllegalCommandAnswered : Prop :=
  ∀ (s u : State) (t : Config.Turn) (more words : List Word) (bytes : List Byte) (why : Illegal),
    s.Takes t u → t.agent = .host more bytes →
    decode (s.env.words ++ more) (s.env.input ++ bytes) = .illegal why words →
      step s = .next { u.consume words (s.env.input ++ bytes) with
        port := ⟨some (BitVec.ofInt 32 s.par.err.invalidParameter), []⟩ }

/-- A turn of LINE, PUMP, DRAIN or ENGINE takes that agent's step, on the clock and answers of the turn
(60_exceptions.md R352). The agenda, and the free value when it is empty, are the model's way to hold the
environment's choice (log entry 5). -/
def Obligations.StepGivesTheTurnToTheAgent : Prop :=
  ∀ (s u : State) (t : Config.Turn), s.Takes t u →
    (∀ received sent, t.agent = .line received sent →
      step s = .next { u with
        uart := { rx := s.uart.rx ++ received, tx := s.uart.tx.drop sent }, port := ⟨none, []⟩ }) ∧
    (t.agent = .pump → step s = .next u.pumpStep) ∧
    (t.agent = .drain → step s = .next u.drainStep) ∧
    (t.agent = .engine → step s = .next u.engineStep)

/-- No command and no agent step ever stops the machine (60_exceptions.md R340: RBX never traps). -/
def Obligations.NothingEverStops : Prop :=
  (∀ (i : Instr) (s : State), ∃ t, exec i s = .next t) ∧ ∀ s : State, ∃ t, step s = .next t

/-- A word of the table placed at the port is what the next step runs, and nothing of it stays there (log entry 6). -/
def Obligations.PlacedWordRunsNext : Prop :=
  ∀ (s : State) (nbits w : Nat) (i : Instr), decodeTableWord nbits w = some i →
    step (s.withFetchWord nbits w) = exec i (s.consume [] [])

/-! ### Invariants and reset -/

/-- The invariants of every unit hold after every step of every agent (10_state.md R26 I1 I2, R27, R30;
42_edm_parser.md R210; 45_ubx_engine.md R293), on every build whose parameters are legal, and no step changes the
parameters. Which parameters are legal is the model's reading of the rules that use them (log entry 1). -/
def Obligations.StepKeepsInv : Prop := ∀ s t : State, s.Inv → step s = .next t → t.Inv ∧ t.par = s.par

/-- The invariants hold after power-on reset (70_reset_and_hazards.md R370), on the build of R6's defaults and on every
build whose parameters are legal (log entry 1). That `link.drainCur` and the loss counters are in range and that the
two byte spaces are canonical rests on the model's values at reset (log entries 2 and 3). -/
def Obligations.ResetHasInv : Prop :=
  State.reset.Inv ∧ ∀ par : Config.Params, par.Legal → (State.powerOn par).Inv

/-- The fields reset gives a value (10_state.md R48), on every build; `State.reset` is the build of R6's defaults. -/
def Obligations.ResetValues : Prop :=
  State.reset = State.powerOn Config.Params.default ∧
  ∀ (par : Config.Params) (s : State), s = State.powerOn par →
    s.par = par ∧ s.rb.created = false ∧ s.edm.state = .parseStartByte ∧ s.edm.heap = false ∧
    s.edm.event = none ∧ s.ubx.phase = .idle ∧ s.ubx.acc = [] ∧ s.uart.rx = [] ∧ s.uart.tx = [] ∧
    s.link.pump = .off ∧ s.link.drainEn = false ∧ s.mutex = .free ∧ s.port = ⟨none, []⟩

/-! ### Ring buffer: creation, handles, locks -/

/-- RB.CREATE (R120). -/
def Obligations.CreateInitialises : Prop :=
  ∀ (size : Half) (s : State),
    (size = 0 ∨ s.par.sizeMax < size.toNat → exec (.rbCreate size) s =
      .next { s with mutex := .free, port := ⟨some (errWord s.par .invalidParameter), []⟩ }) ∧
    (size ≠ 0 → size.toNat ≤ s.par.sizeMax → s.rb.Sized s.par →
      ∃ x : List Half, x.length = s.par.nmax + 1 ∧ x[0]? = some 0 ∧
      exec (.rbCreate size) s = .next { s with
        rb := { created := true, size := size, n := 0, mem := s.rb.mem, w := 0, x := x
                taken := List.replicate s.par.nmax false, lock := List.replicate s.par.nmax false
                lossRead := List.replicate (s.par.nmax + 1) 0, lossAdd := 0, rhr := false }
        mutex := .free, port := ⟨some 0, []⟩ })

/-- RB.CREATEH (R121): the size is checked before the number of handles. -/
def Obligations.CreateWithHandlesInitialises : Prop :=
  ∀ (handles : Byte) (size : Half) (s : State),
    (size = 0 ∨ s.par.sizeMax < size.toNat → exec (.rbCreateh handles size) s =
      .next { s with mutex := .free, port := ⟨some (errWord s.par .invalidParameter), []⟩ }) ∧
    (size ≠ 0 → size.toNat ≤ s.par.sizeMax → s.par.nmax < handles.toNat → exec (.rbCreateh handles size) s =
      .next { s with mutex := .free, port := ⟨some (errWord s.par .noMemory), []⟩ }) ∧
    (size ≠ 0 → size.toNat ≤ s.par.sizeMax → handles.toNat ≤ s.par.nmax → s.rb.Sized s.par →
      ∃ x : List Half, x.length = s.par.nmax + 1 ∧ x[0]? = some 0 ∧
      exec (.rbCreateh handles size) s = .next { s with
        rb := { created := true, size := size, n := handles, mem := s.rb.mem, w := 0, x := x
                taken := List.replicate s.par.nmax false, lock := List.replicate s.par.nmax false
                lossRead := List.replicate (s.par.nmax + 1) 0, lossAdd := 0, rhr := false }
        mutex := .free, port := ⟨some 0, []⟩ })

/-- RB.DESTROY and RB.SETRHR (R122, R123): nothing is said of the other fields of a destroyed buffer, which the
rule leaves unspecified. -/
def Obligations.DestroyAndSetrhrWriteOneFlag : Prop :=
  ∀ (on : Bool) (s : State),
    (∃ rb : RB, rb.created = false ∧ rb.mem = s.rb.mem ∧
      exec .rbDestroy s = .next { s with rb := rb, mutex := .free, port := ⟨some 0, []⟩ }) ∧
    exec (.rbSetrhr on) s = .next
      (if s.rb.created then { s with rb := { s.rb with rhr := on }, mutex := .free, port := ⟨some 0, []⟩ }
       else { s with mutex := .free, port := ⟨some (errWord s.par .notInitialised), []⟩ })

/-- RB.TAKE (R124): the lowest free slot, empty, unlocked, with its loss counter at 0. -/
def Obligations.TakeAcquiresTheLowestFreeSlot : Prop :=
  ∀ s : State,
    (s.rb.created = false →
      exec .rbTake s = .next { s with mutex := .free, port := ⟨some (errWord s.par .notInitialised), []⟩ }) ∧
    (s.rb.created = true → (∀ k, 1 ≤ k → k ≤ s.rb.n.toNat → s.rb.takenBit k = true) →
      exec .rbTake s = .next { s with mutex := .free, port := ⟨some (errWord s.par .noMemory), []⟩ }) ∧
    (s.rb.created = true → s.rb.Inv s.par → ∀ k, 1 ≤ k → k ≤ s.rb.n.toNat → s.rb.takenBit k = false →
      (∀ j, 1 ≤ j → j < k → s.rb.takenBit j = true) →
      ∃ rb : RB, exec .rbTake s = .next { s with rb := rb, mutex := .free, port := ⟨some (BitVec.ofNat 32 k), []⟩ } ∧
        rb.unread k = 0 ∧
        (∀ j, rb.takenBit j = (if j = k then true else s.rb.takenBit j) ∧
          rb.lockBit j = (if j = k then false else s.rb.lockBit j) ∧
          rb.cursor j = (if j = k then s.rb.w.toNat else s.rb.cursor j) ∧
          rb.lossOf j = (if j = k then 0 else s.rb.lossOf j)) ∧
        rb.created = true ∧ rb.size = s.rb.size ∧ rb.n = s.rb.n ∧ rb.mem = s.rb.mem ∧ rb.w = s.rb.w ∧
        rb.lossAdd = s.rb.lossAdd ∧ rb.rhr = s.rb.rhr)

/-- RB.GIVE (R125), and its no-op on a handle that is not acquired (R128). -/
def Obligations.GiveReleasesTheHandle : Prop :=
  ∀ (h : Byte) (s : State), ∃ rb : RB, s.rb.SameButBits rb ∧
    exec (.rbGive h) s = .next { s with rb := rb, mutex := .free, port := ⟨some 0, []⟩ } ∧
    ∀ k,
      rb.takenBit k = (if k = h.toNat ∧ s.rb.created ∧ 1 ≤ k ∧ k ≤ s.rb.n.toNat then false else s.rb.takenBit k) ∧
      rb.lockBit k =
        (if k = h.toNat ∧ s.rb.created ∧ 1 ≤ k ∧ k ≤ s.rb.n.toNat ∧ s.rb.takenBit k then false else s.rb.lockBit k)

/-- RB.LOCK (R126), and its no-op on a handle that is not acquired (R128). -/
def Obligations.LockProtectsAndCounts : Prop :=
  ∀ (h : Byte) (s : State), s.rb.Sized s.par → ∃ rb : RB, s.rb.SameButBits rb ∧ rb.taken = s.rb.taken ∧
    exec (.rbLock h) s = .next { s with
      rb := rb, mutex := .free
      port := ⟨some (if s.rb.created ∧ 1 ≤ h.toNat ∧ h.toNat ≤ s.rb.n.toNat ∧ s.rb.takenBit h.toNat
        then BitVec.ofNat 32 (s.rb.unread h.toNat) else 0), []⟩ } ∧
    ∀ k, rb.lockBit k =
      (if k = h.toNat ∧ s.rb.created ∧ 1 ≤ k ∧ k ≤ s.rb.n.toNat ∧ s.rb.takenBit k then true else s.rb.lockBit k)

/-- RB.UNLOCK (R127), and its no-op on a handle that is not acquired (R128). -/
def Obligations.UnlockRemovesTheProtection : Prop :=
  ∀ (h : Byte) (s : State), ∃ rb : RB, s.rb.SameButBits rb ∧ rb.taken = s.rb.taken ∧
    exec (.rbUnlock h) s = .next { s with rb := rb, mutex := .free, port := ⟨some 0, []⟩ } ∧
    ∀ k, rb.lockBit k =
      (if k = h.toNat ∧ s.rb.created ∧ 1 ≤ k ∧ k ≤ s.rb.n.toNat ∧ s.rb.takenBit k then false else s.rb.lockBit k)

/-- On a buffer that is not created the commands that return a bool, a count or nothing change no state and
post 0, and those that return a status or a handle post ERR_NOT_INITIALISED (R128). -/
def Obligations.UncreatedBufferAnswers : Prop :=
  ∀ s : State, s.rb.created = false →
    (∀ i : Instr, i ∈ [.rbAvail, .rbAvailmax, .rbStatadd] ∨ (∃ h, i ∈ [.rbGive h, .rbLock h, .rbUnlock h, .rbStatread h]) ∨
      (∃ d, i ∈ [.rbAdd d, .rbFadd d]) ∨ (∃ n, i ∈ [.rbRead n, .rbPeek n]) ∨ (∃ h n, i ∈ [.rbReadh h n, .rbPeekh h n]) →
      exec i s = .next { s with mutex := .free, port := ⟨some 0, []⟩ }) ∧
    ∀ i : Instr, i = .rbTake ∨ (∃ b, i = .rbSetrhr b) →
      exec i s = .next { s with mutex := .free, port := ⟨some (errWord s.par .notInitialised), []⟩ }

/-! ### Ring buffer: adding -/

/-- RB.ADD (R150): nothing and 0 on a buffer that is not created, a counted refusal when the bytes do not fit,
otherwise the bytes stored with no eligible cursor moved. -/
def Obligations.AddStoresOrRefuses : Prop :=
  ∀ (d : List Byte) (s : State),
    (s.rb.created = false → exec (.rbAdd d) s = .next { s with mutex := .free, port := ⟨some 0, []⟩ }) ∧
    (s.rb.created = true → s.rb.avail < d.length → exec (.rbAdd d) s = .next { s with
      rb := { s.rb with lossAdd := (s.rb.lossAdd + d.length) % 2 ^ s.par.lossw }
      mutex := .free, port := ⟨some 0, []⟩ }) ∧
    (s.rb.created = true → s.rb.Inv s.par → d.length ≤ s.rb.avail → ∃ rb : RB,
      exec (.rbAdd d) s = .next { s with rb := rb, mutex := .free, port := ⟨some 1, []⟩ } ∧ RB.Stored s.par s.rb rb d ∧
      ∀ k, s.rb.eligible k = true → rb.cursor k = s.rb.cursor k ∧ rb.lossOf k = s.rb.lossOf k)

/-- RB.FADD (R151, R152): refused whole exactly when some locked cursor has no room, otherwise stored. -/
def Obligations.ForcedAddStoresOrRefuses : Prop :=
  ∀ (d : List Byte) (s : State),
    (s.rb.created = false → exec (.rbFadd d) s = .next { s with mutex := .free, port := ⟨some 0, []⟩ }) ∧
    (s.rb.created = true → (∃ k, s.rb.locked k = true ∧ s.rb.capacity < s.rb.unread k + d.length) →
      exec (.rbFadd d) s = .next { s with
        rb := { s.rb with lossAdd := (s.rb.lossAdd + d.length) % 2 ^ s.par.lossw }
        mutex := .free, port := ⟨some 0, []⟩ }) ∧
    (s.rb.created = true → s.rb.Inv s.par → (∀ k, s.rb.locked k = true → s.rb.unread k + d.length ≤ s.rb.capacity) →
      ∃ rb : RB, exec (.rbFadd d) s = .next { s with rb := rb, mutex := .free, port := ⟨some 1, []⟩ } ∧
        RB.Stored s.par s.rb rb d)

/-- Storing bytes extends what every present cursor will read next by them; an unlocked cursor keeps the most
recent C bytes of that (R152, R151 (a) (b); 10_state.md R26 I3). -/
def Obligations.StoringExtendsUnreadBytes : Prop :=
  ∀ (s t : State) (d : List Byte), s.rb.Inv s.par → s.rb.created = true →
    exec (.rbFadd d) s = .next t ∨ exec (.rbAdd d) s = .next t → t.port.result = some 1 →
    ∀ k, s.rb.present k = true →
      t.rb.unread k = min s.rb.capacity (s.rb.unread k + d.length) ∧
      t.rb.content k = (s.rb.content k ++ d).drop (s.rb.unread k + d.length - s.rb.capacity) ∧
      (s.rb.locked k = true → t.rb.content k = s.rb.content k ++ d)

/-- The FIFO property (R168): over any run of commands that leaves the buffer and cursor k in being and never
reclaims from cursor k, what was unread and then accepted is what was read and is still unread, in order. R168 tells
"no reclaim" from an unchanged loss counter; a counter of few bits can wrap to the same value, so the premise is
that every accepted add found room behind k (R152). -/
def Obligations.CursorIsFifo : Prop :=
  ∀ (is : List Instr) (s t : State) (k : Nat), s.Inv → s.rb.created = true → s.rb.present k = true →
    (∀ i ∈ is, sparesCursor k i) → NeverReclaims k is s → execSeq is s = .next t →
    drained k is s ++ t.rb.content k = s.rb.content k ++ accepted is s

/-- The lock property (R170; 10_state.md R26 I4): no command but those the rule names, and no step of an agent but a
DRAIN step through the cursor itself, moves a locked cursor, unlocks it, or overwrites a byte it has not read. A DRAIN
step through it is a read through it (46_uart_link.md R319): it leaves the lock, the counter and every byte the cursor
has still not read. -/
def Obligations.LockedBytesSurvive : Prop :=
  ∀ (s : State) (k : Nat), s.Inv → s.rb.created = true → s.rb.locked k = true →
    (∀ i : Instr, sparesLocked k i → ∃ t, exec i s = .next t ∧ RB.Spared k s.rb t.rb) ∧
    RB.Spared k s.rb s.pumpStep.rb ∧ RB.Spared k s.rb s.engineStep.rb ∧
    (∀ received sent, RB.Spared k s.rb (s.lineStep received sent).rb) ∧
    (k ≠ s.link.drainCur.toNat → RB.Spared k s.rb s.drainStep.rb) ∧
    s.drainStep.rb.locked k = true ∧ s.drainStep.rb.lossOf k = s.rb.lossOf k ∧
    ∃ read, s.rb.content k = read ++ s.drainStep.rb.content k

/-! ### Ring buffer: reading, space, counters -/

/-- RB.READH and RB.READ (R157, R155, R154): the front of what the cursor has not read, and the cursor past it;
nothing and 0 through a cursor that is not readable. -/
def Obligations.ReadCopiesAndAdvances : Prop :=
  ∀ (i : Instr) (h : Byte) (n : Half) (s : State), i = .rbReadh h n ∨ (h = 0 ∧ i = .rbRead n) →
    (¬ (s.rb.created = true ∧ ((h = 0 ∧ s.rb.rhr = false) ∨ s.rb.held h.toNat = true)) →
      exec i s = .next { s with mutex := .free, port := ⟨some 0, []⟩ }) ∧
    (s.rb.created = true → (h = 0 ∧ s.rb.rhr = false) ∨ s.rb.held h.toNat = true → s.rb.Inv s.par →
      ∃ (rb : RB) (out : List Byte), exec i s = .next { s with
          rb := rb, mutex := .free, port := ⟨some (BitVec.ofNat 32 out.length), out⟩ } ∧
        out.length = min n.toNat (s.rb.unread h.toNat) ∧
        (∀ i, i < out.length → out[i]? = some (s.rb.mem.read ((s.rb.cursor h.toNat + i) % s.rb.size.toNat))) ∧
        s.rb.SameButCursors rb ∧
        ∀ k, rb.cursor k = if k = h.toNat then (s.rb.cursor k + out.length) % s.rb.size.toNat else s.rb.cursor k)

/-- RB.PEEKH and RB.PEEK (R158, R156): the bytes RB.READH would return, with no state changed. -/
def Obligations.PeekCopiesOnly : Prop :=
  ∀ (i : Instr) (h : Byte) (n : Half) (s : State), i = .rbPeekh h n ∨ (h = 0 ∧ i = .rbPeek n) → ∃ out : List Byte,
    exec i s = .next { s with mutex := .free, port := ⟨some (BitVec.ofNat 32 out.length), out⟩ } ∧
    out.length = (if s.rb.created = true ∧ ((h = 0 ∧ s.rb.rhr = false) ∨ s.rb.held h.toNat = true)
      then min n.toNat (s.rb.unread h.toNat) else 0) ∧
    ∀ i, i < out.length → out[i]? = some (s.rb.mem.read ((s.rb.cursor h.toNat + i) % s.rb.size.toNat))

/-- The isolation property (R169): reads through two different cursors do not see each other. -/
def Obligations.ReadsOfTwoCursorsCommute : Prop :=
  ∀ (j k : Byte) (n m : Half) (s : State), j ≠ k →
    ∃ tj tk tjk tkj : State,
      exec (.rbReadh j n) s = .next tj ∧ exec (.rbReadh k m) tj = .next tjk ∧
      exec (.rbReadh k m) s = .next tk ∧ exec (.rbReadh j n) tk = .next tkj ∧
      tjk.port = tk.port ∧ tkj.port = tj.port ∧ tjk.rb = tkj.rb ∧
      tj.rb.content k.toNat = s.rb.content k.toNat ∧ tj.rb.readable k.toNat = s.rb.readable k.toNat

/-- RB.AVAIL (R159): the room behind the furthest-behind eligible cursor, C if there is none; it is the largest
length RB.ADD accepts. -/
def Obligations.AvailIsTheLargestAdd : Prop :=
  ∀ s : State,
    (s.rb.created = false → exec .rbAvail s = .next { s with mutex := .free, port := ⟨some 0, []⟩ }) ∧
    (s.rb.created = true → s.rb.Live s.par → ∃ n : Nat,
      exec .rbAvail s = .next { s with mutex := .free, port := ⟨some (BitVec.ofNat 32 n), []⟩ } ∧
      (∀ k, s.rb.eligible k = true → s.rb.unread k + n ≤ s.rb.capacity) ∧
      (n = s.rb.capacity ∨ ∃ k, s.rb.eligible k = true ∧ s.rb.unread k + n = s.rb.capacity) ∧
      ∀ d : List Byte, (∃ t, exec (.rbAdd d) s = .next t ∧ t.port.result = some 1) ↔ d.length ≤ n)

/-- RB.AVAILMAX (R160): the room behind the furthest-behind locked cursor, C if there is none; with a locked
cursor it is the largest length RB.FADD accepts, and without one RB.FADD accepts any. It is never below RB.AVAIL. -/
def Obligations.AvailmaxIsTheLargestForcedAdd : Prop :=
  ∀ s : State,
    (s.rb.created = false → exec .rbAvailmax s = .next { s with mutex := .free, port := ⟨some 0, []⟩ }) ∧
    (s.rb.created = true → s.rb.Live s.par → ∃ n : Nat,
      exec .rbAvailmax s = .next { s with mutex := .free, port := ⟨some (BitVec.ofNat 32 n), []⟩ } ∧
      (∀ k, s.rb.locked k = true → s.rb.unread k + n ≤ s.rb.capacity) ∧
      (n = s.rb.capacity ∨ ∃ k, s.rb.locked k = true ∧ s.rb.unread k + n = s.rb.capacity) ∧
      (∀ d : List Byte, (∃ t, exec (.rbFadd d) s = .next t ∧ t.port.result = some 1) ↔
        ((∃ k, s.rb.locked k = true) → d.length ≤ n)) ∧
      s.rb.avail ≤ n)

/-- RB.STATADD and RB.STATREAD (R161, R162): the counters as unsigned words, not cleared by reading; cursor 0's
can be read even when `rb.rhr` is set. -/
def Obligations.CountersAreRead : Prop :=
  ∀ s : State,
    exec .rbStatadd s = .next { s with
      mutex := .free, port := ⟨some (if s.rb.created then BitVec.ofNat 32 s.rb.lossAdd else 0), []⟩ } ∧
    ∀ h : Byte, exec (.rbStatread h) s = .next { s with
      mutex := .free
      port := ⟨some (if s.rb.created = true ∧ (h = 0 ∨ s.rb.held h.toNat = true)
        then BitVec.ofNat 32 (s.rb.lossOf h.toNat) else 0), []⟩ }

/-! ### EDM parser -/

/-- EDM.PARSE in the first two states (R191, R192, R193): the head byte, the big-endian length, and which lengths
start a frame; an oversized one needs the heap, which the build's EDM_HEAP or the environment's draw grants. -/
def Obligations.ParseHeadAndLength : Prop :=
  ∀ (b : Byte) (s : State),
    (s.edm.state = .parseStartByte → exec (.edmParse b) s = .next { s with
      edm := if b = Config.edmHead then { s.edm with lenCnt := 0, state := .parsePayloadLength } else s.edm
      port := ⟨some 0, []⟩ }) ∧
    (s.edm.state = .parsePayloadLength → s.edm.lenCnt = 0 → exec (.edmParse b) s = .next { s with
      edm := { s.edm with len := BitVec.ofNat 16 (b.toNat * 256), lenCnt := 1 }, port := ⟨some 0, []⟩ }) ∧
    (s.edm.state = .parsePayloadLength → s.edm.lenCnt = 1 → ∀ len : Half, len = s.edm.len ||| b.zeroExtend 16 →
      exec (.edmParse b) s = .next { s with
        edm :=
          if len.toNat < Config.edmMinLen ∨ s.par.edmMaxLen < len.toNat ∨
              (Config.edmStack < len.toNat ∧ ¬ s.HeapGrants)
          then { s.edm with len := len, state := .parseStartByte }
          else { s.edm with
            len := len, heap := decide (Config.edmStack < len.toNat), cnt := 0, state := .accumulatePayload }
        port := ⟨some 0, []⟩ })

/-- EDM.PARSE in the other states (R194, R195, R205): a payload byte is stored, a wrong tail discards the frame,
a waiting parser ignores the byte. What a good tail gives is `DispatchGivesTheEvent`. -/
def Obligations.ParsePayloadTailAndWait : Prop :=
  ∀ (b : Byte) (s : State),
    (s.edm.state = .accumulatePayload → s.edm.buf.wf = true → ∃ buf : Memory,
      (∀ a, buf.read a = if a = s.edm.cnt.toNat then b else s.edm.buf.read a) ∧
      exec (.edmParse b) s = .next { s with
        edm := { s.edm with
          buf := buf, cnt := s.edm.cnt + 1
          state := if s.edm.cnt + 1 = s.edm.len then .parseTailByte else .accumulatePayload }
        port := ⟨some 0, []⟩ }) ∧
    (s.edm.state = .parseTailByte → b ≠ Config.edmTail → exec (.edmParse b) s = .next { s with
      edm := { s.edm with heap := false, state := .parseStartByte }, port := ⟨some 0, []⟩ }) ∧
    (s.edm.state = .waitForEventProcessing → exec (.edmParse b) s = .next { s with port := ⟨some 0, []⟩ })

/-- The dispatch of a frame with a good tail (R195, R196 to R204) and how its event is posted (R209): the kind by
header, sub-payload length and connection type, the fields as R209 lays them out; the event posted is the one latched;
a frame with no event is dropped and the parser starts over. Type codes, connection types and lengths are the build's
(log entries 1 and 16). -/
def Obligations.DispatchGivesTheEvent : Prop :=
  ∀ (s : State) (hdr : Half) (plen kind : Nat) (p : List Byte), s.par.Legal → s.edm.state = .parseTailByte →
    hdr = s.edm.buf.read 0 ++ s.edm.buf.read 1 → plen + 2 = s.edm.len.toNat → p = s.edm.buf.slice 2 plen →
    kind = frameKind s.par hdr plen (s.edm.buf.read 3) →
    (kind = 0 → exec (.edmParse Config.edmTail) s = .next { s with
      edm := { s.edm with heap := false, state := .parseStartByte }, port := ⟨some 0, []⟩ }) ∧
    (kind ≠ 0 → ∃ ev : Event, kindCode (some ev) = BitVec.ofNat 32 kind ∧ ser (some ev) = frameOut p kind ∧
      exec (.edmParse Config.edmTail) s = .next { s with
        edm := { s.edm with event := some ev, state := .waitForEventProcessing }
        port := ⟨some (BitVec.ofNat 32 kind), frameOut p kind⟩ })

/-- EDM.READY, EDM.EVENT and EDM.EVDATA change no state (R206, R208, R212): ready is 0 in the waiting state alone;
there EDM.EVENT posts the latched event as R209 serialises it, and EDM.EVDATA the front of a Data or AT slice. -/
def Obligations.EventCommandsOnlyLook : Prop :=
  ∀ (s : State) (m : Half),
    exec .edmReady s = .next { s with port := ⟨some (if s.edm.state = .waitForEventProcessing then 0 else 1), []⟩ } ∧
    exec .edmEvent s = .next { s with port :=
      if s.edm.state = .waitForEventProcessing then ⟨some (kindCode s.edm.event), ser s.edm.event⟩ else ⟨some 0, []⟩ } ∧
    ∃ out : List Byte, exec (.edmEvdata m) s = .next { s with port := ⟨some (BitVec.ofNat 32 out.length), out⟩ } ∧
      (s.edm.state ≠ .waitForEventProcessing → out = []) ∧
      ∀ ev, s.edm.event = some ev → s.edm.state = .waitForEventProcessing →
        ((∀ ch off len, ev ≠ .data ch off len ∧ ev ≠ .atText ch off len) → out = []) ∧
        ∀ ch off len, ev = .data ch off len ∨ ev = .atText ch off len →
          out.length = min m.toNat len.toNat ∧
          ∀ i, i < out.length → out[i]? = some (s.edm.buf.read (off.toNat + i))

/-- EDM.EVENT posts again exactly what the EDM.PARSE that completed a frame posted (R212, corner cases). -/
def Obligations.EventIsRepeatedUntilReset : Prop :=
  ∀ (b : Byte) (s t : State), exec (.edmParse b) s = .next t → t.port.result ≠ some 0 →
    exec .edmEvent t = .next t ∧ (∀ b', exec (.edmParse b') t = .next { t with port := ⟨some 0, []⟩ }) ∧
    ∃ u, exec .edmReset t = .next u ∧ exec .edmEvent u = .next { u with port := ⟨some 0, []⟩ }

/-- EDM.RESET (R207). -/
def Obligations.ResetStartsTheParserOver : Prop :=
  ∀ s : State, ∃ buf : Memory, exec .edmReset s = .next { s with
    edm := { state := .parseStartByte, lenCnt := 0, len := 0, cnt := 0, buf := buf, heap := false, event := none }
    port := ⟨some 0, []⟩ }

/-- The buffer discipline (R210): from a state that meets the invariant, the heap buffer is allocated only by the
second length byte of an oversized frame with a successful draw, and freed only with the parser back at its start. -/
def Obligations.HeapBufferDiscipline : Prop :=
  ∀ s t : State, s.Inv → step s = .next t →
    (s.edm.heap = false → t.edm.heap = true →
      s.edm.state = .parsePayloadLength ∧ t.edm.state = .accumulatePayload ∧ Config.edmStack < t.edm.len.toNat ∧
        t.edm.len.toNat ≤ s.par.edmMaxLen ∧ t.HeapGrants) ∧
    (s.edm.heap = true → t.edm.heap = false → t.edm.state = .parseStartByte) ∧
    (t.edm.heap = true → t.edm.state ≠ .parseStartByte ∧ t.edm.state ≠ .parsePayloadLength)

/-- Round trip and resynchronisation (R211), on every legal build (log entry 1), for every channel and payload: the bytes of an encoded data frame
give no event until the last, and then one Data event with that channel and payload; with a wrong last byte they give
no event and a ready parser; and a frame that declares length 1 is dropped. -/
def Obligations.DataFrameRoundTrip : Prop :=
  ∀ (ch : Byte) (d : List Byte) (s e : State) (frame : List Byte),
    s.par.Legal → e.par = s.par → 1 ≤ d.length → d.length + 3 ≤ s.par.edmMaxLen →
    d.length + 3 ≤ Config.edmStack ∨ s.HeapGrants →
    s.edm.state = .parseStartByte → s.edm.buf.wf = true →
    exec (.edmEncdata ch d) e = .next { e with port := ⟨some (BitVec.ofNat 32 (d.length + 7)), frame⟩ } →
    (∀ j t, 0 < j → j < frame.length → execSeq ((frame.take j).map .edmParse) s = .next t →
      t.port = ⟨some 0, []⟩ ∧ t.edm.state ≠ .waitForEventProcessing) ∧
    (∃ t, execSeq (frame.map .edmParse) s = .next t ∧ t.edm.state = .waitForEventProcessing ∧
      t.port = ⟨some 5, [ch, 0, 3] ++ bigEndian (BitVec.ofNat 16 d.length)⟩ ∧
      exec (.edmEvdata (BitVec.ofNat 16 d.length)) t = .next { t with port := ⟨some (BitVec.ofNat 32 d.length), d⟩ }) ∧
    (∀ b, b ≠ Config.edmTail → ∃ t, execSeq ((frame.dropLast ++ [b]).map .edmParse) s = .next t ∧
      t.port = ⟨some 0, []⟩ ∧ t.edm.state = .parseStartByte ∧ t.edm.heap = false ∧
      exec .edmReady t = .next { t with port := ⟨some 1, []⟩ }) ∧
    ∃ t, execSeq ([0xAA, 0x00, 0x01].map .edmParse) s = .next t ∧ t.port = ⟨some 0, []⟩ ∧ t.edm.state = .parseStartByte

/-- AT frames through the parser (43_edm_encode.md R234, R235, R236; 42_edm_parser.md R202, R204), on every legal build
(log entry 1): a response frame gives one AT event that carries the text, a request frame gives none. -/
def Obligations.AtFrameRoundTrip : Prop :=
  ∀ (d : List Byte) (s e : State) (req rsp : List Byte),
    s.par.Legal → e.par = s.par → d.length + 2 ≤ s.par.edmMaxLen → d.length + 2 ≤ Config.edmStack ∨ s.HeapGrants →
    s.edm.state = .parseStartByte → s.edm.buf.wf = true →
    exec (.edmEncatreq d) e = .next { e with port := ⟨some (BitVec.ofNat 32 (d.length + 6)), req⟩ } →
    exec (.edmEncatrsp d) e = .next { e with port := ⟨some (BitVec.ofNat 32 (d.length + 6)), rsp⟩ } →
    (∃ t, execSeq (req.map .edmParse) s = .next t ∧ t.port = ⟨some 0, []⟩ ∧ t.edm.state = .parseStartByte) ∧
    ∃ t, execSeq (rsp.map .edmParse) s = .next t ∧ t.edm.state = .waitForEventProcessing ∧
      t.port = ⟨some 6, [0, 0, 2] ++ bigEndian (BitVec.ofNat 16 d.length)⟩ ∧
      exec (.edmEvdata (BitVec.ofNat 16 d.length)) t = .next { t with port := ⟨some (BitVec.ofNat 32 d.length), d⟩ }

/-! ### EDM encoders -/

/-- The five encoders (R231 to R235): the frame, its head or its tail, or ERR_INVALID_PARAMETER when the declared
length would exceed EDM_MAX_LEN; no state is changed. The type codes are the build's (defaults: log entry 16). -/
def Obligations.EdmEncoders : Prop :=
  ∀ (ch : Byte) (d : List Byte) (n : Half) (s : State),
    exec (.edmEncdata ch d) s = .next { s with port :=
      if s.par.edmMaxLen < d.length + 3 then ⟨some (errWord s.par .invalidParameter), []⟩
      else ⟨some (BitVec.ofNat 32 (d.length + 7)),
        [0xAA, BitVec.ofNat 8 ((d.length + 3) / 256), BitVec.ofNat 8 (d.length + 3),
          hiByte s.par.tDataCmd, loByte s.par.tDataCmd, ch] ++ d ++ [0x55]⟩ } ∧
    exec (.edmEnchead ch n) s = .next { s with port :=
      if s.par.edmMaxLen < n.toNat + 3 then ⟨some (errWord s.par .invalidParameter), []⟩
      else ⟨some 6, [0xAA, BitVec.ofNat 8 ((n.toNat + 3) / 256), BitVec.ofNat 8 (n.toNat + 3),
        hiByte s.par.tDataCmd, loByte s.par.tDataCmd, ch]⟩ } ∧
    exec .edmEnctail s = .next { s with port := ⟨some 1, [0x55]⟩ } ∧
    exec (.edmEncatreq d) s = .next { s with port :=
      if s.par.edmMaxLen < d.length + 2 then ⟨some (errWord s.par .invalidParameter), []⟩
      else ⟨some (BitVec.ofNat 32 (d.length + 6)),
        [0xAA, BitVec.ofNat 8 ((d.length + 2) / 256), BitVec.ofNat 8 (d.length + 2),
          hiByte s.par.tAtReq, loByte s.par.tAtReq] ++ d ++ [0x55]⟩ } ∧
    exec (.edmEncatrsp d) s = .next { s with port :=
      if s.par.edmMaxLen < d.length + 2 then ⟨some (errWord s.par .invalidParameter), []⟩
      else ⟨some (BitVec.ofNat 32 (d.length + 6)),
        [0xAA, BitVec.ofNat 8 ((d.length + 2) / 256), BitVec.ofNat 8 (d.length + 2),
          hiByte s.par.tAtRsp, loByte s.par.tAtRsp] ++ d ++ [0x55]⟩ }

/-! ### ubx codec -/

/-- UBX.ENCODE (R252): sync bytes, class, id, length low byte first, body, and the two checksum bytes of R251 in
closed form: the sum of the covered bytes, and the sum of each covered byte times the number of bytes from it on.
The sync bytes and UBX_OVERHEAD are the build's (defaults: log entry 16). -/
def Obligations.UbxEncodeFrame : Prop :=
  ∀ (cls id : Byte) (body covered : List Byte) (s : State), body.length < 65536 →
    covered = [cls, id, BitVec.ofNat 8 body.length, BitVec.ofNat 8 (body.length / 256)] ++ body →
    exec (.ubxEncode cls id body) s = .next { s with port := ⟨some (BitVec.ofNat 32 (body.length + s.par.ubxOverhead)),
      [s.par.ubxSync1, s.par.ubxSync2] ++ covered ++
        [BitVec.ofNat 8 (covered.map BitVec.toNat).sum,
         BitVec.ofNat 8 (covered.mapIdx fun i b => (covered.length - i) * b.toNat).sum]⟩ }

/-- UBX.DECODE's presentation of the three outcomes (R254). -/
def Obligations.UbxDecodePresentation : Prop :=
  ∀ (buf : List Byte) (s : State), ∃ port : Port, exec (.ubxDecode buf) s = .next { s with port := port } ∧
    (∀ cls id body next, ubxDecode s.par buf = .found cls id body next →
      port = ⟨some (BitVec.ofNat 32 body.length),
        [cls, id, BitVec.ofNat 8 next, BitVec.ofNat 8 (next / 256)] ++ body⟩) ∧
    (∀ start, ubxDecode s.par buf = .partialFrame start →
      port = ⟨some (errWord s.par .timeout), [BitVec.ofNat 8 start, BitVec.ofNat 8 (start / 256)]⟩) ∧
    (ubxDecode s.par buf = .notFound → port = ⟨some (errWord s.par .notFound), []⟩)

/-- The codec round trip (R255): decoding what UBX.ENCODE posts gives the message back, also behind junk with no
sync byte and before any tail. -/
def Obligations.CodecRoundTrip : Prop :=
  ∀ (cls id : Byte) (body junk tail : List Byte) (s e : State), body.length < 65536 → s.par.ubxSync1 ∉ junk →
    exec (.ubxEncode cls id body) s = .next e →
    ubxDecode s.par e.port.out = .found cls id body (body.length + 8) ∧
    ubxDecode s.par (junk ++ e.port.out ++ tail) = .found cls id body (junk.length + e.port.out.length)

/-- The decoder finds nothing but frames (R253): what it reports stands in the buffer, complete and with a correct
checksum, just before the index it reports. -/
def Obligations.DecodeFindsOnlyFrames : Prop :=
  ∀ (par : Config.Params) (buf body : List Byte) (cls id : Byte) (next : Nat),
    ubxDecode par buf = .found cls id body next →
    next ≤ buf.length ∧ body.length < 65536 ∧ ∃ before, buf.take next = before ++ ubxFrame par cls id body

/-- A buffer that ends inside its first frame decodes as Partial at the frame's sync byte, and a buffer with no
sync byte as NotFound (R253). -/
def Obligations.TruncatedFrameIsPartial : Prop :=
  ∀ (par : Config.Params) (cls id : Byte) (body junk : List Byte) (n : Nat), body.length < 65536 → par.ubxSync1 ∉ junk →
    (0 < n → n < body.length + 8 →
      ubxDecode par (junk ++ (ubxFrame par cls id body).take n) = .partialFrame junk.length) ∧
    ubxDecode par junk = .notFound

/-! ### ubx engine -/

/-- UBX.SENDRECV (R280, R297): refused while a call is in progress, failed with nothing sent when the write fails,
otherwise sent and armed with no result posted. -/
def Obligations.SendrecvArmsTheEngine : Prop :=
  ∀ (cls id : Byte) (ec ei : Option Byte) (maxBody : Half) (timeout : Word) (body : List Byte) (s : State),
    exec (.ubxSendrecv cls id ec ei maxBody timeout body) s = .next
      (if s.ubx.phase = .poll then { s with port := ⟨some (errWord s.par .notSupported), []⟩ }
       else if s.env.writeOk = false then { s with port := ⟨some (errWord s.par .transportError), []⟩ }
       else { s with
         uart := { s.uart with tx := s.uart.tx ++ ubxFrame s.par cls id body }
         ubx := { phase := .poll, acc := [], cap := BitVec.ofNat 18 (2 * (maxBody.toNat + s.par.ubxOverhead))
                  maxBody := maxBody
                  expClass := ec, expId := ei, ack := false, reqClass := cls, reqId := id
                  t0 := s.env.now, timeout := timeout }
         port := ⟨none, []⟩ })

/-- UBX.SENDONLY (R281, R297): as UBX.SENDRECV, expecting class 0x05 with any id and a body of at most two bytes. -/
def Obligations.SendonlyArmsTheAckCheck : Prop :=
  ∀ (cls id : Byte) (timeout : Word) (body : List Byte) (s : State),
    exec (.ubxSendonly cls id timeout body) s = .next
      (if s.ubx.phase = .poll then { s with port := ⟨some (errWord s.par .notSupported), []⟩ }
       else if s.env.writeOk = false then { s with port := ⟨some (errWord s.par .transportError), []⟩ }
       else { s with
         uart := { s.uart with tx := s.uart.tx ++ ubxFrame s.par cls id body }
         ubx := { phase := .poll, acc := [], cap := BitVec.ofNat 18 (2 * (2 + s.par.ubxOverhead)), maxBody := 2
                  expClass := some 0x05, expId := none, ack := true, reqClass := cls, reqId := id
                  t0 := s.env.now, timeout := timeout }
         port := ⟨none, []⟩ })

/-- The deadline is tested before anything is read, and a poll of an empty line changes nothing (R291, R292). -/
def Obligations.EngineDeadlineComesFirst : Prop :=
  ∀ s : State, s.ubx.phase = .poll →
    (s.ubx.timeout.toNat ≤ (s.env.now - s.ubx.t0).toNat → s.engineStep =
      { s with ubx := { s.ubx with phase := .idle, acc := [] }, port := ⟨some (errWord s.par .timeout), []⟩ }) ∧
    ((s.env.now - s.ubx.t0).toNat < s.ubx.timeout.toNat → s.uart.rx = [] →
      s.engineStep = { s with port := ⟨none, []⟩ })

/-- An ENGINE step whose accumulated bytes hold, after any number of frames that do not match, the matching one,
answers with it (R290, R294, R295, R296): the frames may stand among junk with no sync byte, and whatever follows the
match is dropped. -/
def Obligations.EngineAnswersTheMatchingFrame : Prop :=
  ∀ (s : State) (skipped : List Traffic) (hit : Traffic) (tail : List Byte) (room : Nat),
    s.ubx.phase = .poll → (s.env.now - s.ubx.t0).toNat < s.ubx.timeout.toNat → s.uart.rx ≠ [] →
    room = min s.uart.rx.length (s.ubx.cap.toNat - s.ubx.acc.length) →
    s.ubx.acc ++ s.uart.rx.take room = skipped.flatMap (Traffic.bytes s.par) ++ (hit.bytes s.par ++ tail) →
    (∀ f ∈ skipped, f.Clean s.par ∧
      ¬ ((s.ubx.expClass = none ∨ s.ubx.expClass = some f.cls) ∧ (s.ubx.expId = none ∨ s.ubx.expId = some f.id))) →
    hit.Clean s.par → (s.ubx.expClass = none ∨ s.ubx.expClass = some hit.cls) →
    (s.ubx.expId = none ∨ s.ubx.expId = some hit.id) →
    s.engineStep = { s with
      uart := { s.uart with rx := s.uart.rx.drop room }
      ubx := { s.ubx with phase := .idle, acc := [] }
      port :=
        if s.ubx.ack = true then
          ⟨some (if hit.id = Config.ubxIdAck ∧ hit.body = [s.ubx.reqClass, s.ubx.reqId] then 0
            else errWord s.par .deviceError), []⟩
        else ⟨some (BitVec.ofNat 32 (min hit.body.length s.ubx.maxBody.toNat)),
          [hit.cls, hit.id] ++ hit.body.take s.ubx.maxBody.toNat⟩ }

/-- An ENGINE step that finds no matching frame (R290, R293, R294): the frames that do not match are dropped with the
junk before them; of what follows them the last `maxBody + UBX_OVERHEAD` bytes stay accumulated when a frame has
started in it, and nothing when none has; no result is posted. So an incomplete frame is kept whole while it and the
junk before it fit in `maxBody + UBX_OVERHEAD` bytes. What starts a frame is `decode` (44_ubx_codec.md R253). -/
def Obligations.EngineKeepsAPartialFrame : Prop :=
  ∀ (s : State) (skipped : List Traffic) (tail : List Byte) (room keep : Nat),
    s.ubx.phase = .poll → (s.env.now - s.ubx.t0).toNat < s.ubx.timeout.toNat → s.uart.rx ≠ [] →
    room = min s.uart.rx.length (s.ubx.cap.toNat - s.ubx.acc.length) →
    keep = s.ubx.maxBody.toNat + s.par.ubxOverhead →
    s.ubx.acc ++ s.uart.rx.take room = skipped.flatMap (Traffic.bytes s.par) ++ tail →
    (∀ f ∈ skipped, f.Clean s.par ∧
      ¬ ((s.ubx.expClass = none ∨ s.ubx.expClass = some f.cls) ∧ (s.ubx.expId = none ∨ s.ubx.expId = some f.id))) →
    (∀ start, ubxDecode s.par tail = .partialFrame start → s.engineStep = { s with
      uart := { s.uart with rx := s.uart.rx.drop room }
      ubx := { s.ubx with acc := tail.drop (tail.length - keep) }, port := ⟨none, []⟩ }) ∧
    (ubxDecode s.par tail = .notFound → s.engineStep = { s with
      uart := { s.uart with rx := s.uart.rx.drop room }, ubx := { s.ubx with acc := [] }, port := ⟨none, []⟩ }) ∧
    ∀ (f : Traffic) (n : Nat), f.Clean s.par → 0 < n → n < f.body.length + 8 →
      tail = f.junk ++ (ubxFrame s.par f.cls f.id f.body).take n → tail.length ≤ keep →
      s.engineStep = { s with
        uart := { s.uart with rx := s.uart.rx.drop room }, ubx := { s.ubx with acc := tail }, port := ⟨none, []⟩ }

/-- An ENGINE step before the deadline with bytes on the line always reads at least one, and leaves at most
`maxBody + UBX_OVERHEAD` bytes accumulated, half of its buffer (R293). -/
def Obligations.EngineAlwaysProgresses : Prop :=
  ∀ s : State, s.par.Legal → s.ubx.Inv s.par → s.ubx.phase = .poll →
    (s.env.now - s.ubx.t0).toNat < s.ubx.timeout.toNat → s.uart.rx ≠ [] →
    s.engineStep.uart.rx.length < s.uart.rx.length ∧
    s.engineStep.ubx.acc.length ≤ s.ubx.maxBody.toNat + s.par.ubxOverhead ∧
    2 * s.engineStep.ubx.acc.length ≤ s.ubx.cap.toNat ∧
    (s.engineStep.ubx.phase = .idle ↔ s.engineStep.port.result ≠ none)

/-- A whole call, as three steps of the machine (R280, R290, R295, R298 (a)): HOST sends, LINE answers with one
matching frame, ENGINE posts its class, id and body before the deadline. -/
def Obligations.SendReceiveCycle : Prop :=
  ∀ (s : State) (send line engine : Config.Turn) (rest : List Config.Turn) (cls id cls' id' : Byte) (ec ei : Option Byte)
    (maxBody : Half) (timeout : Word) (body body' : List Byte),
    s.par.Legal → s.env.agenda = send :: line :: engine :: rest → s.env.words = [] → s.env.input = [] →
    s.ubx.phase = .idle → s.uart.rx = [] → body.length < 65536 →
    send.agent = .host (encode (.ubxSendrecv cls id ec ei maxBody timeout body)).words body → send.writeOk = true →
    line.agent = .line (ubxFrame s.par cls' id' body') 0 → engine.agent = .engine →
    (line.elapsed + engine.elapsed).toNat < timeout.toNat →
    body'.length ≤ maxBody.toNat → (ec = none ∨ ec = some cls') → (ei = none ∨ ei = some id') →
    ∃ t : State, core.run 3 s = .next t ∧ t.port = ⟨some (BitVec.ofNat 32 body'.length), [cls', id'] ++ body'⟩ ∧
      t.ubx.phase = .idle ∧ t.uart.tx = s.uart.tx ++ ubxFrame s.par cls id body ∧ t.uart.rx = [] ∧
      t.rb = s.rb ∧ t.edm = s.edm ∧ t.link = s.link ∧ t.env.agenda = rest

/-! ### UART, LINK and the agents -/

/-- UART.WRITE, UART.AVAIL, UART.READ, LINK.PUMP and LINK.DRAIN (R311, R312, R313, R316, R318). -/
def Obligations.UartAndLinkCommands : Prop :=
  ∀ (d : List Byte) (n : Half) (mode : PumpMode) (cursor : Byte) (enable : Bool) (s : State),
    exec (.uartWrite d) s = .next
      (if s.env.writeOk = true
       then { s with uart := { s.uart with tx := s.uart.tx ++ d }, port := ⟨some (BitVec.ofNat 32 d.length), []⟩ }
       else { s with port := ⟨some (errWord s.par .transportError), []⟩ }) ∧
    exec .uartAvail s = .next { s with port := ⟨some (BitVec.ofNat 32 (min s.uart.rx.length 2147483647)), []⟩ } ∧
    exec (.uartRead n) s = .next { s with
      uart := { s.uart with rx := s.uart.rx.drop n.toNat }
      port := ⟨some (BitVec.ofNat 32 (min n.toNat s.uart.rx.length)), s.uart.rx.take n.toNat⟩ } ∧
    exec (.linkPump mode) s = .next { s with link := { s.link with pump := mode }, port := ⟨some 0, []⟩ } ∧
    exec (.linkDrain cursor enable) s = .next
      (if s.par.nmax < cursor.toNat then { s with port := ⟨some (errWord s.par .invalidParameter), []⟩ }
       else { s with link := { s.link with drainCur := cursor, drainEn := enable }, port := ⟨some 0, []⟩ })

/-- A PUMP step moves the first received byte into the ring buffer with the effect of RB.ADD or RB.FADD, as its
mode says, and reports nothing (R317). A turn given to a PUMP that is not enabled does nothing (log entry 11). -/
def Obligations.PumpStepAddsOneByte : Prop :=
  ∀ s : State,
    (∀ (b : Byte) (rest : List Byte), s.rb.created = true → s.uart.rx = b :: rest → s.link.pump ≠ .off →
      ∃ t, exec (if s.link.pump = .add then .rbAdd [b] else .rbFadd [b]) s = .next t ∧
        s.pumpStep = { s with rb := t.rb, mutex := .free, uart := { s.uart with rx := rest }, port := ⟨none, []⟩ }) ∧
    (s.rb.created = false ∨ s.uart.rx = [] ∨ s.link.pump = .off → s.pumpStep = { s with port := ⟨none, []⟩ })

/-- A DRAIN step is RB.READH of one byte through its cursor and then EDM.PARSE of that byte, with the event reported
to no one (R319). A turn given to a DRAIN that is not enabled does nothing (log entry 11). -/
def Obligations.DrainStepReadsAndParses : Prop :=
  ∀ s : State,
    (s.link.drainEn = true → s.rb.created = true → s.edm.state ≠ .waitForEventProcessing →
      s.rb.readable s.link.drainCur.toNat = true → 0 < s.rb.unread s.link.drainCur.toNat →
      ∃ (b : Byte) (t u : State), exec (.rbReadh s.link.drainCur 1) s = .next t ∧ t.port = ⟨some 1, [b]⟩ ∧
        exec (.edmParse b) t = .next u ∧ s.drainStep = { u with port := ⟨none, []⟩ }) ∧
    (s.link.drainEn = false ∨ s.rb.created = false ∨ s.edm.state = .waitForEventProcessing ∨
      s.rb.readable s.link.drainCur.toNat = false ∨ s.rb.unread s.link.drainCur.toNat = 0 →
      s.drainStep = { s with port := ⟨none, []⟩ })

/-- The state each agent may write is fixed (60_exceptions.md R352); none writes the inputs of the step relation, the
parameters among them (10_state.md R20). -/
def Obligations.AgentsWriteOnlyTheirState : Prop :=
  ∀ s : State,
    (s.pumpStep.edm = s.edm ∧ s.pumpStep.ubx = s.ubx ∧ s.pumpStep.uart.tx = s.uart.tx ∧ s.pumpStep.link = s.link ∧
      s.pumpStep.env = s.env ∧ s.pumpStep.par = s.par) ∧
    (s.rb.SameButCursors s.drainStep.rb ∧ (∀ k, k ≠ s.link.drainCur.toNat → s.drainStep.rb.cursor k = s.rb.cursor k) ∧
      s.drainStep.ubx = s.ubx ∧ s.drainStep.uart = s.uart ∧ s.drainStep.link = s.link ∧ s.drainStep.env = s.env ∧
      s.drainStep.par = s.par) ∧
    (s.engineStep.rb = s.rb ∧ s.engineStep.mutex = s.mutex ∧ s.engineStep.edm = s.edm ∧
      s.engineStep.uart.tx = s.uart.tx ∧ s.engineStep.link = s.link ∧ s.engineStep.env = s.env ∧
      s.engineStep.par = s.par)

/-- A command writes the state of one unit at most (the "written by" columns of 10_state.md R22, R30, R36, R40, R42;
70_reset_and_hazards.md R371), but for the two ubx calls, which also append to `uart.tx`. No command writes the inputs
of the step relation: the environment's and the parameters (10_state.md R20). -/
def Obligations.CommandsWriteOnlyTheirUnit : Prop :=
  ∀ (i : Instr) (s t : State), exec i s = .next t →
    (ownerOf i ≠ .ringBuffer → t.rb = s.rb ∧ t.mutex = s.mutex) ∧
    (ownerOf i ≠ .edmParser → t.edm = s.edm) ∧
    (ownerOf i ≠ .ubxEngine → t.ubx = s.ubx) ∧
    (ownerOf i ≠ .uart → t.uart.rx = s.uart.rx) ∧
    (ownerOf i ≠ .uart → ownerOf i ≠ .ubxEngine → t.uart.tx = s.uart.tx) ∧
    (ownerOf i = .ubxEngine → ∃ sent, t.uart.tx = s.uart.tx ++ sent) ∧
    (ownerOf i ≠ .link → t.link = s.link) ∧ t.env = s.env ∧ t.par = s.par

/-- Received bytes leave `uart.rx` from its front, in order, each once, and bytes to send join the back of `uart.tx`
(46_uart_link.md R320, 20_memory.md R79), over every step, whether its turn stands on the agenda or is the
environment's free choice: a HOST command's go to the HOST, a PUMP step takes one, the DRAIN none. -/
def Obligations.ReceivedBytesLeaveInOrder : Prop :=
  ∀ (s t u : State) (turn : Config.Turn), s.Takes turn u → step s = .next t →
    match turn.agent with
    | .host _ _ => (∃ taken, s.uart.rx = taken ++ t.uart.rx ∧ (taken = [] ∨ t.port.out = taken)) ∧
        ∃ sent, t.uart.tx = s.uart.tx ++ sent
    | .line received sent => t.uart.rx = s.uart.rx ++ received ∧ t.uart.tx = s.uart.tx.drop sent
    | .pump => (t.uart.rx = s.uart.rx ∨ ∃ b, s.uart.rx = b :: t.uart.rx) ∧ t.uart.tx = s.uart.tx
    | .drain => t.uart = s.uart
    | .engine => (∃ taken, s.uart.rx = taken ++ t.uart.rx) ∧ t.uart.tx = s.uart.tx

end
end

