-- ==== Sys2Proof/Laws/Decode.lean ====
section
/-!
SUPPORT. The fields of a command word: what was put in comes out, and a word agrees with a row of the
table when each of its fields does.
-/

namespace Sys2Proof

theorem getLsbD_commandWord (op h : Byte) (n : Half) (i : Nat) :
    (commandWord op h n).getLsbD i =
      if i < 16 then n.getLsbD i else if i < 24 then h.getLsbD (i - 16) else op.getLsbD (i - 24) := by
  have h1 : (commandWord op h n).getLsbD i = if i < 16 then n.getLsbD i else (op ++ h).getLsbD (i - 16) :=
    BitVec.getLsbD_append
  have h2 : (op ++ h).getLsbD (i - 16) = if i - 16 < 8 then h.getLsbD (i - 16) else op.getLsbD (i - 16 - 8) :=
    BitVec.getLsbD_append
  rw [h1, h2]
  by_cases a : i < 16
  · simp [a]
  · by_cases b : i < 24
    · simp [a, b, show i - 16 < 8 by omega]
    · simp [a, b, show ¬ i - 16 < 8 by omega, show i - 16 - 8 = i - 24 by omega]

@[simp] theorem nField_commandWord (op h : Byte) (n : Half) : nField (commandWord op h n) = n := by
  apply BitVec.eq_of_getLsbD_eq
  intro i hi
  simp only [nField, BitVec.getLsbD_extractLsb', getLsbD_commandWord]
  simp [hi]

@[simp] theorem hField_commandWord (op h : Byte) (n : Half) : hField (commandWord op h n) = h := by
  apply BitVec.eq_of_getLsbD_eq
  intro i hi
  simp only [hField, BitVec.getLsbD_extractLsb', getLsbD_commandWord]
  simp [hi, show 16 + i < 24 by omega]

@[simp] theorem opField_commandWord (op h : Byte) (n : Half) : opField (commandWord op h n) = op := by
  apply BitVec.eq_of_getLsbD_eq
  intro i hi
  simp only [opField, BitVec.getLsbD_extractLsb', getLsbD_commandWord]
  simp [hi, show ¬ 24 + i < 16 by omega]

/-- A command word is its three fields. -/
theorem commandWord_fields (w : Word) : commandWord (opField w) (hField w) (nField w) = w := by
  apply BitVec.eq_of_getLsbD_eq
  intro i hi
  simp only [getLsbD_commandWord, opField, hField, nField, BitVec.getLsbD_extractLsb']
  by_cases a : i < 16
  · simp [a]
  · by_cases b : i < 24
    · simp [a, b, show i - 16 < 8 by omega, show 16 + (i - 16) = i by omega]
    · simp [a, b, show i - 24 < 8 by omega, show 24 + (i - 24) = i by omega]

/-- A command word agrees with a row under its mask when each field does. -/
theorem commandWord_and_eq {op h : Byte} {n : Half} {m v : Word} (h1 : op &&& opField m = opField v)
    (h2 : h &&& hField m = hField v) (h3 : n &&& nField m = nField v) : commandWord op h n &&& m = v := by
  apply BitVec.eq_of_getLsbD_eq
  intro i hi
  rw [← commandWord_fields m, ← commandWord_fields v, BitVec.getLsbD_and]
  simp only [getLsbD_commandWord, ← h1, ← h2, ← h3, BitVec.getLsbD_and]
  split
  · rfl
  · split <;> rfl

/-- A field the row leaves open agrees with it. -/
theorem and_open_field {k : Nat} (x : BitVec k) {m v : BitVec k} (hm : m = 0) (hv : v = 0) : x &&& m = v := by
  simp [hm, hv]

/-! ### Extension words -/

theorem getLsbD_idWord (id : Byte) (k : Nat) :
    (idWord id).getLsbD k = if k < 8 then id.getLsbD k else (0 : BitVec 24).getLsbD (k - 8) := BitVec.getLsbD_append

theorem getLsbD_maxBodyWord (m : Half) (k : Nat) :
    (maxBodyWord m).getLsbD k = if k < 16 then m.getLsbD k else (0 : Half).getLsbD (k - 16) := BitVec.getLsbD_append

theorem getLsbD_expectWord (id : Byte) (c i : Option Byte) (k : Nat) : (expectWord id c i).getLsbD k =
    if k < 8 then id.getLsbD k
    else if k < 16 then (c.getD 0).getLsbD (k - 8)
    else if k < 24 then (i.getD 0).getLsbD (k - 16)
    else if k < 25 then (BitVec.ofBool c.isNone).getLsbD (k - 24)
    else if k < 26 then (BitVec.ofBool i.isNone).getLsbD (k - 25)
    else false := by
  unfold expectWord
  simp only [BitVec.getLsbD_append]
  split
  · rfl
  by_cases b : k < 16
  · rw [if_pos (by omega), if_pos b]
  rw [if_neg (by omega), if_neg b]
  by_cases c : k < 24
  · rw [if_pos (by omega), if_pos c, show k - 8 - 8 = k - 16 by omega]
  rw [if_neg (by omega), if_neg c]
  by_cases d : k < 25
  · rw [if_pos (by omega), if_pos d, show k - 8 - 8 - 8 = k - 24 by omega]
  rw [if_neg (by omega), if_neg d]
  by_cases e : k < 26
  · rw [if_pos (by omega), if_pos e, show k - 8 - 8 - 8 - 1 = k - 25 by omega]
  rw [if_neg (by omega), if_neg e]
  simp

end Sys2Proof
end

