-- ==== Sys2Proof/Laws/Memory.lean ====
section
/-!
SUPPORT. The laws of a byte space: every write keeps the canonical form, a read after a write gives the
value written, a write leaves every other index alone; and the same for the ring accesses.
-/

namespace Sys2Proof.Machine

/-! ### The canonical form -/

theorem Memory.wfFrom_mono {lo lo' : Nat} (h : lo' ≤ lo) : ∀ {m : Memory}, Memory.wfFrom lo m = true → Memory.wfFrom lo' m = true
  | [], _ => rfl
  | (a, b) :: rest, hm => by
    simp only [Memory.wfFrom, Bool.and_eq_true, decide_eq_true_eq] at hm ⊢
    exact ⟨⟨h.trans hm.1.1, hm.1.2⟩, hm.2⟩

theorem Memory.read_of_lt : ∀ {m : Memory} {lo i : Nat}, Memory.wfFrom lo m = true → i < lo → m.read i = Config.unlisted
  | [], _, _, _, _ => rfl
  | (a, b) :: rest, lo, i, hm, hi => by
    simp only [Memory.wfFrom, Bool.and_eq_true, decide_eq_true_eq] at hm
    have : a ≠ i := by omega
    simp only [Memory.read, this, if_false]
    exact Memory.read_of_lt hm.2 (by omega)

theorem Memory.wfFrom_write : ∀ {m : Memory} {lo i : Nat} (v : Byte), Memory.wfFrom lo m = true → lo ≤ i →
    Memory.wfFrom lo (m.write i v) = true
  | [], lo, i, v, _, hi => by
    unfold Memory.write
    split <;> simp_all [Memory.wfFrom]
  | (a, b) :: rest, lo, i, v, hm, hi => by
    simp only [Memory.wfFrom, Bool.and_eq_true, decide_eq_true_eq] at hm
    unfold Memory.write
    split
    · split
      · simp [Memory.wfFrom, hm]
      · simp [Memory.wfFrom, *]
    · split
      · split
        · exact Memory.wfFrom_mono (by omega) hm.2
        · subst i; simp [Memory.wfFrom, *]
      · simp only [Memory.wfFrom, Bool.and_eq_true, decide_eq_true_eq]
        exact ⟨hm.1, Memory.wfFrom_write v hm.2 (by omega)⟩

/-- A write keeps the canonical form. -/
theorem Memory.wf_write {m : Memory} (i : Nat) (v : Byte) (h : m.wf = true) : (m.write i v).wf = true :=
  Memory.wfFrom_write v h (Nat.zero_le i)

theorem Memory.wf_writeRing (size : Nat) : ∀ (d : List Byte) (m : Memory) (addr : Nat), m.wf = true →
    (m.writeRing size addr d).wf = true
  | [], _, _, h => h
  | _ :: vs, _, addr, h => Memory.wf_writeRing size vs _ (addr + 1) (Memory.wf_write _ _ h)

theorem Memory.wf_nil : Memory.wf [] = true := rfl

/-! ### Bounds -/

theorem Memory.below_write {bound : Nat} : ∀ {m : Memory} {i : Nat} (v : Byte), m.below bound → i < bound →
    (m.write i v).below bound
  | [], i, v, _, hi => by
    unfold Memory.write
    split <;> simp_all [Memory.below]
  | (a, b) :: rest, i, v, hm, hi => by
    have ha : a < bound := hm (a, b) (by simp)
    have hr : Memory.below rest bound := fun c hc => hm c (by simp [hc])
    unfold Memory.write
    split
    · split
      · exact hm
      · intro c hc
        rcases List.mem_cons.1 hc with rfl | hc
        · exact hi
        · exact hm c hc
    · split
      · split
        · exact hr
        · intro c hc
          rcases List.mem_cons.1 hc with rfl | hc
          · exact hi
          · exact hr c hc
      · intro c hc
        rcases List.mem_cons.1 hc with rfl | hc
        · exact ha
        · exact Memory.below_write v hr hi c hc

theorem Memory.below_writeRing {bound size : Nat} (hs : 0 < size) (hb : size ≤ bound) :
    ∀ (d : List Byte) (m : Memory) (addr : Nat), m.below bound → (m.writeRing size addr d).below bound
  | [], _, _, h => h
  | _ :: vs, _, addr, h =>
    Memory.below_writeRing hs hb vs _ (addr + 1)
      (Memory.below_write _ h (lt_of_lt_of_le (Nat.mod_lt _ hs) hb))

/-! ### Reads after writes -/

theorem Memory.read_write_from : ∀ {m : Memory} {lo : Nat} (i j : Nat) (v : Byte), Memory.wfFrom lo m = true →
    (m.write i v).read j = if j = i then v else m.read j
  | [], lo, i, j, v, _ => by
    unfold Memory.write
    split
    · rename_i hv; by_cases h : j = i <;> simp [Memory.read, h, hv]
    · by_cases h : j = i
      · simp [Memory.read, h]
      · have : i ≠ j := fun e => h e.symm
        simp [Memory.read, h, this]
  | (a, b) :: rest, lo, i, j, v, hm => by
    have hm' := hm
    simp only [Memory.wfFrom, Bool.and_eq_true, decide_eq_true_eq] at hm
    unfold Memory.write
    split
    · rename_i hlt
      have hi : Memory.read ((a, b) :: rest) i = Config.unlisted := by
        have ha : a ≠ i := by omega
        simp only [Memory.read, ha, if_false]
        exact Memory.read_of_lt hm.2 (by omega)
      split
      · rename_i hv
        by_cases h : j = i
        · subst h; rw [if_pos rfl, hi, hv]
        · simp [h]
      · by_cases h : j = i
        · subst h; simp [Memory.read]
        · have : i ≠ j := fun e => h e.symm
          simp [Memory.read, h, this]
    · split
      · rename_i hge heq
        subst heq
        split
        · by_cases h : j = i
          · subst h
            simp only [if_true, *]
            exact Memory.read_of_lt hm.2 (by omega)
          · have : i ≠ j := fun e => h e.symm
            simp [Memory.read, h, this]
        · by_cases h : j = i
          · subst h; simp [Memory.read]
          · have : i ≠ j := fun e => h e.symm
            simp [Memory.read, h, this]
      · simp only [Memory.read]
        rw [Memory.read_write_from i j v hm.2]
        by_cases h : a = j
        · have : j ≠ i := by omega
          simp [h, this]
        · simp [h]

/-- A read after a write: the value written at that index, the old byte everywhere else. -/
theorem Memory.read_write {m : Memory} (i j : Nat) (v : Byte) (h : m.wf = true) :
    (m.write i v).read j = if j = i then v else m.read j :=
  Memory.read_write_from i j v h

theorem Memory.read_write_same {m : Memory} (i : Nat) (v : Byte) (h : m.wf = true) : (m.write i v).read i = v := by
  simp [Memory.read_write i i v h]

theorem Memory.read_write_of_ne {m : Memory} {i j : Nat} (v : Byte) (h : m.wf = true) (hj : j ≠ i) :
    (m.write i v).read j = m.read j := by
  simp [Memory.read_write i j v h, hj]

/-! ### Ring accesses -/

@[simp] theorem Memory.length_readRing (m : Memory) (size : Nat) : ∀ (addr n : Nat), (m.readRing size addr n).length = n
  | _, 0 => rfl
  | addr, n + 1 => by simp [Memory.readRing, Memory.length_readRing m size (addr + 1) n]

/-- Byte i of `MemRead(addr, n)` is the byte at `(addr + i) mod size`. -/
theorem Memory.getElem?_readRing (m : Memory) (size : Nat) : ∀ (addr n i : Nat), i < n →
    (m.readRing size addr n)[i]? = some (m.read ((addr + i) % size))
  | _, 0, _, h => absurd h (Nat.not_lt_zero _)
  | addr, n + 1, 0, _ => by simp [Memory.readRing]
  | addr, n + 1, i + 1, h => by
    simp only [Memory.readRing, List.getElem?_cons_succ]
    rw [Memory.getElem?_readRing m size (addr + 1) n i (by omega)]
    congr 3; omega

theorem Memory.readRing_add (m : Memory) (size : Nat) : ∀ (addr a b : Nat),
    m.readRing size addr (a + b) = m.readRing size addr a ++ m.readRing size (addr + a) b
  | addr, 0, b => by simp [Memory.readRing]
  | addr, a + 1, b => by
    rw [show a + 1 + b = (a + b) + 1 by omega]
    simp only [Memory.readRing, List.cons_append]
    rw [Memory.readRing_add m size (addr + 1) a b, show addr + 1 + a = addr + (a + 1) by omega]

/-- The start index counts modulo the size only. -/
theorem Memory.readRing_mod (m : Memory) (size addr n : Nat) :
    m.readRing size (addr % size) n = m.readRing size addr n := by
  apply List.ext_getElem?
  intro i
  by_cases h : i < n
  · rw [Memory.getElem?_readRing _ _ _ _ _ h, Memory.getElem?_readRing _ _ _ _ _ h]; simp
  · rw [List.getElem?_eq_none (by simp; omega), List.getElem?_eq_none (by simp; omega)]

/-- An index no byte of the write falls on keeps its byte. -/
theorem Memory.read_writeRing_of_ne (size j : Nat) : ∀ (d : List Byte) (m : Memory) (addr : Nat), m.wf = true →
    (∀ i, i < d.length → (addr + i) % size ≠ j) → (m.writeRing size addr d).read j = m.read j
  | [], _, _, _, _ => rfl
  | v :: vs, m, addr, h, hj => by
    simp only [Memory.writeRing]
    rw [Memory.read_writeRing_of_ne size j vs _ (addr + 1) (Memory.wf_write _ _ h)
      (fun i hi => by have := hj (i + 1) (by simpa using hi); rwa [show addr + 1 + i = addr + (i + 1) by omega])]
    exact Memory.read_write_of_ne v h (fun e => hj 0 (by simp) (by simpa using e.symm))

/-- Byte i of the write stands at `(addr + i) mod size` unless a later byte fell on the same index. -/
theorem Memory.read_writeRing (size : Nat) (hs : 0 < size) : ∀ (d : List Byte) (m : Memory) (addr i : Nat), m.wf = true →
    (hi : i < d.length) → d.length ≤ i + size → (m.writeRing size addr d).read ((addr + i) % size) = d[i]
  | [], _, _, _, _, hi, _ => absurd hi (Nat.not_lt_zero _)
  | v :: vs, m, addr, 0, h, _, hl => by
    simp only [Memory.writeRing, Nat.add_zero, List.getElem_cons_zero]
    rw [Memory.read_writeRing_of_ne size _ vs _ (addr + 1) (Memory.wf_write _ _ h)]
    · exact Memory.read_write_same _ _ h
    · intro i hi e
      simp only [List.length_cons] at hl
      have hc : (addr + 1 + i) ≡ addr [MOD size] := e
      have h1 : addr + (1 + i) ≡ addr + 0 [MOD size] := by simpa [Nat.add_assoc] using hc
      have h2 := Nat.ModEq.add_left_cancel' addr h1
      have h3 := Nat.le_of_dvd (by omega) ((Nat.modEq_zero_iff_dvd).1 h2)
      omega
  | v :: vs, m, addr, i + 1, h, hi, hl => by
    simp only [Memory.writeRing, List.getElem_cons_succ]
    rw [show addr + (i + 1) = addr + 1 + i by omega]
    exact Memory.read_writeRing size hs vs _ (addr + 1) i (Memory.wf_write _ _ h) (by simpa using hi)
      (by simp only [List.length_cons] at hl; omega)

theorem Memory.writeRing_append (m : Memory) (size : Nat) : ∀ (addr : Nat) (d e : List Byte),
    m.writeRing size addr (d ++ e) = (m.writeRing size addr d).writeRing size (addr + d.length) e := by
  intro addr d
  induction d generalizing m addr with
  | nil => intro e; simp [Memory.writeRing]
  | cons v vs ih =>
    intro e
    simp only [List.cons_append, Memory.writeRing, ih, List.length_cons]
    rw [show addr + 1 + vs.length = addr + (vs.length + 1) by omega]

/-! ### Slices of the frame buffer -/

@[simp] theorem Memory.length_slice (m : Memory) : ∀ (off n : Nat), (m.slice off n).length = n
  | _, 0 => rfl
  | off, n + 1 => by simp [Memory.slice, Memory.length_slice m (off + 1) n]

theorem Memory.getElem?_slice (m : Memory) : ∀ (off n i : Nat), i < n → (m.slice off n)[i]? = some (m.read (off + i))
  | _, 0, _, h => absurd h (Nat.not_lt_zero _)
  | off, n + 1, 0, _ => by simp [Memory.slice]
  | off, n + 1, i + 1, h => by
    simp only [Memory.slice, List.getElem?_cons_succ]
    rw [Memory.getElem?_slice m (off + 1) n i (by omega)]
    congr 2; omega

end Sys2Proof.Machine
end

