-- ==== Sys2Proof/Laws/Edm.lean ====
section
/-!
SUPPORT. The EDM parser: one lemma per state for what EDM.PARSE's operation does there (42_edm_parser.md
R190), and what each of those can change.
-/

namespace Sys2Proof.Machine

theorem Edm.parse_start {e : Edm} (h : e.state = .parseStartByte) (par : Config.Params) (b : Byte) (d : Bool) :
    e.parse par b d = (e.onStart b, none) := by simp [Edm.parse, h]

theorem Edm.parse_length {e : Edm} (h : e.state = .parsePayloadLength) (par : Config.Params) (b : Byte) (d : Bool) :
    e.parse par b d = (e.onLength par b d, none) := by simp [Edm.parse, h]

theorem Edm.parse_payload {e : Edm} (h : e.state = .accumulatePayload) (par : Config.Params) (b : Byte) (d : Bool) :
    e.parse par b d = (e.onPayload b, none) := by simp [Edm.parse, h]

theorem Edm.parse_tail {e : Edm} (h : e.state = .parseTailByte) (par : Config.Params) (b : Byte) (d : Bool) :
    e.parse par b d = e.onTail par b := by simp [Edm.parse, h]

theorem Edm.parse_wait {e : Edm} (h : e.state = .waitForEventProcessing) (par : Config.Params) (b : Byte) (d : Bool) :
    e.parse par b d = (e, none) := by simp [Edm.parse, h]

/-- Everything the completion of the length can do (R193). -/
theorem Edm.lengthComplete_cases (e : Edm) (par : Config.Params) (d : Bool) :
    e.lengthComplete par d = { e with state := .parseStartByte } ∨
    (Config.edmMinLen ≤ e.len.toNat ∧ e.len.toNat ≤ par.edmMaxLen ∧ Config.edmStack < e.len.toNat ∧ heapAnswer par d = true ∧
      e.lengthComplete par d = { e with heap := true, cnt := 0, state := .accumulatePayload }) ∨
    (Config.edmMinLen ≤ e.len.toNat ∧ e.len.toNat ≤ par.edmMaxLen ∧ e.len.toNat ≤ Config.edmStack ∧
      e.lengthComplete par d = { e with heap := false, cnt := 0, state := .accumulatePayload }) := by
  unfold Edm.lengthComplete
  split
  · exact .inl rfl
  · split
    · exact .inl rfl
    · split
      · split
        · exact .inr (.inl ⟨by omega, by omega, by omega, ‹_›, rfl⟩)
        · exact .inl rfl
      · exact .inr (.inr ⟨by omega, by omega, by omega, rfl⟩)

/-- Everything a tail byte can do (R195). -/
theorem Edm.onTail_cases (e : Edm) (par : Config.Params) (b : Byte) :
    (b ≠ Config.edmTail ∧ e.onTail par b = (e.abort, none)) ∨
    (b = Config.edmTail ∧ e.frameEvent par = none ∧ e.onTail par b = (e.abort, none)) ∨
    (∃ ev, b = Config.edmTail ∧ e.frameEvent par = some ev ∧
      e.onTail par b = ({ e with event := some ev, state := .waitForEventProcessing }, some ev)) := by
  unfold Edm.onTail
  split
  · exact .inl ⟨‹_›, rfl⟩
  · rename_i hb
    have hb : b = Config.edmTail := by simpa using hb
    cases he : e.frameEvent par with
    | none => exact .inr (.inl ⟨hb, rfl, rfl⟩)
    | some ev => exact .inr (.inr ⟨ev, hb, rfl, rfl⟩)

/-- The event of a frame depends only on the length and the buffer. -/
theorem Edm.frameEvent_congr {e e' : Edm} (hl : e'.len = e.len) (hb : e'.buf = e.buf) (par : Config.Params) :
    e'.frameEvent par = e.frameEvent par := by
  simp [Edm.frameEvent, hl, hb]

/-! ### 16-bit fields -/

theorem hiByte_halfOf (a b : Byte) : hiByte (halfOf a b) = a := by
  apply BitVec.eq_of_getLsbD_eq
  intro i hi
  simp only [halfOf, hiByte, BitVec.getLsbD_extractLsb', BitVec.getLsbD_append]
  simp [hi]

theorem loByte_halfOf (a b : Byte) : loByte (halfOf a b) = b := by
  apply BitVec.eq_of_getLsbD_eq
  intro i hi
  simp only [halfOf, loByte, BitVec.getLsbD_extractLsb', BitVec.getLsbD_append]
  simp [hi]

theorem bigEndian_halfOf (a b : Byte) : bigEndian (halfOf a b) = [a, b] := by
  simp [bigEndian, hiByte_halfOf, loByte_halfOf]

theorem hiByte_ofNat (n : Nat) : hiByte (BitVec.ofNat 16 n) = BitVec.ofNat 8 (n / 256) := by
  apply BitVec.eq_of_toNat_eq
  simp [hiByte, Nat.shiftRight_eq_div_pow]; omega

theorem loByte_ofNat (n : Nat) : loByte (BitVec.ofNat 16 n) = BitVec.ofNat 8 n := by
  apply BitVec.eq_of_toNat_eq
  simp [loByte]

theorem halfOf_zero_right (b : Byte) : halfOf b 0 = BitVec.ofNat 16 (b.toNat * 256) := by
  apply BitVec.eq_of_toNat_eq
  have := b.isLt
  simp only [halfOf, BitVec.toNat_append, BitVec.toNat_ofNat, Nat.shiftLeft_eq]
  simp; omega

theorem halfOf_zero_left (b : Byte) : halfOf 0 b = b.zeroExtend 16 := by
  apply BitVec.eq_of_toNat_eq
  have := b.isLt
  simp only [halfOf, BitVec.toNat_append, Nat.shiftLeft_eq]
  simp; omega

/-- The heap's answer of this step, as the claims name it (42_edm_parser.md R193). -/
theorem heapAnswer_iff (s : State) : heapAnswer s.par s.env.heapOk = true ↔ s.HeapGrants := by
  unfold State.HeapGrants heapAnswer
  cases s.par.edmHeap <;> simp

/-! ### EDM.PARSE in terms of the parser's operation, and runs of it -/

theorem exec_edmParse (b : Byte) (s : State) : exec (.edmParse b) s =
    .next { s with
      edm := (s.edm.parse s.par b s.env.heapOk).1
      port := ⟨some (kindCode (s.edm.parse s.par b s.env.heapOk).2), ser (s.edm.parse s.par b s.env.heapOk).2⟩ } := rfl

theorem execSeq_append (a b : List Instr) (s : State) : execSeq (a ++ b) s =
    match execSeq a s with
    | .next t => execSeq b t
    | .fault r => .fault r
    | .refused r => .refused r := by
  induction a generalizing s with
  | nil => rfl
  | cons i is ih =>
    simp only [List.cons_append, execSeq]
    cases h : exec i s with
    | next t => exact ih t
    | fault r => rfl
    | refused r => rfl

end Sys2Proof.Machine
end

