-- ==== Sys2Proof/Laws/PerInstr.lean ====
section
/-!
SUPPORT. A fact about every command as syntax, one lemma per constructor: its encoding has the fixed
bits of its row of spec/opcode_table.json and that row's number of extension words (30_encoding.md R91).
-/

namespace Sys2Proof.Laws

/-- The command word agrees with the row's fixed bits under the row's mask, and the row's number of extension words follows. -/
def TableRow.Statement (i : Instr) : Prop :=
  (encode i).words.length = 1 + i.row.extensionWords ∧
    ∀ w ∈ (encode i).words.head?, w &&& i.row.mask = i.row.fixed

theorem TableRow.rbCreate : ∀ size, TableRow.Statement (.rbCreate size) := by
  intro size
  exact ⟨rfl, by
    intro w hw
    cases hw
    exact commandWord_and_eq (by dsimp only [Instr.row]; decide) (by dsimp only [Instr.row]; decide) (and_open_field _ (by dsimp only [Instr.row]; decide) (by dsimp only [Instr.row]; decide))⟩

theorem TableRow.rbCreateh : ∀ maxHandles size, TableRow.Statement (.rbCreateh maxHandles size) := by
  intro maxHandles size
  exact ⟨rfl, by
    intro w hw
    cases hw
    exact commandWord_and_eq (by dsimp only [Instr.row]; decide) (and_open_field _ (by dsimp only [Instr.row]; decide) (by dsimp only [Instr.row]; decide)) (and_open_field _ (by dsimp only [Instr.row]; decide) (by dsimp only [Instr.row]; decide))⟩

theorem TableRow.rbDestroy : TableRow.Statement .rbDestroy := by
  exact ⟨rfl, by intro w hw; cases hw; decide⟩

theorem TableRow.rbSetrhr : ∀ on, TableRow.Statement (.rbSetrhr on) := by
  intro on
  cases on <;> exact ⟨rfl, by intro w hw; cases hw; decide⟩

theorem TableRow.rbTake : TableRow.Statement .rbTake := by
  exact ⟨rfl, by intro w hw; cases hw; decide⟩

theorem TableRow.rbGive : ∀ handle, TableRow.Statement (.rbGive handle) := by
  intro handle
  exact ⟨rfl, by
    intro w hw
    cases hw
    exact commandWord_and_eq (by dsimp only [Instr.row]; decide) (and_open_field _ (by dsimp only [Instr.row]; decide) (by dsimp only [Instr.row]; decide)) (by dsimp only [Instr.row]; decide)⟩

theorem TableRow.rbLock : ∀ handle, TableRow.Statement (.rbLock handle) := by
  intro handle
  exact ⟨rfl, by
    intro w hw
    cases hw
    exact commandWord_and_eq (by dsimp only [Instr.row]; decide) (and_open_field _ (by dsimp only [Instr.row]; decide) (by dsimp only [Instr.row]; decide)) (by dsimp only [Instr.row]; decide)⟩

theorem TableRow.rbUnlock : ∀ handle, TableRow.Statement (.rbUnlock handle) := by
  intro handle
  exact ⟨rfl, by
    intro w hw
    cases hw
    exact commandWord_and_eq (by dsimp only [Instr.row]; decide) (and_open_field _ (by dsimp only [Instr.row]; decide) (by dsimp only [Instr.row]; decide)) (by dsimp only [Instr.row]; decide)⟩

theorem TableRow.rbAdd : ∀ data, TableRow.Statement (.rbAdd data) := by
  intro data
  exact ⟨rfl, by
    intro w hw
    cases hw
    exact commandWord_and_eq (by dsimp only [Instr.row]; decide) (by dsimp only [Instr.row]; decide) (and_open_field _ (by dsimp only [Instr.row]; decide) (by dsimp only [Instr.row]; decide))⟩

theorem TableRow.rbFadd : ∀ data, TableRow.Statement (.rbFadd data) := by
  intro data
  exact ⟨rfl, by
    intro w hw
    cases hw
    exact commandWord_and_eq (by dsimp only [Instr.row]; decide) (by dsimp only [Instr.row]; decide) (and_open_field _ (by dsimp only [Instr.row]; decide) (by dsimp only [Instr.row]; decide))⟩

theorem TableRow.rbRead : ∀ length, TableRow.Statement (.rbRead length) := by
  intro length
  exact ⟨rfl, by
    intro w hw
    cases hw
    exact commandWord_and_eq (by dsimp only [Instr.row]; decide) (by dsimp only [Instr.row]; decide) (and_open_field _ (by dsimp only [Instr.row]; decide) (by dsimp only [Instr.row]; decide))⟩

theorem TableRow.rbPeek : ∀ length, TableRow.Statement (.rbPeek length) := by
  intro length
  exact ⟨rfl, by
    intro w hw
    cases hw
    exact commandWord_and_eq (by dsimp only [Instr.row]; decide) (by dsimp only [Instr.row]; decide) (and_open_field _ (by dsimp only [Instr.row]; decide) (by dsimp only [Instr.row]; decide))⟩

theorem TableRow.rbReadh : ∀ cursor length, TableRow.Statement (.rbReadh cursor length) := by
  intro cursor length
  exact ⟨rfl, by
    intro w hw
    cases hw
    exact commandWord_and_eq (by dsimp only [Instr.row]; decide) (and_open_field _ (by dsimp only [Instr.row]; decide) (by dsimp only [Instr.row]; decide)) (and_open_field _ (by dsimp only [Instr.row]; decide) (by dsimp only [Instr.row]; decide))⟩

theorem TableRow.rbPeekh : ∀ cursor length, TableRow.Statement (.rbPeekh cursor length) := by
  intro cursor length
  exact ⟨rfl, by
    intro w hw
    cases hw
    exact commandWord_and_eq (by dsimp only [Instr.row]; decide) (and_open_field _ (by dsimp only [Instr.row]; decide) (by dsimp only [Instr.row]; decide)) (and_open_field _ (by dsimp only [Instr.row]; decide) (by dsimp only [Instr.row]; decide))⟩

theorem TableRow.rbAvail : TableRow.Statement .rbAvail := by
  exact ⟨rfl, by intro w hw; cases hw; decide⟩

theorem TableRow.rbAvailmax : TableRow.Statement .rbAvailmax := by
  exact ⟨rfl, by intro w hw; cases hw; decide⟩

theorem TableRow.rbStatadd : TableRow.Statement .rbStatadd := by
  exact ⟨rfl, by intro w hw; cases hw; decide⟩

theorem TableRow.rbStatread : ∀ cursor, TableRow.Statement (.rbStatread cursor) := by
  intro cursor
  exact ⟨rfl, by
    intro w hw
    cases hw
    exact commandWord_and_eq (by dsimp only [Instr.row]; decide) (and_open_field _ (by dsimp only [Instr.row]; decide) (by dsimp only [Instr.row]; decide)) (by dsimp only [Instr.row]; decide)⟩

theorem TableRow.edmParse : ∀ byte, TableRow.Statement (.edmParse byte) := by
  intro byte
  exact ⟨rfl, by
    intro w hw
    cases hw
    exact commandWord_and_eq (by dsimp only [Instr.row]; decide) (and_open_field _ (by dsimp only [Instr.row]; decide) (by dsimp only [Instr.row]; decide)) (by dsimp only [Instr.row]; decide)⟩

theorem TableRow.edmReady : TableRow.Statement .edmReady := by
  exact ⟨rfl, by intro w hw; cases hw; decide⟩

theorem TableRow.edmReset : TableRow.Statement .edmReset := by
  exact ⟨rfl, by intro w hw; cases hw; decide⟩

theorem TableRow.edmEvdata : ∀ max, TableRow.Statement (.edmEvdata max) := by
  intro max
  exact ⟨rfl, by
    intro w hw
    cases hw
    exact commandWord_and_eq (by dsimp only [Instr.row]; decide) (by dsimp only [Instr.row]; decide) (and_open_field _ (by dsimp only [Instr.row]; decide) (by dsimp only [Instr.row]; decide))⟩

theorem TableRow.edmEvent : TableRow.Statement .edmEvent := by
  exact ⟨rfl, by intro w hw; cases hw; decide⟩

theorem TableRow.edmEncdata : ∀ channel data, TableRow.Statement (.edmEncdata channel data) := by
  intro channel data
  exact ⟨rfl, by
    intro w hw
    cases hw
    exact commandWord_and_eq (by dsimp only [Instr.row]; decide) (and_open_field _ (by dsimp only [Instr.row]; decide) (by dsimp only [Instr.row]; decide)) (and_open_field _ (by dsimp only [Instr.row]; decide) (by dsimp only [Instr.row]; decide))⟩

theorem TableRow.edmEnchead : ∀ channel length, TableRow.Statement (.edmEnchead channel length) := by
  intro channel length
  exact ⟨rfl, by
    intro w hw
    cases hw
    exact commandWord_and_eq (by dsimp only [Instr.row]; decide) (and_open_field _ (by dsimp only [Instr.row]; decide) (by dsimp only [Instr.row]; decide)) (and_open_field _ (by dsimp only [Instr.row]; decide) (by dsimp only [Instr.row]; decide))⟩

theorem TableRow.edmEnctail : TableRow.Statement .edmEnctail := by
  exact ⟨rfl, by intro w hw; cases hw; decide⟩

theorem TableRow.edmEncatreq : ∀ data, TableRow.Statement (.edmEncatreq data) := by
  intro data
  exact ⟨rfl, by
    intro w hw
    cases hw
    exact commandWord_and_eq (by dsimp only [Instr.row]; decide) (by dsimp only [Instr.row]; decide) (and_open_field _ (by dsimp only [Instr.row]; decide) (by dsimp only [Instr.row]; decide))⟩

theorem TableRow.edmEncatrsp : ∀ data, TableRow.Statement (.edmEncatrsp data) := by
  intro data
  exact ⟨rfl, by
    intro w hw
    cases hw
    exact commandWord_and_eq (by dsimp only [Instr.row]; decide) (by dsimp only [Instr.row]; decide) (and_open_field _ (by dsimp only [Instr.row]; decide) (by dsimp only [Instr.row]; decide))⟩

theorem TableRow.ubxEncode : ∀ cls id body, TableRow.Statement (.ubxEncode cls id body) := by
  intro cls id body
  exact ⟨rfl, by
    intro w hw
    cases hw
    exact commandWord_and_eq (by dsimp only [Instr.row]; decide) (and_open_field _ (by dsimp only [Instr.row]; decide) (by dsimp only [Instr.row]; decide)) (and_open_field _ (by dsimp only [Instr.row]; decide) (by dsimp only [Instr.row]; decide))⟩

theorem TableRow.ubxDecode : ∀ buf, TableRow.Statement (.ubxDecode buf) := by
  intro buf
  exact ⟨rfl, by
    intro w hw
    cases hw
    exact commandWord_and_eq (by dsimp only [Instr.row]; decide) (by dsimp only [Instr.row]; decide) (and_open_field _ (by dsimp only [Instr.row]; decide) (by dsimp only [Instr.row]; decide))⟩

theorem TableRow.ubxSendrecv : ∀ cls id expClass expId maxBody timeout body, TableRow.Statement (.ubxSendrecv cls id expClass expId maxBody timeout body) := by
  intro cls id expClass expId maxBody timeout body
  exact ⟨rfl, by
    intro w hw
    cases hw
    exact commandWord_and_eq (by dsimp only [Instr.row]; decide) (and_open_field _ (by dsimp only [Instr.row]; decide) (by dsimp only [Instr.row]; decide)) (and_open_field _ (by dsimp only [Instr.row]; decide) (by dsimp only [Instr.row]; decide))⟩

theorem TableRow.ubxSendonly : ∀ cls id timeout body, TableRow.Statement (.ubxSendonly cls id timeout body) := by
  intro cls id timeout body
  exact ⟨rfl, by
    intro w hw
    cases hw
    exact commandWord_and_eq (by dsimp only [Instr.row]; decide) (and_open_field _ (by dsimp only [Instr.row]; decide) (by dsimp only [Instr.row]; decide)) (and_open_field _ (by dsimp only [Instr.row]; decide) (by dsimp only [Instr.row]; decide))⟩

theorem TableRow.uartWrite : ∀ data, TableRow.Statement (.uartWrite data) := by
  intro data
  exact ⟨rfl, by
    intro w hw
    cases hw
    exact commandWord_and_eq (by dsimp only [Instr.row]; decide) (by dsimp only [Instr.row]; decide) (and_open_field _ (by dsimp only [Instr.row]; decide) (by dsimp only [Instr.row]; decide))⟩

theorem TableRow.uartAvail : TableRow.Statement .uartAvail := by
  exact ⟨rfl, by intro w hw; cases hw; decide⟩

theorem TableRow.uartRead : ∀ maxLen, TableRow.Statement (.uartRead maxLen) := by
  intro maxLen
  exact ⟨rfl, by
    intro w hw
    cases hw
    exact commandWord_and_eq (by dsimp only [Instr.row]; decide) (by dsimp only [Instr.row]; decide) (and_open_field _ (by dsimp only [Instr.row]; decide) (by dsimp only [Instr.row]; decide))⟩

theorem TableRow.linkPump : ∀ mode, TableRow.Statement (.linkPump mode) := by
  intro mode
  cases mode <;> exact ⟨rfl, by intro w hw; cases hw; decide⟩

theorem TableRow.linkDrain : ∀ cursor enable, TableRow.Statement (.linkDrain cursor enable) := by
  intro cursor enable
  exact ⟨rfl, by
    intro w hw
    cases hw
    exact commandWord_and_eq (by dsimp only [Instr.row]; decide) (and_open_field _ (by dsimp only [Instr.row]; decide) (by dsimp only [Instr.row]; decide)) (by cases enable <;> (dsimp only [Instr.row]; decide))⟩

end Sys2Proof.Laws
end

