-- ==== Sys2Proof/Laws/State.lean ====
section
/-!
SUPPORT. One lemma per field per update of State and of its units, each true by rfl, so that no proof
unfolds a record update.
-/

namespace Sys2Proof.Machine

/-! ### State.post -/

@[simp] theorem State.post_par (s : State) (r : Word) (out : List Byte) : (s.post r out).par = s.par := rfl
@[simp] theorem State.post_rb (s : State) (r : Word) (out : List Byte) : (s.post r out).rb = s.rb := rfl
@[simp] theorem State.post_mutex (s : State) (r : Word) (out : List Byte) : (s.post r out).mutex = s.mutex := rfl
@[simp] theorem State.post_edm (s : State) (r : Word) (out : List Byte) : (s.post r out).edm = s.edm := rfl
@[simp] theorem State.post_ubx (s : State) (r : Word) (out : List Byte) : (s.post r out).ubx = s.ubx := rfl
@[simp] theorem State.post_uart (s : State) (r : Word) (out : List Byte) : (s.post r out).uart = s.uart := rfl
@[simp] theorem State.post_link (s : State) (r : Word) (out : List Byte) : (s.post r out).link = s.link := rfl
@[simp] theorem State.post_port (s : State) (r : Word) (out : List Byte) : (s.post r out).port = ⟨some r, out⟩ := rfl
@[simp] theorem State.post_env (s : State) (r : Word) (out : List Byte) : (s.post r out).env = s.env := rfl

/-! ### State.silent -/

@[simp] theorem State.silent_par (s : State) : s.silent.par = s.par := rfl
@[simp] theorem State.silent_rb (s : State) : s.silent.rb = s.rb := rfl
@[simp] theorem State.silent_mutex (s : State) : s.silent.mutex = s.mutex := rfl
@[simp] theorem State.silent_edm (s : State) : s.silent.edm = s.edm := rfl
@[simp] theorem State.silent_ubx (s : State) : s.silent.ubx = s.ubx := rfl
@[simp] theorem State.silent_uart (s : State) : s.silent.uart = s.uart := rfl
@[simp] theorem State.silent_link (s : State) : s.silent.link = s.link := rfl
@[simp] theorem State.silent_port (s : State) : s.silent.port = ⟨none, []⟩ := rfl
@[simp] theorem State.silent_env (s : State) : s.silent.env = s.env := rfl

/-! ### State.raise -/

@[simp] theorem State.raise_par (s : State) (e : Config.ErrKind) : (s.raise e).par = s.par := rfl
@[simp] theorem State.raise_rb (s : State) (e : Config.ErrKind) : (s.raise e).rb = s.rb := rfl
@[simp] theorem State.raise_mutex (s : State) (e : Config.ErrKind) : (s.raise e).mutex = s.mutex := rfl
@[simp] theorem State.raise_edm (s : State) (e : Config.ErrKind) : (s.raise e).edm = s.edm := rfl
@[simp] theorem State.raise_ubx (s : State) (e : Config.ErrKind) : (s.raise e).ubx = s.ubx := rfl
@[simp] theorem State.raise_uart (s : State) (e : Config.ErrKind) : (s.raise e).uart = s.uart := rfl
@[simp] theorem State.raise_link (s : State) (e : Config.ErrKind) : (s.raise e).link = s.link := rfl
@[simp] theorem State.raise_port (s : State) (e : Config.ErrKind) : (s.raise e).port = ⟨some (errWord s.par e), []⟩ := rfl
@[simp] theorem State.raise_env (s : State) (e : Config.ErrKind) : (s.raise e).env = s.env := rfl

/-! ### State.takeMutex -/

@[simp] theorem State.takeMutex_par (s : State) : s.takeMutex.par = s.par := rfl
@[simp] theorem State.takeMutex_rb (s : State) : s.takeMutex.rb = s.rb := rfl
@[simp] theorem State.takeMutex_mutex (s : State) : s.takeMutex.mutex = .held := rfl
@[simp] theorem State.takeMutex_edm (s : State) : s.takeMutex.edm = s.edm := rfl
@[simp] theorem State.takeMutex_ubx (s : State) : s.takeMutex.ubx = s.ubx := rfl
@[simp] theorem State.takeMutex_uart (s : State) : s.takeMutex.uart = s.uart := rfl
@[simp] theorem State.takeMutex_link (s : State) : s.takeMutex.link = s.link := rfl
@[simp] theorem State.takeMutex_port (s : State) : s.takeMutex.port = s.port := rfl
@[simp] theorem State.takeMutex_env (s : State) : s.takeMutex.env = s.env := rfl

/-! ### State.freeMutex -/

@[simp] theorem State.freeMutex_par (s : State) : s.freeMutex.par = s.par := rfl
@[simp] theorem State.freeMutex_rb (s : State) : s.freeMutex.rb = s.rb := rfl
@[simp] theorem State.freeMutex_mutex (s : State) : s.freeMutex.mutex = .free := rfl
@[simp] theorem State.freeMutex_edm (s : State) : s.freeMutex.edm = s.edm := rfl
@[simp] theorem State.freeMutex_ubx (s : State) : s.freeMutex.ubx = s.ubx := rfl
@[simp] theorem State.freeMutex_uart (s : State) : s.freeMutex.uart = s.uart := rfl
@[simp] theorem State.freeMutex_link (s : State) : s.freeMutex.link = s.link := rfl
@[simp] theorem State.freeMutex_port (s : State) : s.freeMutex.port = s.port := rfl
@[simp] theorem State.freeMutex_env (s : State) : s.freeMutex.env = s.env := rfl

/-! ### State.setRb -/

@[simp] theorem State.setRb_par (s : State) (rb : RB) : (s.setRb rb).par = s.par := rfl
@[simp] theorem State.setRb_rb (s : State) (rb : RB) : (s.setRb rb).rb = rb := rfl
@[simp] theorem State.setRb_mutex (s : State) (rb : RB) : (s.setRb rb).mutex = s.mutex := rfl
@[simp] theorem State.setRb_edm (s : State) (rb : RB) : (s.setRb rb).edm = s.edm := rfl
@[simp] theorem State.setRb_ubx (s : State) (rb : RB) : (s.setRb rb).ubx = s.ubx := rfl
@[simp] theorem State.setRb_uart (s : State) (rb : RB) : (s.setRb rb).uart = s.uart := rfl
@[simp] theorem State.setRb_link (s : State) (rb : RB) : (s.setRb rb).link = s.link := rfl
@[simp] theorem State.setRb_port (s : State) (rb : RB) : (s.setRb rb).port = s.port := rfl
@[simp] theorem State.setRb_env (s : State) (rb : RB) : (s.setRb rb).env = s.env := rfl

/-! ### State.setEdm -/

@[simp] theorem State.setEdm_par (s : State) (edm : Edm) : (s.setEdm edm).par = s.par := rfl
@[simp] theorem State.setEdm_rb (s : State) (edm : Edm) : (s.setEdm edm).rb = s.rb := rfl
@[simp] theorem State.setEdm_mutex (s : State) (edm : Edm) : (s.setEdm edm).mutex = s.mutex := rfl
@[simp] theorem State.setEdm_edm (s : State) (edm : Edm) : (s.setEdm edm).edm = edm := rfl
@[simp] theorem State.setEdm_ubx (s : State) (edm : Edm) : (s.setEdm edm).ubx = s.ubx := rfl
@[simp] theorem State.setEdm_uart (s : State) (edm : Edm) : (s.setEdm edm).uart = s.uart := rfl
@[simp] theorem State.setEdm_link (s : State) (edm : Edm) : (s.setEdm edm).link = s.link := rfl
@[simp] theorem State.setEdm_port (s : State) (edm : Edm) : (s.setEdm edm).port = s.port := rfl
@[simp] theorem State.setEdm_env (s : State) (edm : Edm) : (s.setEdm edm).env = s.env := rfl

/-! ### State.setUbx -/

@[simp] theorem State.setUbx_par (s : State) (ubx : Ubx) : (s.setUbx ubx).par = s.par := rfl
@[simp] theorem State.setUbx_rb (s : State) (ubx : Ubx) : (s.setUbx ubx).rb = s.rb := rfl
@[simp] theorem State.setUbx_mutex (s : State) (ubx : Ubx) : (s.setUbx ubx).mutex = s.mutex := rfl
@[simp] theorem State.setUbx_edm (s : State) (ubx : Ubx) : (s.setUbx ubx).edm = s.edm := rfl
@[simp] theorem State.setUbx_ubx (s : State) (ubx : Ubx) : (s.setUbx ubx).ubx = ubx := rfl
@[simp] theorem State.setUbx_uart (s : State) (ubx : Ubx) : (s.setUbx ubx).uart = s.uart := rfl
@[simp] theorem State.setUbx_link (s : State) (ubx : Ubx) : (s.setUbx ubx).link = s.link := rfl
@[simp] theorem State.setUbx_port (s : State) (ubx : Ubx) : (s.setUbx ubx).port = s.port := rfl
@[simp] theorem State.setUbx_env (s : State) (ubx : Ubx) : (s.setUbx ubx).env = s.env := rfl

/-! ### State.setRx -/

@[simp] theorem State.setRx_par (s : State) (rx : List Byte) : (s.setRx rx).par = s.par := rfl
@[simp] theorem State.setRx_rb (s : State) (rx : List Byte) : (s.setRx rx).rb = s.rb := rfl
@[simp] theorem State.setRx_mutex (s : State) (rx : List Byte) : (s.setRx rx).mutex = s.mutex := rfl
@[simp] theorem State.setRx_edm (s : State) (rx : List Byte) : (s.setRx rx).edm = s.edm := rfl
@[simp] theorem State.setRx_ubx (s : State) (rx : List Byte) : (s.setRx rx).ubx = s.ubx := rfl
@[simp] theorem State.setRx_uart (s : State) (rx : List Byte) : (s.setRx rx).uart = ⟨rx, s.uart.tx⟩ := rfl
@[simp] theorem State.setRx_link (s : State) (rx : List Byte) : (s.setRx rx).link = s.link := rfl
@[simp] theorem State.setRx_port (s : State) (rx : List Byte) : (s.setRx rx).port = s.port := rfl
@[simp] theorem State.setRx_env (s : State) (rx : List Byte) : (s.setRx rx).env = s.env := rfl

/-! ### State.setTx -/

@[simp] theorem State.setTx_par (s : State) (tx : List Byte) : (s.setTx tx).par = s.par := rfl
@[simp] theorem State.setTx_rb (s : State) (tx : List Byte) : (s.setTx tx).rb = s.rb := rfl
@[simp] theorem State.setTx_mutex (s : State) (tx : List Byte) : (s.setTx tx).mutex = s.mutex := rfl
@[simp] theorem State.setTx_edm (s : State) (tx : List Byte) : (s.setTx tx).edm = s.edm := rfl
@[simp] theorem State.setTx_ubx (s : State) (tx : List Byte) : (s.setTx tx).ubx = s.ubx := rfl
@[simp] theorem State.setTx_uart (s : State) (tx : List Byte) : (s.setTx tx).uart = ⟨s.uart.rx, tx⟩ := rfl
@[simp] theorem State.setTx_link (s : State) (tx : List Byte) : (s.setTx tx).link = s.link := rfl
@[simp] theorem State.setTx_port (s : State) (tx : List Byte) : (s.setTx tx).port = s.port := rfl
@[simp] theorem State.setTx_env (s : State) (tx : List Byte) : (s.setTx tx).env = s.env := rfl

/-! ### State.underMutex -/

@[simp] theorem State.underMutex_par (s : State) (op : State → State) : (s.underMutex op).par = (op s.takeMutex).par := rfl
@[simp] theorem State.underMutex_rb (s : State) (op : State → State) : (s.underMutex op).rb = (op s.takeMutex).rb := rfl
@[simp] theorem State.underMutex_mutex (s : State) (op : State → State) : (s.underMutex op).mutex = .free := rfl
@[simp] theorem State.underMutex_edm (s : State) (op : State → State) : (s.underMutex op).edm = (op s.takeMutex).edm := rfl
@[simp] theorem State.underMutex_ubx (s : State) (op : State → State) : (s.underMutex op).ubx = (op s.takeMutex).ubx := rfl
@[simp] theorem State.underMutex_uart (s : State) (op : State → State) : (s.underMutex op).uart = (op s.takeMutex).uart := rfl
@[simp] theorem State.underMutex_link (s : State) (op : State → State) : (s.underMutex op).link = (op s.takeMutex).link := rfl
@[simp] theorem State.underMutex_port (s : State) (op : State → State) : (s.underMutex op).port = (op s.takeMutex).port := rfl
@[simp] theorem State.underMutex_env (s : State) (op : State → State) : (s.underMutex op).env = (op s.takeMutex).env := rfl

/-! ### State.sense -/

@[simp] theorem State.sense_par (s : State) (t : Config.Turn) : (s.sense t).par = s.par := rfl
@[simp] theorem State.sense_rb (s : State) (t : Config.Turn) : (s.sense t).rb = s.rb := rfl
@[simp] theorem State.sense_mutex (s : State) (t : Config.Turn) : (s.sense t).mutex = s.mutex := rfl
@[simp] theorem State.sense_edm (s : State) (t : Config.Turn) : (s.sense t).edm = s.edm := rfl
@[simp] theorem State.sense_ubx (s : State) (t : Config.Turn) : (s.sense t).ubx = s.ubx := rfl
@[simp] theorem State.sense_uart (s : State) (t : Config.Turn) : (s.sense t).uart = s.uart := rfl
@[simp] theorem State.sense_link (s : State) (t : Config.Turn) : (s.sense t).link = s.link := rfl
@[simp] theorem State.sense_port (s : State) (t : Config.Turn) : (s.sense t).port = s.port := rfl
@[simp] theorem State.sense_env (s : State) (t : Config.Turn) : (s.sense t).env = { s.env with now := s.env.now + t.elapsed, heapOk := t.heapOk, writeOk := t.writeOk } := rfl

/-! ### State.present -/

@[simp] theorem State.present_par (s : State) (ws : List Word) (bs : List Byte) : (s.present ws bs).par = s.par := rfl
@[simp] theorem State.present_rb (s : State) (ws : List Word) (bs : List Byte) : (s.present ws bs).rb = s.rb := rfl
@[simp] theorem State.present_mutex (s : State) (ws : List Word) (bs : List Byte) : (s.present ws bs).mutex = s.mutex := rfl
@[simp] theorem State.present_edm (s : State) (ws : List Word) (bs : List Byte) : (s.present ws bs).edm = s.edm := rfl
@[simp] theorem State.present_ubx (s : State) (ws : List Word) (bs : List Byte) : (s.present ws bs).ubx = s.ubx := rfl
@[simp] theorem State.present_uart (s : State) (ws : List Word) (bs : List Byte) : (s.present ws bs).uart = s.uart := rfl
@[simp] theorem State.present_link (s : State) (ws : List Word) (bs : List Byte) : (s.present ws bs).link = s.link := rfl
@[simp] theorem State.present_port (s : State) (ws : List Word) (bs : List Byte) : (s.present ws bs).port = s.port := rfl
@[simp] theorem State.present_env (s : State) (ws : List Word) (bs : List Byte) : (s.present ws bs).env = { s.env with words := s.env.words ++ ws, input := s.env.input ++ bs } := rfl

/-! ### State.consume -/

@[simp] theorem State.consume_par (s : State) (ws : List Word) (bs : List Byte) : (s.consume ws bs).par = s.par := rfl
@[simp] theorem State.consume_rb (s : State) (ws : List Word) (bs : List Byte) : (s.consume ws bs).rb = s.rb := rfl
@[simp] theorem State.consume_mutex (s : State) (ws : List Word) (bs : List Byte) : (s.consume ws bs).mutex = s.mutex := rfl
@[simp] theorem State.consume_edm (s : State) (ws : List Word) (bs : List Byte) : (s.consume ws bs).edm = s.edm := rfl
@[simp] theorem State.consume_ubx (s : State) (ws : List Word) (bs : List Byte) : (s.consume ws bs).ubx = s.ubx := rfl
@[simp] theorem State.consume_uart (s : State) (ws : List Word) (bs : List Byte) : (s.consume ws bs).uart = s.uart := rfl
@[simp] theorem State.consume_link (s : State) (ws : List Word) (bs : List Byte) : (s.consume ws bs).link = s.link := rfl
@[simp] theorem State.consume_port (s : State) (ws : List Word) (bs : List Byte) : (s.consume ws bs).port = s.port := rfl
@[simp] theorem State.consume_env (s : State) (ws : List Word) (bs : List Byte) : (s.consume ws bs).env = { s.env with words := ws, input := bs } := rfl

/-! ### State.placeCommand -/

@[simp] theorem State.placeCommand_par (s : State) (c : Encoded) : (s.placeCommand c).par = s.par := rfl
@[simp] theorem State.placeCommand_rb (s : State) (c : Encoded) : (s.placeCommand c).rb = s.rb := rfl
@[simp] theorem State.placeCommand_mutex (s : State) (c : Encoded) : (s.placeCommand c).mutex = s.mutex := rfl
@[simp] theorem State.placeCommand_edm (s : State) (c : Encoded) : (s.placeCommand c).edm = s.edm := rfl
@[simp] theorem State.placeCommand_ubx (s : State) (c : Encoded) : (s.placeCommand c).ubx = s.ubx := rfl
@[simp] theorem State.placeCommand_uart (s : State) (c : Encoded) : (s.placeCommand c).uart = s.uart := rfl
@[simp] theorem State.placeCommand_link (s : State) (c : Encoded) : (s.placeCommand c).link = s.link := rfl
@[simp] theorem State.placeCommand_port (s : State) (c : Encoded) : (s.placeCommand c).port = s.port := rfl
@[simp] theorem State.placeCommand_env (s : State) (c : Encoded) : (s.placeCommand c).env = { s.env with words := c.words, input := c.input, agenda := s.hostTurn :: s.env.agenda } := rfl

/-! ### RB.setCursor -/

@[simp] theorem RB.setCursor_created (rb : RB) (k v : Nat) : (rb.setCursor k v).created = rb.created := rfl
@[simp] theorem RB.setCursor_size (rb : RB) (k v : Nat) : (rb.setCursor k v).size = rb.size := rfl
@[simp] theorem RB.setCursor_n (rb : RB) (k v : Nat) : (rb.setCursor k v).n = rb.n := rfl
@[simp] theorem RB.setCursor_mem (rb : RB) (k v : Nat) : (rb.setCursor k v).mem = rb.mem := rfl
@[simp] theorem RB.setCursor_w (rb : RB) (k v : Nat) : (rb.setCursor k v).w = rb.w := rfl
@[simp] theorem RB.setCursor_x (rb : RB) (k v : Nat) : (rb.setCursor k v).x = rb.x.set k (BitVec.ofNat 16 v) := rfl
@[simp] theorem RB.setCursor_taken (rb : RB) (k v : Nat) : (rb.setCursor k v).taken = rb.taken := rfl
@[simp] theorem RB.setCursor_lock (rb : RB) (k v : Nat) : (rb.setCursor k v).lock = rb.lock := rfl
@[simp] theorem RB.setCursor_lossRead (rb : RB) (k v : Nat) : (rb.setCursor k v).lossRead = rb.lossRead := rfl
@[simp] theorem RB.setCursor_lossAdd (rb : RB) (k v : Nat) : (rb.setCursor k v).lossAdd = rb.lossAdd := rfl
@[simp] theorem RB.setCursor_rhr (rb : RB) (k v : Nat) : (rb.setCursor k v).rhr = rb.rhr := rfl

/-! ### RB.setLoss -/

@[simp] theorem RB.setLoss_created (rb : RB) (k : Nat) (v : Loss) : (rb.setLoss k v).created = rb.created := rfl
@[simp] theorem RB.setLoss_size (rb : RB) (k : Nat) (v : Loss) : (rb.setLoss k v).size = rb.size := rfl
@[simp] theorem RB.setLoss_n (rb : RB) (k : Nat) (v : Loss) : (rb.setLoss k v).n = rb.n := rfl
@[simp] theorem RB.setLoss_mem (rb : RB) (k : Nat) (v : Loss) : (rb.setLoss k v).mem = rb.mem := rfl
@[simp] theorem RB.setLoss_w (rb : RB) (k : Nat) (v : Loss) : (rb.setLoss k v).w = rb.w := rfl
@[simp] theorem RB.setLoss_x (rb : RB) (k : Nat) (v : Loss) : (rb.setLoss k v).x = rb.x := rfl
@[simp] theorem RB.setLoss_taken (rb : RB) (k : Nat) (v : Loss) : (rb.setLoss k v).taken = rb.taken := rfl
@[simp] theorem RB.setLoss_lock (rb : RB) (k : Nat) (v : Loss) : (rb.setLoss k v).lock = rb.lock := rfl
@[simp] theorem RB.setLoss_lossRead (rb : RB) (k : Nat) (v : Loss) : (rb.setLoss k v).lossRead = rb.lossRead.set k v := rfl
@[simp] theorem RB.setLoss_lossAdd (rb : RB) (k : Nat) (v : Loss) : (rb.setLoss k v).lossAdd = rb.lossAdd := rfl
@[simp] theorem RB.setLoss_rhr (rb : RB) (k : Nat) (v : Loss) : (rb.setLoss k v).rhr = rb.rhr := rfl

/-! ### RB.refuseAdd -/

@[simp] theorem RB.refuseAdd_created (rb : RB) (par : Config.Params) (d : Nat) : (rb.refuseAdd par d).created = rb.created := rfl
@[simp] theorem RB.refuseAdd_size (rb : RB) (par : Config.Params) (d : Nat) : (rb.refuseAdd par d).size = rb.size := rfl
@[simp] theorem RB.refuseAdd_n (rb : RB) (par : Config.Params) (d : Nat) : (rb.refuseAdd par d).n = rb.n := rfl
@[simp] theorem RB.refuseAdd_mem (rb : RB) (par : Config.Params) (d : Nat) : (rb.refuseAdd par d).mem = rb.mem := rfl
@[simp] theorem RB.refuseAdd_w (rb : RB) (par : Config.Params) (d : Nat) : (rb.refuseAdd par d).w = rb.w := rfl
@[simp] theorem RB.refuseAdd_x (rb : RB) (par : Config.Params) (d : Nat) : (rb.refuseAdd par d).x = rb.x := rfl
@[simp] theorem RB.refuseAdd_taken (rb : RB) (par : Config.Params) (d : Nat) : (rb.refuseAdd par d).taken = rb.taken := rfl
@[simp] theorem RB.refuseAdd_lock (rb : RB) (par : Config.Params) (d : Nat) : (rb.refuseAdd par d).lock = rb.lock := rfl
@[simp] theorem RB.refuseAdd_lossRead (rb : RB) (par : Config.Params) (d : Nat) : (rb.refuseAdd par d).lossRead = rb.lossRead := rfl
@[simp] theorem RB.refuseAdd_lossAdd (rb : RB) (par : Config.Params) (d : Nat) : (rb.refuseAdd par d).lossAdd = rb.lossAdd.bump par d := rfl
@[simp] theorem RB.refuseAdd_rhr (rb : RB) (par : Config.Params) (d : Nat) : (rb.refuseAdd par d).rhr = rb.rhr := rfl

/-! ### RB.put -/

@[simp] theorem RB.put_created (rb : RB) (d : List Byte) : (rb.put d).created = rb.created := rfl
@[simp] theorem RB.put_size (rb : RB) (d : List Byte) : (rb.put d).size = rb.size := rfl
@[simp] theorem RB.put_n (rb : RB) (d : List Byte) : (rb.put d).n = rb.n := rfl
@[simp] theorem RB.put_mem (rb : RB) (d : List Byte) : (rb.put d).mem = rb.mem.writeRing rb.size.toNat rb.w.toNat d := rfl
@[simp] theorem RB.put_w (rb : RB) (d : List Byte) : (rb.put d).w = BitVec.ofNat 16 ((rb.w.toNat + d.length) % rb.size.toNat) := rfl
@[simp] theorem RB.put_x (rb : RB) (d : List Byte) : (rb.put d).x = rb.x := rfl
@[simp] theorem RB.put_taken (rb : RB) (d : List Byte) : (rb.put d).taken = rb.taken := rfl
@[simp] theorem RB.put_lock (rb : RB) (d : List Byte) : (rb.put d).lock = rb.lock := rfl
@[simp] theorem RB.put_lossRead (rb : RB) (d : List Byte) : (rb.put d).lossRead = rb.lossRead := rfl
@[simp] theorem RB.put_lossAdd (rb : RB) (d : List Byte) : (rb.put d).lossAdd = rb.lossAdd := rfl
@[simp] theorem RB.put_rhr (rb : RB) (d : List Byte) : (rb.put d).rhr = rb.rhr := rfl

/-! ### RB.reclaim -/

@[simp] theorem RB.reclaim_created (rb : RB) (par : Config.Params) (len : Nat) : (rb.reclaim par len).created = rb.created := rfl
@[simp] theorem RB.reclaim_size (rb : RB) (par : Config.Params) (len : Nat) : (rb.reclaim par len).size = rb.size := rfl
@[simp] theorem RB.reclaim_n (rb : RB) (par : Config.Params) (len : Nat) : (rb.reclaim par len).n = rb.n := rfl
@[simp] theorem RB.reclaim_mem (rb : RB) (par : Config.Params) (len : Nat) : (rb.reclaim par len).mem = rb.mem := rfl
@[simp] theorem RB.reclaim_w (rb : RB) (par : Config.Params) (len : Nat) : (rb.reclaim par len).w = rb.w := rfl
@[simp] theorem RB.reclaim_taken (rb : RB) (par : Config.Params) (len : Nat) : (rb.reclaim par len).taken = rb.taken := rfl
@[simp] theorem RB.reclaim_lock (rb : RB) (par : Config.Params) (len : Nat) : (rb.reclaim par len).lock = rb.lock := rfl
@[simp] theorem RB.reclaim_lossAdd (rb : RB) (par : Config.Params) (len : Nat) : (rb.reclaim par len).lossAdd = rb.lossAdd := rfl
@[simp] theorem RB.reclaim_rhr (rb : RB) (par : Config.Params) (len : Nat) : (rb.reclaim par len).rhr = rb.rhr := rfl

/-! ### RB.create -/

@[simp] theorem RB.create_created (rb : RB) (par : Config.Params) (size : Half) (m : Byte) : (rb.create par size m).created = true := rfl
@[simp] theorem RB.create_size (rb : RB) (par : Config.Params) (size : Half) (m : Byte) : (rb.create par size m).size = size := rfl
@[simp] theorem RB.create_n (rb : RB) (par : Config.Params) (size : Half) (m : Byte) : (rb.create par size m).n = m := rfl
@[simp] theorem RB.create_mem (rb : RB) (par : Config.Params) (size : Half) (m : Byte) : (rb.create par size m).mem = rb.mem := rfl
@[simp] theorem RB.create_w (rb : RB) (par : Config.Params) (size : Half) (m : Byte) : (rb.create par size m).w = 0 := rfl
@[simp] theorem RB.create_x (rb : RB) (par : Config.Params) (size : Half) (m : Byte) : (rb.create par size m).x = rb.x.set 0 0 := rfl
@[simp] theorem RB.create_taken (rb : RB) (par : Config.Params) (size : Half) (m : Byte) : (rb.create par size m).taken = List.replicate par.nmax false := rfl
@[simp] theorem RB.create_lock (rb : RB) (par : Config.Params) (size : Half) (m : Byte) : (rb.create par size m).lock = List.replicate par.nmax false := rfl
@[simp] theorem RB.create_lossRead (rb : RB) (par : Config.Params) (size : Half) (m : Byte) : (rb.create par size m).lossRead = List.replicate (par.nmax + 1) 0 := rfl
@[simp] theorem RB.create_lossAdd (rb : RB) (par : Config.Params) (size : Half) (m : Byte) : (rb.create par size m).lossAdd = 0 := rfl
@[simp] theorem RB.create_rhr (rb : RB) (par : Config.Params) (size : Half) (m : Byte) : (rb.create par size m).rhr = false := rfl

/-! ### RB.setTaken -/

@[simp] theorem RB.setTaken_created (rb : RB) (b : Bool) (k : Nat) : (rb.setTaken b k).created = rb.created := by cases k <;> rfl
@[simp] theorem RB.setTaken_size (rb : RB) (b : Bool) (k : Nat) : (rb.setTaken b k).size = rb.size := by cases k <;> rfl
@[simp] theorem RB.setTaken_n (rb : RB) (b : Bool) (k : Nat) : (rb.setTaken b k).n = rb.n := by cases k <;> rfl
@[simp] theorem RB.setTaken_mem (rb : RB) (b : Bool) (k : Nat) : (rb.setTaken b k).mem = rb.mem := by cases k <;> rfl
@[simp] theorem RB.setTaken_w (rb : RB) (b : Bool) (k : Nat) : (rb.setTaken b k).w = rb.w := by cases k <;> rfl
@[simp] theorem RB.setTaken_x (rb : RB) (b : Bool) (k : Nat) : (rb.setTaken b k).x = rb.x := by cases k <;> rfl
@[simp] theorem RB.setTaken_lock (rb : RB) (b : Bool) (k : Nat) : (rb.setTaken b k).lock = rb.lock := by cases k <;> rfl
@[simp] theorem RB.setTaken_lossRead (rb : RB) (b : Bool) (k : Nat) : (rb.setTaken b k).lossRead = rb.lossRead := by cases k <;> rfl
@[simp] theorem RB.setTaken_lossAdd (rb : RB) (b : Bool) (k : Nat) : (rb.setTaken b k).lossAdd = rb.lossAdd := by cases k <;> rfl
@[simp] theorem RB.setTaken_rhr (rb : RB) (b : Bool) (k : Nat) : (rb.setTaken b k).rhr = rb.rhr := by cases k <;> rfl

/-! ### RB.setLock -/

@[simp] theorem RB.setLock_created (rb : RB) (b : Bool) (k : Nat) : (rb.setLock b k).created = rb.created := by cases k <;> rfl
@[simp] theorem RB.setLock_size (rb : RB) (b : Bool) (k : Nat) : (rb.setLock b k).size = rb.size := by cases k <;> rfl
@[simp] theorem RB.setLock_n (rb : RB) (b : Bool) (k : Nat) : (rb.setLock b k).n = rb.n := by cases k <;> rfl
@[simp] theorem RB.setLock_mem (rb : RB) (b : Bool) (k : Nat) : (rb.setLock b k).mem = rb.mem := by cases k <;> rfl
@[simp] theorem RB.setLock_w (rb : RB) (b : Bool) (k : Nat) : (rb.setLock b k).w = rb.w := by cases k <;> rfl
@[simp] theorem RB.setLock_x (rb : RB) (b : Bool) (k : Nat) : (rb.setLock b k).x = rb.x := by cases k <;> rfl
@[simp] theorem RB.setLock_taken (rb : RB) (b : Bool) (k : Nat) : (rb.setLock b k).taken = rb.taken := by cases k <;> rfl
@[simp] theorem RB.setLock_lossRead (rb : RB) (b : Bool) (k : Nat) : (rb.setLock b k).lossRead = rb.lossRead := by cases k <;> rfl
@[simp] theorem RB.setLock_lossAdd (rb : RB) (b : Bool) (k : Nat) : (rb.setLock b k).lossAdd = rb.lossAdd := by cases k <;> rfl
@[simp] theorem RB.setLock_rhr (rb : RB) (b : Bool) (k : Nat) : (rb.setLock b k).rhr = rb.rhr := by cases k <;> rfl

end Sys2Proof.Machine
end

