-- ==== Sys2Proof/Laws/Ring.lean ====
section
/-!
SUPPORT. The ring buffer's shared operations, one lemma each for everything they can do: register
tables, cursor distances, reclaim, put, add, forced add, read and peek.
-/

namespace Sys2Proof.Machine

/-! ### Register tables -/

theorem RB.cursor_setCursor (rb : RB) {k v : Nat} (j : Nat) (hk : k < rb.x.length) (hv : v < 65536) :
    (rb.setCursor k v).cursor j = if j = k then v else rb.cursor j := by
  simp only [RB.cursor, RB.setCursor, List.getElem?_set]
  by_cases h : j = k
  · subst h; simp [hk, Nat.mod_eq_of_lt hv]
  · have : k ≠ j := fun e => h e.symm
    simp [h, this]

theorem RB.lossOf_setLoss (rb : RB) {k : Nat} (j : Nat) (v : Loss) (hk : k < rb.lossRead.length) :
    (rb.setLoss k v).lossOf j = if j = k then v else rb.lossOf j := by
  simp only [RB.lossOf, RB.setLoss, List.getElem?_set]
  by_cases h : j = k
  · subst h; simp [hk]
  · have : k ≠ j := fun e => h e.symm
    simp [h, this]

theorem RB.takenBit_setTaken (rb : RB) (b : Bool) {k : Nat} (j : Nat) (h1 : 1 ≤ k) (hk : k ≤ rb.taken.length) :
    (rb.setTaken b k).takenBit j = if j = k then b else rb.takenBit j := by
  obtain ⟨k, rfl⟩ : ∃ m, k = m + 1 := ⟨k - 1, by omega⟩
  cases j with
  | zero => simp [RB.takenBit]
  | succ j =>
    simp only [RB.takenBit, RB.setTaken, List.getElem?_set]
    by_cases h : j = k
    · subst h; simp [Nat.lt_of_succ_le hk]
    · have : k ≠ j := fun e => h e.symm
      simp [h, this]

theorem RB.lockBit_setLock (rb : RB) (b : Bool) {k : Nat} (j : Nat) (h1 : 1 ≤ k) (hk : k ≤ rb.lock.length) :
    (rb.setLock b k).lockBit j = if j = k then b else rb.lockBit j := by
  obtain ⟨k, rfl⟩ : ∃ m, k = m + 1 := ⟨k - 1, by omega⟩
  cases j with
  | zero => simp [RB.lockBit]
  | succ j =>
    simp only [RB.lockBit, RB.setLock, List.getElem?_set]
    by_cases h : j = k
    · subst h; simp [Nat.lt_of_succ_le hk]
    · have : k ≠ j := fun e => h e.symm
      simp [h, this]

/-- Clearing a lock bit needs no place for it: a place that is not there reads as clear. -/
theorem RB.lockBit_unlock (rb : RB) {k : Nat} (j : Nat) (h1 : 1 ≤ k) :
    (rb.setLock false k).lockBit j = if j = k then false else rb.lockBit j := by
  rcases Nat.lt_or_ge rb.lock.length k with h | h
  · obtain ⟨k, rfl⟩ : ∃ m, k = m + 1 := ⟨k - 1, by omega⟩
    have : rb.lock.set k false = rb.lock := List.set_eq_of_length_le (by omega)
    have e : rb.setLock false (k + 1) = rb := by simp [RB.setLock, this]
    rw [e]; split
    · subst j; simp [RB.lockBit, List.getElem?_eq_none (show rb.lock.length ≤ k by omega)]
    · rfl
  · exact RB.lockBit_setLock rb false j h1 h

@[simp] theorem RB.takenBit_setLock (rb : RB) (b : Bool) (k j : Nat) : (rb.setLock b k).takenBit j = rb.takenBit j := by
  cases j <;> simp [RB.takenBit]

@[simp] theorem RB.lockBit_setTaken (rb : RB) (b : Bool) (k j : Nat) : (rb.setTaken b k).lockBit j = rb.lockBit j := by
  cases j <;> simp [RB.lockBit]

@[simp] theorem RB.cursor_setTaken (rb : RB) (b : Bool) (k j : Nat) : (rb.setTaken b k).cursor j = rb.cursor j := by
  simp [RB.cursor]

@[simp] theorem RB.cursor_setLock (rb : RB) (b : Bool) (k j : Nat) : (rb.setLock b k).cursor j = rb.cursor j := by
  simp [RB.cursor]

@[simp] theorem RB.lossOf_setTaken (rb : RB) (b : Bool) (k j : Nat) : (rb.setTaken b k).lossOf j = rb.lossOf j := by
  simp [RB.lossOf]

@[simp] theorem RB.lossOf_setLock (rb : RB) (b : Bool) (k j : Nat) : (rb.setLock b k).lossOf j = rb.lossOf j := by
  simp [RB.lossOf]

@[simp] theorem RB.lossOf_setCursor (rb : RB) (k v j : Nat) : (rb.setCursor k v).lossOf j = rb.lossOf j := rfl

@[simp] theorem RB.cursor_setLoss (rb : RB) (k : Nat) (v : Loss) (j : Nat) : (rb.setLoss k v).cursor j = rb.cursor j := rfl

theorem RB.takenBit_setCursor (rb : RB) (k v j : Nat) : (rb.setCursor k v).takenBit j = rb.takenBit j := by
  cases j <;> rfl

theorem RB.lockBit_setCursor (rb : RB) (k v j : Nat) : (rb.setCursor k v).lockBit j = rb.lockBit j := by
  cases j <;> rfl

theorem RB.takenBit_setLoss (rb : RB) (k : Nat) (v : Loss) (j : Nat) : (rb.setLoss k v).takenBit j = rb.takenBit j := by
  cases j <;> rfl

theorem RB.lockBit_setLoss (rb : RB) (k : Nat) (v : Loss) (j : Nat) : (rb.setLoss k v).lockBit j = rb.lockBit j := by
  cases j <;> rfl

/-! ### The bits of a buffer depend on the slot count, the two bitmaps and rhr alone -/

theorem RB.held_congr {rb rb' : RB} (hn : rb'.n = rb.n) (ht : rb'.taken = rb.taken) (k : Nat) : rb'.held k = rb.held k := by
  have : rb'.takenBit k = rb.takenBit k := by cases k <;> simp [RB.takenBit, ht]
  simp [RB.held, hn, this]

theorem RB.present_congr {rb rb' : RB} (hn : rb'.n = rb.n) (ht : rb'.taken = rb.taken) (k : Nat) :
    rb'.present k = rb.present k := by
  simp [RB.present, RB.held_congr hn ht k]

theorem RB.locked_congr {rb rb' : RB} (hn : rb'.n = rb.n) (ht : rb'.taken = rb.taken) (hl : rb'.lock = rb.lock) (k : Nat) :
    rb'.locked k = rb.locked k := by
  have : rb'.lockBit k = rb.lockBit k := by cases k <;> simp [RB.lockBit, hl]
  simp [RB.locked, RB.held_congr hn ht k, this]

theorem RB.held_bounds {rb : RB} {k : Nat} (h : rb.held k = true) : 1 ≤ k ∧ k ≤ rb.n.toNat ∧ rb.takenBit k = true := by
  simpa [RB.held, and_assoc] using h

theorem RB.present_of_held {rb : RB} {k : Nat} (h : rb.held k = true) : rb.present k = true := by
  simp [RB.present, h]

theorem RB.present_of_locked {rb : RB} {k : Nat} (h : rb.locked k = true) : rb.present k = true := by
  simp only [RB.locked, Bool.and_eq_true] at h
  exact RB.present_of_held h.1

theorem RB.present_of_readable {rb : RB} {k : Nat} (h : rb.readable k = true) : rb.present k = true := by
  simp only [RB.readable, RB.validh, Bool.and_eq_true, Bool.or_eq_true, decide_eq_true_eq] at h
  rcases h.2 with h | h
  · simp [RB.present, h.1]
  · exact RB.present_of_held h.2

theorem RB.present_le {rb : RB} {k : Nat} (h : rb.present k = true) : k ≤ rb.n.toNat := by
  simp only [RB.present, Bool.or_eq_true, decide_eq_true_eq] at h
  rcases h with rfl | h
  · exact Nat.zero_le _
  · exact (RB.held_bounds h).2.1

theorem RB.Live.present_le_nmax {rb : RB} {par : Config.Params} (hl : rb.Live par) {k : Nat} (h : rb.present k = true) :
    k ≤ par.nmax :=
  (RB.present_le h).trans hl.n_le

theorem RB.Live.locked_of_lock {rb : RB} {par : Config.Params} (hl : rb.Live par) {k : Nat} (h1 : 1 ≤ k)
    (hk : k ≤ rb.n.toNat) (hb : rb.lockBit k = true) :
    rb.locked k = true := by
  simp [RB.locked, RB.held, h1, hk, hb, hl.lock_taken k h1 hk hb]

/-! ### The places of the register tables -/

theorem RB.Sized.lt_x {rb : RB} {par : Config.Params} (hz : rb.Sized par) {k : Nat} (h : k ≤ par.nmax) : k < rb.x.length := by
  have := hz.x; omega

theorem RB.Sized.lt_lossRead {rb : RB} {par : Config.Params} (hz : rb.Sized par) {k : Nat} (h : k ≤ par.nmax) :
    k < rb.lossRead.length := by
  have := hz.lossRead; omega

/-! ### Cursor distances (00_scope.md R9, R12 (b)) -/

theorem ringDistance_lt {size : Nat} (h : 0 < size) (w x : Nat) : ringDistance size w x < size := Nat.mod_lt _ h

/-- The distance from x to the index d cells ahead of it is d, for d below the size. -/
theorem ringDistance_add {size d : Nat} (h : d < size) (x : Nat) : ringDistance size ((x + d) % size) x = d := by
  have hs : 0 < size := by omega
  have hr := Nat.mod_lt x hs
  have hx : (x + d) % size = (x % size + d) % size := by simp
  unfold ringDistance
  rw [hx]
  generalize x % size = r at *
  rcases Nat.lt_or_ge (r + d) size with hlt | hge
  · rw [Nat.mod_eq_of_lt hlt, show r + d + (size - r) = d + size by omega, Nat.add_mod_right, Nat.mod_eq_of_lt h]
  · have e : (r + d) % size = r + d - size := by
      rw [Nat.mod_eq_sub_mod hge, Nat.mod_eq_of_lt (by omega)]
    rw [e, show r + d - size + (size - r) = d by omega, Nat.mod_eq_of_lt h]

/-- The index `ringDistance` cells ahead of x is w. -/
theorem add_ringDistance {size w : Nat} (h : w < size) (x : Nat) : (x + ringDistance size w x) % size = w := by
  have hs : 0 < size := by omega
  have hr := Nat.mod_lt x hs
  unfold ringDistance
  rw [Nat.add_mod, Nat.mod_mod]
  generalize x % size = r at *
  rcases Nat.lt_or_ge (w + (size - r)) size with hlt | hge
  · rw [Nat.mod_eq_of_lt hlt, show r + (w + (size - r)) = w + size by omega, Nat.add_mod_right, Nat.mod_eq_of_lt h]
  · rw [Nat.mod_eq_sub_mod hge, Nat.mod_eq_of_lt (show w + (size - r) - size < size by omega),
      show r + (w + (size - r) - size) = w by omega, Nat.mod_eq_of_lt h]

theorem ringDistance_self {size x : Nat} (h : x < size) : ringDistance size x x = 0 := by
  simpa [Nat.mod_eq_of_lt h] using ringDistance_add (show 0 < size by omega) x

theorem ringDistance_mod {size : Nat} (w x : Nat) : ringDistance size w (x % size) = ringDistance size w x := by
  simp [ringDistance]

/-- Two different offsets less than the size apart never fall on the same index. -/
theorem ring_index_ne {size a b : Nat} (x : Nat) (hab : a < b) (hlt : b < a + size) : (x + a) % size ≠ (x + b) % size := by
  intro e
  have h1 : x + a ≡ x + b [MOD size] := e
  have h2 := Nat.ModEq.add_left_cancel' x h1
  have h3 := (Nat.modEq_iff_dvd' hab.le).1 h2
  have h4 := Nat.le_of_dvd (by omega) h3
  omega

/-! ### Unread counts -/

theorem RB.unread_lt {rb : RB} (h : 1 ≤ rb.size.toNat) (k : Nat) : rb.unread k < rb.size.toNat := ringDistance_lt h _ _

theorem RB.unread_le_capacity {rb : RB} (h : 1 ≤ rb.size.toNat) (k : Nat) : rb.unread k ≤ rb.capacity := by
  have := RB.unread_lt h k
  unfold RB.capacity; omega

theorem RB.Live.cursor_add_unread {rb : RB} {par : Config.Params} (hl : rb.Live par) (k : Nat) :
    (rb.cursor k + rb.unread k) % rb.size.toNat = rb.w.toNat := add_ringDistance hl.w_lt _

theorem RB.le_maxUnread (rb : RB) (p : Nat → Bool) : ∀ {m k : Nat}, k ≤ m → p k = true → rb.unread k ≤ rb.maxUnread p m
  | 0, k, hk, hp => by
    obtain rfl : k = 0 := by omega
    simp [RB.maxUnread, hp]
  | m + 1, k, hk, hp => by
    simp only [RB.maxUnread]
    rcases Nat.lt_or_ge m k with h | h
    · obtain rfl : k = m + 1 := by omega
      simp [hp]
    · exact (RB.le_maxUnread rb p h hp).trans (Nat.le_max_right _ _)

theorem RB.maxUnread_le (rb : RB) (p : Nat → Bool) {b : Nat} : ∀ {m : Nat},
    (∀ k, k ≤ m → p k = true → rb.unread k ≤ b) → rb.maxUnread p m ≤ b
  | 0, h => by
    simp only [RB.maxUnread]; split
    · exact h 0 le_rfl ‹_›
    · exact Nat.zero_le _
  | m + 1, h => by
    simp only [RB.maxUnread]
    refine Nat.max_le.2 ⟨?_, RB.maxUnread_le rb p fun k hk => h k (by omega)⟩
    split
    · exact h _ le_rfl ‹_›
    · exact Nat.zero_le _

theorem RB.eligible_le {rb : RB} {k : Nat} (h : rb.eligible k = true) : k ≤ rb.n.toNat := by
  simp only [RB.eligible, Bool.or_eq_true, Bool.and_eq_true, decide_eq_true_eq] at h
  rcases h with ⟨rfl, _⟩ | h
  · exact Nat.zero_le _
  · exact (RB.held_bounds h).2.1

theorem RB.present_of_eligible {rb : RB} {k : Nat} (h : rb.eligible k = true) : rb.present k = true := by
  simp only [RB.eligible, Bool.or_eq_true, Bool.and_eq_true, decide_eq_true_eq] at h
  rcases h with ⟨rfl, _⟩ | h
  · simp [RB.present]
  · exact RB.present_of_held h

theorem RB.eligible_of_locked {rb : RB} {k : Nat} (h : rb.locked k = true) : rb.eligible k = true := by
  simp only [RB.locked, Bool.and_eq_true] at h
  simp [RB.eligible, h.1]

/-- `n ≤ avail()` exactly when n bytes fit behind every eligible cursor, and n ≤ C. -/
theorem RB.le_avail_iff {rb : RB} (n : Nat) :
    n ≤ rb.avail ↔ n = 0 ∨ (n ≤ rb.capacity ∧ ∀ k, rb.eligible k = true → rb.unread k + n ≤ rb.capacity) := by
  constructor
  · intro h
    rcases Nat.eq_zero_or_pos n with h0 | h0
    · exact .inl h0
    · refine .inr ⟨?_, fun k hk => ?_⟩
      · unfold RB.avail at h; omega
      · have := RB.le_maxUnread rb rb.eligible (RB.eligible_le hk) hk
        unfold RB.avail at h; omega
  · rintro (rfl | ⟨h0, h⟩)
    · exact Nat.zero_le _
    · have : rb.maxUnread rb.eligible rb.n.toNat ≤ rb.capacity - n :=
        RB.maxUnread_le rb _ fun k _ hk => by have := h k hk; omega
      unfold RB.avail; omega

/-- A forced add of n bytes is blocked exactly when some locked cursor has too many unread bytes. -/
theorem RB.lockBlocks_iff (rb : RB) (n : Nat) : ∀ (m : Nat), rb.lockBlocks n m = true ↔
    ∃ k, 1 ≤ k ∧ k ≤ m ∧ rb.locked k = true ∧ rb.unread k + n > rb.capacity
  | 0 => by simp [RB.lockBlocks]
  | m + 1 => by
    simp only [RB.lockBlocks, Bool.or_eq_true, Bool.and_eq_true, decide_eq_true_eq, RB.lockBlocks_iff rb n m]
    constructor
    · rintro (⟨h1, h2⟩ | ⟨k, h1, h2, h3⟩)
      · exact ⟨m + 1, by omega, le_rfl, h1, h2⟩
      · exact ⟨k, h1, by omega, h3⟩
    · rintro ⟨k, h1, h2, h3, h4⟩
      rcases Nat.lt_or_ge m k with h | h
      · obtain rfl : k = m + 1 := by omega
        exact .inl ⟨h3, h4⟩
      · exact .inr ⟨k, h1, h, h3, h4⟩

theorem RB.locked_bounds {rb : RB} {k : Nat} (h : rb.locked k = true) : 1 ≤ k ∧ k ≤ rb.n.toNat := by
  simp only [RB.locked, Bool.and_eq_true] at h
  exact ⟨(RB.held_bounds h.1).1, (RB.held_bounds h.1).2.1⟩

/-! ### Reclaim and put -/

theorem RB.cursor_reclaim {rb : RB} (hs : 1 ≤ rb.size.toNat) (par : Config.Params) (len : Nat) {k : Nat}
    (hk : k < rb.x.length) :
    (rb.reclaim par len).cursor k =
      if rb.reclaims len k then (rb.cursor k + rb.mustLose len k) % rb.size.toNat else rb.cursor k := by
  have hlt : (rb.cursor k + rb.mustLose len k) % rb.size.toNat < 65536 :=
    lt_trans (Nat.mod_lt _ hs) rb.size.isLt
  have hx : rb.x[k]? = some rb.x[k] := List.getElem?_eq_getElem hk
  by_cases h : rb.reclaims len k = true
  · simp only [RB.cursor, RB.reclaim, List.getElem?_mapIdx, hx, h, Option.map_some, Option.getD_some, if_true] at hlt ⊢
    simp [Nat.mod_eq_of_lt hlt]
  · simp [RB.cursor, RB.reclaim, List.getElem?_mapIdx, hx, h]

theorem RB.lossOf_reclaim (rb : RB) (par : Config.Params) (len : Nat) {k : Nat} (hk : k < rb.lossRead.length) :
    (rb.reclaim par len).lossOf k =
      if rb.reclaims len k then (rb.lossOf k).bump par (rb.mustLose len k) else rb.lossOf k := by
  have hx : rb.lossRead[k]? = some rb.lossRead[k] := List.getElem?_eq_getElem hk
  by_cases h : rb.reclaims len k = true
  · simp [RB.lossOf, RB.reclaim, List.getElem?_mapIdx, hx, h]
  · simp [RB.lossOf, RB.reclaim, List.getElem?_mapIdx, hx, h]

/-- `reclaim` leaves a cursor it does not move, and a place that is not there, as they were. -/
theorem RB.reclaim_of_not_reclaims {rb : RB} (par : Config.Params) {len k : Nat} (h : rb.reclaims len k = false) :
    (rb.reclaim par len).cursor k = rb.cursor k ∧ (rb.reclaim par len).lossOf k = rb.lossOf k := by
  constructor
  · cases hx : rb.x[k]? <;> simp [RB.cursor, RB.reclaim, List.getElem?_mapIdx, hx, h]
  · cases hx : rb.lossRead[k]? <;> simp [RB.lossOf, RB.reclaim, List.getElem?_mapIdx, hx, h]

/-- Where cursor k stands after `reclaim` and `put`: past what it must lose, if it is present and unlocked. -/
theorem RB.reclaim_put_cursor {rb : RB} {par : Config.Params} (hl : rb.Live par) (hz : rb.Sized par) (d : List Byte)
    {k : Nat} (hk : rb.present k = true) :
    ((rb.reclaim par d.length).put d).cursor k =
      if rb.locked k then rb.cursor k else (rb.cursor k + rb.mustLose d.length k) % rb.size.toNat := by
  have hk' := RB.present_le hk
  change (rb.reclaim par d.length).cursor k = _
  rw [RB.cursor_reclaim hl.size_pos _ _ (hz.lt_x (hl.present_le_nmax hk))]
  by_cases hlk : rb.locked k = true
  · simp [RB.reclaims, hlk]
  · by_cases hm : 0 < rb.mustLose d.length k
    · simp [RB.reclaims, hlk, hk', hk, hm]
    · have h0 : rb.mustLose d.length k = 0 := by omega
      simp [RB.reclaims, hlk, h0, Nat.mod_eq_of_lt (hl.cursor_lt k hk)]

theorem RB.Live.put_w {rb : RB} {par : Config.Params} (hl : rb.Live par) (d : List Byte) :
    (rb.put d).w.toNat = (rb.w.toNat + d.length) % rb.size.toNat := by
  have : (rb.w.toNat + d.length) % rb.size.toNat < 65536 := lt_trans (Nat.mod_lt _ hl.size_pos) rb.size.isLt
  simp [Nat.mod_eq_of_lt this]

/-- After `reclaim` and `put`, an unlocked cursor has its old unread bytes and the new ones, at most C. -/
theorem RB.reclaim_put_unread {rb : RB} {par : Config.Params} (hl : rb.Live par) (hz : rb.Sized par) (d : List Byte)
    {k : Nat} (hk : rb.present k = true)
    (hfit : rb.locked k = true → rb.unread k + d.length ≤ rb.capacity) :
    ((rb.reclaim par d.length).put d).unread k = min rb.capacity (rb.unread k + d.length) := by
  have hcur := RB.reclaim_put_cursor hl hz d hk
  have hw : ((rb.reclaim par d.length).put d).w.toNat = (rb.w.toNat + d.length) % rb.size.toNat := RB.Live.put_w hl d
  have hu := RB.unread_lt hl.size_pos k
  have hC : rb.capacity = rb.size.toNat - 1 := rfl
  have hpos := hl.size_pos
  have key : (rb.w.toNat + d.length) % rb.size.toNat
      = (rb.cursor k + (rb.unread k + d.length)) % rb.size.toNat := by
    conv_lhs => rw [← hl.cursor_add_unread k]
    rw [Nat.mod_add_mod, Nat.add_assoc]
  unfold RB.unread at *
  rw [hw, hcur, key]
  change ringDistance rb.size.toNat _ _ = _
  have hlose : rb.mustLose d.length k = ringDistance rb.size.toNat rb.w.toNat (rb.cursor k) + d.length - rb.capacity := rfl
  by_cases hlk : rb.locked k = true
  · have := hfit hlk
    simp only [hlk, if_true]
    rw [ringDistance_add (by omega)]
    omega
  · have hf : rb.locked k = false := by simpa using hlk
    simp only [hf, Bool.false_eq_true, if_false, ringDistance_mod]
    have : rb.cursor k + (ringDistance rb.size.toNat rb.w.toNat (rb.cursor k) + d.length)
        = (rb.cursor k + rb.mustLose d.length k) +
          (ringDistance rb.size.toNat rb.w.toNat (rb.cursor k) + d.length - rb.mustLose d.length k) := by omega
    rw [this, ringDistance_add (by omega)]
    omega

/-- After `reclaim` and `put`, a cursor reads its old unread bytes and then the new ones, less the oldest
of them when they are more than C. -/
theorem RB.reclaim_put_content {rb : RB} {par : Config.Params} (hl : rb.Live par) (hz : rb.Sized par)
    (hm : rb.mem.wf = true) (d : List Byte) {k : Nat} (hk : rb.present k = true) (hfit : rb.locked k = true → rb.unread k + d.length ≤ rb.capacity) :
    ((rb.reclaim par d.length).put d).content k = (rb.content k ++ d).drop (rb.mustLose d.length k) := by
  have hun := RB.reclaim_put_unread hl hz d hk hfit
  have hcur := RB.reclaim_put_cursor hl hz d hk
  have hu := RB.unread_lt hl.size_pos k
  have hC : rb.capacity = rb.size.toNat - 1 := rfl
  have hpos := hl.size_pos
  have hlose : rb.mustLose d.length k = rb.unread k + d.length - rb.capacity := rfl
  have hcur' : ((rb.reclaim par d.length).put d).cursor k % rb.size.toNat
      = (rb.cursor k + rb.mustLose d.length k) % rb.size.toNat := by
    rw [hcur]
    by_cases hlk : rb.locked k = true
    · have := hfit hlk
      simp [hlk, show rb.mustLose d.length k = 0 by omega]
    · simp [hlk]
  apply List.ext_getElem?
  intro i
  have hlen : (rb.content k ++ d).length = rb.unread k + d.length := by simp [RB.content]
  rw [List.getElem?_drop]
  unfold RB.content at *
  change (Memory.readRing _ rb.size.toNat _ _)[i]? = _
  by_cases hi : i < ((rb.reclaim par d.length).put d).unread k
  · rw [Memory.getElem?_readRing _ _ _ _ _ hi]
    rw [← Nat.mod_add_mod, hcur', Nat.mod_add_mod]
    have hmem : ((rb.reclaim par d.length).put d).mem = rb.mem.writeRing rb.size.toNat rb.w.toNat d := rfl
    rw [hmem, hun] at *
    rw [show rb.cursor k + rb.mustLose d.length k + i = rb.cursor k + (rb.mustLose d.length k + i) by omega]
    by_cases hj : rb.mustLose d.length k + i < rb.unread k
    · rw [List.getElem?_append_left (by simpa using hj), Memory.getElem?_readRing _ _ _ _ _ hj]
      rw [Memory.read_writeRing_of_ne _ _ _ _ _ hm]
      intro t ht
      rw [← hl.cursor_add_unread k, Nat.mod_add_mod, Nat.add_assoc]
      exact (ring_index_ne _ (by omega) (by omega)).symm
    · rw [List.getElem?_append_right (by simpa using hj)]
      simp only [Memory.length_readRing]
      have ht : rb.mustLose d.length k + i - rb.unread k < d.length := by omega
      rw [List.getElem?_eq_getElem ht]
      have hidx : (rb.w.toNat + (rb.mustLose d.length k + i - rb.unread k)) % rb.size.toNat
          = (rb.cursor k + (rb.mustLose d.length k + i)) % rb.size.toNat := by
        rw [← hl.cursor_add_unread k, Nat.mod_add_mod]
        congr 1; omega
      rw [← Memory.read_writeRing rb.size.toNat hpos d rb.mem rb.w.toNat _ hm ht (by omega), hidx]
  · rw [List.getElem?_eq_none (by simpa using hi), List.getElem?_eq_none]
    rw [hlen]; omega

/-! ### Add and forced add -/

/-- Everything RB.ADD's operation can do (R150). -/
theorem RB.add_cases (rb : RB) (par : Config.Params) (d : List Byte) :
    (rb.created = false ∧ rb.add par d = (rb, false)) ∨
    (rb.created = true ∧ d.length > rb.avail ∧ rb.add par d = (rb.refuseAdd par d.length, false)) ∨
    (rb.created = true ∧ d.length ≤ rb.avail ∧ rb.add par d = ((rb.reclaim par d.length).put d, true)) := by
  unfold RB.add
  by_cases hc : rb.created = true
  · by_cases ha : d.length > rb.avail
    · exact .inr (.inl ⟨hc, ha, by simp [hc, ha]⟩)
    · exact .inr (.inr ⟨hc, by omega, by simp [hc, ha]⟩)
  · exact .inl ⟨by simpa using hc, by simp [hc]⟩

/-- Everything RB.FADD's operation can do (R151). -/
theorem RB.forceAdd_cases (rb : RB) (par : Config.Params) (d : List Byte) :
    (rb.created = false ∧ rb.forceAdd par d = (rb, false)) ∨
    (rb.created = true ∧ (∃ k, rb.locked k = true ∧ rb.unread k + d.length > rb.capacity) ∧
      rb.forceAdd par d = (rb.refuseAdd par d.length, false)) ∨
    (rb.created = true ∧ (∀ k, rb.locked k = true → rb.unread k + d.length ≤ rb.capacity) ∧
      rb.forceAdd par d = ((rb.reclaim par d.length).put d, true)) := by
  unfold RB.forceAdd
  by_cases hc : rb.created = true
  · by_cases hb : rb.lockBlocks d.length rb.n.toNat = true
    · obtain ⟨k, -, -, h3, h4⟩ := (RB.lockBlocks_iff rb _ _).1 hb
      exact .inr (.inl ⟨hc, ⟨k, h3, h4⟩, by simp [hc, hb]⟩)
    · refine .inr (.inr ⟨hc, fun k hk => ?_, by simp [hc, hb]⟩)
      by_contra h
      exact hb ((RB.lockBlocks_iff rb _ _).2
        ⟨k, (RB.locked_bounds hk).1, (RB.locked_bounds hk).2, hk, by omega⟩)
  · exact .inl ⟨by simpa using hc, by simp [hc]⟩

/-- A locked cursor is eligible, so an add that fits leaves room behind every locked cursor. -/
theorem RB.locked_fits_of_avail {rb : RB} {n k : Nat} (h : n ≤ rb.avail) (hs : 1 ≤ rb.size.toNat)
    (hk : rb.locked k = true) : rb.unread k + n ≤ rb.capacity := by
  rcases (RB.le_avail_iff n).1 h with rfl | ⟨-, h⟩
  · simpa using RB.unread_le_capacity hs k
  · exact h k (RB.eligible_of_locked hk)

/-! ### Read and peek -/

/-- A peek copies the front of what the cursor will read next, at most n bytes (R158). -/
theorem RB.peek_eq {rb : RB} {h : Nat} (n : Nat) (hr : rb.readable h = true) : rb.peek h n = (rb.content h).take n := by
  apply List.ext_getElem?
  intro i
  simp only [RB.peek, hr, if_true, RB.content, List.getElem?_take]
  by_cases hi : i < n
  · by_cases hj : i < rb.unread h
    · rw [Memory.getElem?_readRing _ _ _ _ _ (by omega), Memory.getElem?_readRing _ _ _ _ _ hj, if_pos hi]
    · rw [List.getElem?_eq_none (by simp; omega), List.getElem?_eq_none (by simp; omega), if_pos hi]
  · rw [List.getElem?_eq_none (by simp; omega), if_neg hi]

theorem RB.peek_of_not_readable {rb : RB} {h : Nat} (n : Nat) (hr : rb.readable h = false) : rb.peek h n = [] := by
  simp [RB.peek, hr]

@[simp] theorem RB.length_content (rb : RB) (k : Nat) : (rb.content k).length = rb.unread k := by simp [RB.content]

/-- Everything RB.READH's operation can do (R157). -/
theorem RB.read_cases (rb : RB) (h n : Nat) :
    (rb.readable h = false ∧ rb.read h n = (rb, [])) ∨
    (rb.readable h = true ∧
      rb.read h n = (rb.setCursor h ((rb.cursor h + min n (rb.unread h)) % rb.size.toNat), (rb.content h).take n)) := by
  by_cases hr : rb.readable h = true
  · exact .inr ⟨hr, by simp [RB.read, hr, RB.peek_eq n hr]⟩
  · exact .inl ⟨by simpa using hr, by simp [RB.read, hr]⟩

/-- After a read of m bytes a cursor's unread count is m less, and what it reads next is what is left. -/
theorem RB.read_content {rb : RB} {par : Config.Params} (hl : rb.Live par) {h m : Nat} (hk : h < rb.x.length)
    (hm : m ≤ rb.unread h) :
    (rb.setCursor h ((rb.cursor h + m) % rb.size.toNat)).unread h = rb.unread h - m ∧
    (rb.setCursor h ((rb.cursor h + m) % rb.size.toNat)).content h = (rb.content h).drop m := by
  have hlt : (rb.cursor h + m) % rb.size.toNat < 65536 := lt_trans (Nat.mod_lt _ hl.size_pos) rb.size.isLt
  have hc := RB.cursor_setCursor rb h hk hlt
  rw [if_pos rfl] at hc
  have hu := RB.unread_lt hl.size_pos h
  have hun : (rb.setCursor h ((rb.cursor h + m) % rb.size.toNat)).unread h = rb.unread h - m := by
    unfold RB.unread at hm hu ⊢
    rw [hc]
    change ringDistance rb.size.toNat rb.w.toNat _ = _
    rw [ringDistance_mod]
    conv_lhs => rw [← hl.cursor_add_unread h]
    unfold RB.unread
    rw [show rb.cursor h + ringDistance rb.size.toNat rb.w.toNat (rb.cursor h)
      = (rb.cursor h + m) + (ringDistance rb.size.toNat rb.w.toNat (rb.cursor h) - m) by omega]
    exact ringDistance_add (by omega) _
  refine ⟨hun, ?_⟩
  apply List.ext_getElem?
  intro i
  rw [List.getElem?_drop]
  unfold RB.content
  rw [hun, hc]
  change (Memory.readRing rb.mem rb.size.toNat _ _)[i]? = _
  by_cases hi : i < rb.unread h - m
  · rw [Memory.getElem?_readRing _ _ _ _ _ hi, Memory.getElem?_readRing _ _ _ _ _ (by omega), Nat.mod_add_mod, Nat.add_assoc]
  · rw [List.getElem?_eq_none (by simpa using hi), List.getElem?_eq_none (by simp; omega)]

/-- Moving one cursor leaves what every other cursor reads. -/
theorem RB.content_setCursor_of_ne (rb : RB) {j k v : Nat} (h : j ≠ k) : (rb.setCursor k v).content j = rb.content j := by
  have : (rb.setCursor k v).cursor j = rb.cursor j := by
    simp only [RB.cursor, RB.setCursor, List.getElem?_set]
    have : k ≠ j := fun e => h e.symm
    simp [this]
  simp only [RB.content, RB.unread, this]
  rfl

/-! ### Handles, and slots that do not exist -/

theorem RB.validh_iff (rb : RB) (h : Nat) :
    rb.validh h = true ↔ rb.created = true ∧ 1 ≤ h ∧ h ≤ rb.n.toNat ∧ rb.takenBit h = true := by
  simp [RB.validh, RB.held, and_assoc]

theorem RB.readable_iff (rb : RB) (h : Byte) : rb.readable h.toNat = true ↔
    rb.created = true ∧ ((h = 0 ∧ rb.rhr = false) ∨ rb.held h.toNat = true) := by
  have : (h.toNat = 0) ↔ h = 0 := ⟨fun e => BitVec.eq_of_toNat_eq (by simpa using e), fun e => by simp [e]⟩
  simp only [RB.readable, RB.validh, Bool.and_eq_true, Bool.or_eq_true, decide_eq_true_eq, Bool.not_eq_true', this]
  tauto

theorem RB.takenBit_le {rb : RB} {k : Nat} (h : rb.takenBit k = true) : 1 ≤ k ∧ k ≤ rb.taken.length := by
  cases k with
  | zero => simp [RB.takenBit] at h
  | succ k =>
    refine ⟨by omega, ?_⟩
    by_contra hk
    have : rb.taken[k]? = none := by simp; omega
    simp [RB.takenBit, this] at h

/-- The slot search finds the lowest free slot of the range it looks at (R124). -/
theorem RB.freeSlotFrom_some (rb : RB) : ∀ (fuel k m : Nat), k ≤ m → m < k + fuel → rb.takenBit m = false →
    (∀ j, k ≤ j → j < m → rb.takenBit j = true) → rb.freeSlotFrom k fuel = some m
  | 0, k, m, h1, h2, _, _ => by omega
  | fuel + 1, k, m, h1, h2, h3, h4 => by
    unfold RB.freeSlotFrom
    by_cases hk : k = m
    · subst hk; simp [h3]
    · rw [if_pos (h4 k le_rfl (by omega))]
      exact RB.freeSlotFrom_some rb fuel (k + 1) m (by omega) (by omega) h3 (fun j a b => h4 j (by omega) b)

theorem RB.freeSlotFrom_none (rb : RB) : ∀ (fuel k : Nat), (∀ j, k ≤ j → j < k + fuel → rb.takenBit j = true) →
    rb.freeSlotFrom k fuel = none
  | 0, _, _ => rfl
  | fuel + 1, k, h => by
    unfold RB.freeSlotFrom
    rw [if_pos (h k le_rfl (by omega))]
    exact RB.freeSlotFrom_none rb fuel (k + 1) (fun j a b => h j (by omega) (by omega))

/-- What every register reads after slot k has been acquired (40_rb_lifecycle.md R124). -/
theorem RB.takeSlot_reads {rb : RB} {par : Config.Params} (hz : rb.Sized par) {k : Nat} (h1 : 1 ≤ k) (hk : k ≤ par.nmax)
    (j : Nat) :
    (rb.takeSlot k).takenBit j = (if j = k then true else rb.takenBit j) ∧
    (rb.takeSlot k).lockBit j = (if j = k then false else rb.lockBit j) ∧
    (rb.takeSlot k).cursor j = (if j = k then rb.w.toNat else rb.cursor j) ∧
    (rb.takeSlot k).lossOf j = (if j = k then 0 else rb.lossOf j) := by
  have hx := hz.lt_x hk
  have hl := hz.lt_lossRead hk
  have ht : k ≤ rb.taken.length := hz.taken ▸ hk
  refine ⟨?_, ?_, ?_, ?_⟩
  · rw [RB.takeSlot, RB.takenBit_setLoss, RB.takenBit_setCursor, RB.takenBit_setLock, RB.takenBit_setTaken _ _ _ h1 ht]
  · rw [RB.takeSlot, RB.lockBit_setLoss, RB.lockBit_setCursor, RB.lockBit_unlock _ _ h1, RB.lockBit_setTaken]
  · rw [RB.takeSlot, RB.cursor_setLoss, RB.cursor_setCursor _ _ (by simpa using hx) rb.w.isLt, RB.cursor_setLock,
      RB.cursor_setTaken]
  · rw [RB.takeSlot, RB.lossOf_setLoss _ _ _ (by simpa [RB.setCursor] using hl), RB.lossOf_setCursor, RB.lossOf_setLock,
      RB.lossOf_setTaken]

/-- The maximum over the cursors is 0 or some cursor's. -/
theorem RB.maxUnread_attained (rb : RB) (p : Nat → Bool) : ∀ m,
    rb.maxUnread p m = 0 ∨ ∃ k, k ≤ m ∧ p k = true ∧ rb.unread k = rb.maxUnread p m
  | 0 => by
    simp only [RB.maxUnread]; split
    · exact .inr ⟨0, le_rfl, ‹_›, rfl⟩
    · exact .inl rfl
  | m + 1 => by
    simp only [RB.maxUnread]
    rcases RB.maxUnread_attained rb p m with h | ⟨k, h1, h2, h3⟩
    · split
      · exact .inr ⟨m + 1, le_rfl, ‹_›, by omega⟩
      · left; omega
    · split
      · rcases Nat.le_total (rb.unread (m + 1)) (rb.maxUnread p m) with h | h
        · exact .inr ⟨k, by omega, h2, by omega⟩
        · exact .inr ⟨m + 1, le_rfl, ‹_›, by omega⟩
      · exact .inr ⟨k, by omega, h2, by omega⟩

/-- Everything `reclaim` followed by `put` does (R152, R153). -/
theorem RB.reclaim_put_stored {rb : RB} {par : Config.Params} (hi : rb.Inv par) (hl : rb.Live par) (d : List Byte) :
    RB.Stored par rb ((rb.reclaim par d.length).put d) d where
  shape := ⟨rfl, rfl, rfl, rfl, rfl, rfl⟩
  lossAdd := rfl
  w := RB.Live.put_w (rb := rb) hl d
  bytes := fun i h hle => Memory.read_writeRing rb.size.toNat hl.size_pos d rb.mem rb.w.toNat i hi.mem_wf h hle
  outside := fun a h => Memory.read_writeRing_of_ne rb.size.toNat a d rb.mem rb.w.toNat hi.mem_wf h
  moved := by
    intro k hp hk
    have hn := hl.present_le_nmax hp
    refine ⟨?_, ?_⟩
    · rw [RB.reclaim_put_cursor hl hi.sized d hp]; simp [hk, RB.mustLose]
    · change (rb.reclaim par d.length).lossOf k = _
      rw [RB.lossOf_reclaim rb _ _ (hi.sized.lt_lossRead hn)]
      by_cases hz : 0 < rb.mustLose d.length k
      · simp only [RB.reclaims, RB.present_le hp, hp, hk, hz]; simp [Loss.bump, RB.mustLose]
      · have hz : rb.unread k + d.length - rb.capacity = 0 := by unfold RB.mustLose at hz; omega
        simp [RB.reclaims, RB.mustLose, hz, Nat.mod_eq_of_lt (hi.loss_lt k)]
  kept := by
    intro k hk
    exact RB.reclaim_of_not_reclaims par (by rcases hk with h | h <;> simp [RB.reclaims, h])

/-! ### The ring-buffer commands in terms of those operations -/

theorem exec_rbAdd (d : List Byte) (s : State) : exec (.rbAdd d) s =
    .next { s with rb := (s.rb.add s.par d).1, mutex := .free, port := ⟨some (boolWord (s.rb.add s.par d).2), []⟩ } := rfl

theorem exec_rbFadd (d : List Byte) (s : State) : exec (.rbFadd d) s =
    .next { s with
      rb := (s.rb.forceAdd s.par d).1, mutex := .free
      port := ⟨some (boolWord (s.rb.forceAdd s.par d).2), []⟩ } := rfl

theorem exec_rbReadh (h : Byte) (n : Half) (s : State) : exec (.rbReadh h n) s =
    .next { s with
      rb := (s.rb.read h.toNat n.toNat).1, mutex := .free
      port := ⟨some (countWord (s.rb.read h.toNat n.toNat).2.length), (s.rb.read h.toNat n.toNat).2⟩ } := rfl

theorem exec_rbPeekh (h : Byte) (n : Half) (s : State) : exec (.rbPeekh h n) s =
    .next { s with
      mutex := .free
      port := ⟨some (countWord (s.rb.peek h.toNat n.toNat).length), s.rb.peek h.toNat n.toNat⟩ } := rfl

end Sys2Proof.Machine
end

