-- ==== Sys2Proof/Laws/Step.lean ====
section
/-!
SUPPORT. What one step does once its turn is known, whether the turn stands on the agenda or is the
environment's free choice: cited instead of unfolding `step`.
-/

namespace Sys2Proof.Machine

open Host

/-- Some turn is taken at every state. -/
theorem exists_takes (s : State) : ∃ t u, s.Takes t u := by
  rcases h : s.env.agenda with _ | ⟨t, rest⟩
  · exact ⟨_, _, .inr ⟨h, rfl, rfl⟩⟩
  · exact ⟨t, _, .inl ⟨rest, h, rfl⟩⟩

/-- A step runs the agent of the turn it takes on the state that turn leaves. -/
theorem step_of_takes {s u : State} {t : Config.Turn} (h : s.Takes t u) :
    step s = match t.agent with
      | .host words input => (u.present words input).hostStep
      | .line received sent => .next (u.lineStep received sent)
      | .pump => .next u.pumpStep
      | .drain => .next u.drainStep
      | .engine => .next u.engineStep := by
  rcases h with ⟨rest, h, rfl⟩ | ⟨h, rfl, rfl⟩ <;> simp only [step, State.nextTurn, h] <;> rfl

/-- Taking a turn writes the environment's fields alone, and leaves the port's streams. -/
theorem State.Takes.same {s u : State} {t : Config.Turn} (h : s.Takes t u) :
    u.par = s.par ∧ u.rb = s.rb ∧ u.mutex = s.mutex ∧ u.edm = s.edm ∧ u.ubx = s.ubx ∧ u.uart = s.uart ∧
      u.link = s.link ∧ u.port = s.port ∧ u.env.words = s.env.words ∧ u.env.input = s.env.input := by
  rcases h with ⟨rest, h, rfl⟩ | ⟨h, rfl, rfl⟩ <;> exact ⟨rfl, rfl, rfl, rfl, rfl, rfl, rfl, rfl, rfl, rfl⟩

end Sys2Proof.Machine
end

