-- ==== Sys2Proof/Laws/Ubx.lean ====
section
/-!
SUPPORT. The ubx decoder's pass: what it does on junk, on a body, on a whole frame, and the bounds of
what it finds; and how the engine's scan ends.
-/

namespace Sys2Proof.Machine

/-! ### The checksum -/

theorem Cksum.over_append (c : Cksum) : ∀ (a b : List Byte), c.over (a ++ b) = (c.over a).over b := by
  intro a
  induction a generalizing c with
  | nil => intro b; rfl
  | cons v vs ih => intro b; exact ih (c.upd v) b

@[simp] theorem Cksum.over_nil (c : Cksum) : c.over [] = c := rfl

@[simp] theorem Cksum.over_cons (c : Cksum) (v : Byte) (vs : List Byte) : c.over (v :: vs) = (c.upd v).over vs := rfl

/-! ### 16-bit fields -/

@[simp] theorem loByte_or_hiByte (v : Half) : halfOf 0 (loByte v) ||| halfOf (hiByte v) 0 = v := by
  apply BitVec.eq_of_getLsbD_eq
  intro i hi
  simp only [halfOf, loByte, hiByte, BitVec.getLsbD_or, BitVec.getLsbD_append, BitVec.getLsbD_extractLsb']
  by_cases h : i < 8
  · simp [h]
  · simp [h, show i - 8 < 8 by omega, show 8 + (i - 8) = i by omega]

@[simp] theorem halfOf_hiByte_loByte (v : Half) : halfOf (hiByte v) (loByte v) = v := by
  apply BitVec.eq_of_getLsbD_eq
  intro i hi
  simp only [halfOf, loByte, hiByte, BitVec.getLsbD_append, BitVec.getLsbD_extractLsb']
  by_cases h : i < 8
  · simp [h]
  · simp [h, show i - 8 < 8 by omega, show 8 + (i - 8) = i by omega]

theorem halfOf_or (a b : Byte) : halfOf a 0 ||| halfOf 0 b = halfOf a b := by
  apply BitVec.eq_of_getLsbD_eq
  intro i hi
  simp only [halfOf, BitVec.getLsbD_or, BitVec.getLsbD_append]
  by_cases h : i < 8 <;> simp [h]

/-! ### The pass -/

theorem Scan.run_cons_of_step {par : Config.Params} {c c' : Scan} {x : Nat} {b : Byte} (bs : List Byte)
    (h : c.step par x b = some c') :
    c.run par x (b :: bs) = c'.run par (x + 1) bs := by
  simp [Scan.run, h]

/-- Bytes that are no sync byte are skipped, with nothing remembered. -/
theorem Scan.run_junk {par : Config.Params} {c : Scan} (hc : c.st = .sync1) : ∀ (j rest : List Byte) (x : Nat),
    par.ubxSync1 ∉ j → c.run par x (j ++ rest) = c.run par (x + j.length) rest
  | [], _, _, _ => rfl
  | b :: j, rest, x, hj => by
    have hb : b ≠ par.ubxSync1 := fun e => hj (by simp [e])
    rw [List.cons_append, Scan.run_cons_of_step _ (show c.step par x b = some c by simp [Scan.step, hc, hb]),
      Scan.run_junk hc j rest (x + 1) (fun h => hj (by simp [h]))]
    congr 1
    simp only [List.length_cons]; omega

/-- The body state takes exactly the bytes the length field announced. -/
theorem Scan.run_body {par : Config.Params} : ∀ (bs rest : List Byte) (c : Scan) (x : Nat), c.st = .body → bs ≠ [] →
    c.cnt + bs.length = c.len.toNat →
    c.run par x (bs ++ rest) =
      Scan.run { c with st := .ckA, cnt := c.len.toNat, body := c.body ++ bs, ck := c.ck.over bs } par (x + bs.length) rest
  | [], _, _, _, _, h, _ => absurd rfl h
  | b :: bs, rest, c, x, hc, _, hl => by
    simp only [List.length_cons] at hl
    rw [List.cons_append]
    by_cases hb : bs = []
    · subst hb
      have he : c.cnt + 1 = c.len.toNat := by simpa using hl
      rw [Scan.run_cons_of_step (c' := { c with st := .ckA, cnt := c.len.toNat, body := c.body ++ [b], ck := c.ck.upd b }) _
        (by simp [Scan.step, hc, he])]
      rfl
    · have hpos : 0 < bs.length := List.length_pos_iff.2 hb
      have he : c.cnt + 1 ≠ c.len.toNat := by omega
      rw [Scan.run_cons_of_step (c' := { c with st := .body, cnt := c.cnt + 1, body := c.body ++ [b], ck := c.ck.upd b }) _
        (by simp [Scan.step, hc, he])]
      rw [Scan.run_body bs rest { c with st := .body, cnt := c.cnt + 1, body := c.body ++ [b], ck := c.ck.upd b } _ rfl hb
        (by simp only; omega)]
      simp only [List.append_assoc, List.singleton_append, Cksum.over_cons, List.length_cons]
      congr 1
      omega

/-- From the state that awaits a sync byte, a frame is found whole, whatever follows it. -/
theorem Scan.run_frame {par : Config.Params} {c : Scan} (hc : c.st = .sync1) (cls id : Byte) (body t : List Byte) (x : Nat)
    (hb : body.length < 65536) :
    c.run par x (ubxFrame par cls id body ++ t) = .found cls id body (x + (body.length + 8)) := by
  have hlen : (BitVec.ofNat 16 body.length).toNat = body.length := by simpa using hb
  simp only [ubxFrame, ubxCovered, littleEndian, List.cons_append, List.nil_append, List.append_assoc]
  rw [Scan.run_cons_of_step (c' := { c with st := .sync2, start := x }) _ (by simp [Scan.step, hc])]
  rw [Scan.run_cons_of_step (c' := { c with st := .cls, start := x }) _ (by simp [Scan.step])]
  rw [Scan.run_cons_of_step (c' := { c with st := .id, start := x, cls := cls, ck := ⟨cls, cls⟩ }) _ (by simp [Scan.step])]
  rw [Scan.run_cons_of_step
    (c' := { c with st := .lenLo, start := x, cls := cls, id := id, ck := Cksum.upd ⟨cls, cls⟩ id }) _ (by simp [Scan.step])]
  generalize hlo : loByte (BitVec.ofNat 16 body.length) = lo
  generalize hhi : hiByte (BitVec.ofNat 16 body.length) = hi
  have hor : halfOf 0 lo ||| halfOf hi 0 = BitVec.ofNat 16 body.length := by
    rw [← hlo, ← hhi]; exact loByte_or_hiByte _
  rw [Scan.run_cons_of_step
    (c' := { c with
      st := .lenHi, start := x, cls := cls, id := id, len := halfOf 0 lo
      ck := (Cksum.upd ⟨cls, cls⟩ id).upd lo }) _ (by simp [Scan.step])]
  rw [Scan.run_cons_of_step
    (c' := { c with
      st := if body.length > 0 then .body else .ckA
      start := x, cls := cls, id := id, len := BitVec.ofNat 16 body.length, cnt := 0, body := []
      ck := ((Cksum.upd ⟨cls, cls⟩ id).upd lo).upd hi }) _
    (by simp only [Scan.step, hor, hlen])]
  have hck : Machine.ck ([cls, id] ++ ([lo, hi] ++ body)) = (((Cksum.upd ⟨cls, cls⟩ id).upd lo).upd hi).over body := by
    simp [Machine.ck, Cksum.upd]
  have fin : ∀ (c' : Scan) (y : Nat), c'.st = .ckA → c'.cls = cls → c'.id = id → c'.body = body →
      c'.ck = Machine.ck ([cls, id] ++ ([lo, hi] ++ body)) →
      c'.run par y ((Machine.ck ([cls, id] ++ ([lo, hi] ++ body))).a :: (Machine.ck ([cls, id] ++ ([lo, hi] ++ body))).b :: t)
        = .found cls id body (y + 2) := by
    intro c' y h1 h2 h3 h4 h5
    rw [Scan.run_cons_of_step (c' := { c' with st := .ckB }) _ (by simp [Scan.step, h1, h5])]
    simp [Scan.run, Scan.step, h2, h3, h4, h5]
  simp only [List.cons_append, List.nil_append] at fin hck ⊢
  by_cases hbody : body = []
  · subst hbody
    simp only [List.length_nil, List.nil_append, gt_iff_lt, lt_irrefl, if_false] at *
    rw [fin _ _ rfl rfl rfl rfl (by rw [hck]; rfl)]
  · have hpos : 0 < body.length := List.length_pos_iff.2 hbody
    rw [Scan.run_body body _ _ _ (by simp [hpos]) hbody (by simp [hlen])]
    rw [fin _ _ rfl rfl rfl rfl (by rw [hck])]
    congr 1; omega

/-- `decode` finds the first frame after junk that holds no sync byte (R255). -/
theorem ubxDecode_junk_frame (par : Config.Params) (j : List Byte) (cls id : Byte) (body t : List Byte)
    (hj : par.ubxSync1 ∉ j)
    (hb : body.length < 65536) :
    ubxDecode par (j ++ (ubxFrame par cls id body ++ t)) = .found cls id body (j.length + (body.length + 8)) := by
  unfold ubxDecode
  rw [Scan.run_junk rfl j _ 0 hj, Scan.run_frame rfl cls id body t _ hb]
  congr 1; omega

@[simp] theorem length_ubxFrame (par : Config.Params) (cls id : Byte) (body : List Byte) :
    (ubxFrame par cls id body).length = body.length + 8 := by
  simp [ubxFrame, ubxCovered, littleEndian]

/-! ### Bounds of what is found -/

/-- How many bytes of a frame the pass has taken in each state, at least. -/
def ScanState.taken : ScanState → Nat
  | .sync1 => 0
  | .sync2 => 1
  | .cls => 2
  | .id => 3
  | .lenLo => 4
  | .lenHi => 5
  | .body => 6
  | .ckA => 6
  | .ckB => 7

theorem Scan.step_taken {par : Config.Params} {c c' : Scan} {x : Nat} {b : Byte} (h : c.step par x b = some c') :
    c'.st.taken ≤ c.st.taken + 1 := by
  unfold Scan.step at h
  cases hst : c.st <;> simp only [hst] at h <;> (repeat' split at h) <;>
    simp only [Option.some.injEq, reduceCtorEq] at h <;> subst h <;> simp [ScanState.taken, hst]

theorem Scan.run_found_bounds {par : Config.Params} : ∀ (bs : List Byte) (c : Scan) (x : Nat) {cls id : Byte}
    {body : List Byte} {next : Nat},
    c.st.taken ≤ x → c.run par x bs = .found cls id body next → 8 ≤ next ∧ next ≤ x + bs.length
  | [], c, x, _, _, _, _, _, h => by
    unfold Scan.run at h; split at h <;> cases h
  | b :: bs, c, x, cls, id, body, next, hx, h => by
    unfold Scan.run at h
    cases hs : c.step par x b with
    | none =>
      simp only [hs] at h
      cases h
      have : c.st = .ckB := by
        unfold Scan.step at hs
        cases hst : c.st <;> simp only [hst] at hs <;> first | rfl | cases hs
      simp [this, ScanState.taken] at hx
      simp; omega
    | some c' =>
      simp only [hs] at h
      have := Scan.run_found_bounds bs c' (x + 1) (by have := Scan.step_taken hs; omega) h
      simp only [List.length_cons]; omega

/-- A found frame is at least 8 bytes, and inside the buffer. -/
theorem ubxDecode_found_bounds {par : Config.Params} {buf : List Byte} {cls id : Byte} {body : List Byte} {next : Nat}
    (h : ubxDecode par buf = .found cls id body next) : 8 ≤ next ∧ next ≤ buf.length := by
  simpa using Scan.run_found_bounds buf Scan.init 0 (Nat.zero_le _) h

/-! ### The engine's scan -/

@[simp] theorem length_lastBytes (k : Nat) (s : List Byte) : (lastBytes k s).length = min k s.length := by
  simp [lastBytes]; omega

/-- However the scan ends with no match, at most `maxBody + UBX_OVERHEAD` bytes stay accumulated (R293), given enough fuel. -/
theorem Ubx.scan_more_length (u : Ubx) (par : Config.Params) : ∀ (fuel : Nat) (acc acc' : List Byte), acc.length < fuel →
    u.scan par fuel acc = .more acc' → acc'.length ≤ u.keep par
  | 0, _, _, h, _ => absurd h (Nat.not_lt_zero _)
  | fuel + 1, acc, acc', hf, h => by
    unfold Ubx.scan at h
    split at h
    · rename_i hd
      split at h
      · cases h
      · have hb := ubxDecode_found_bounds hd
        exact Ubx.scan_more_length u par fuel _ _ (by simp; omega) h
    · cases h; simp
    · cases h; simp

/-- More fuel than bytes changes nothing: the scan never runs out. -/
theorem Ubx.scan_fuel (u : Ubx) (par : Config.Params) : ∀ (f g : Nat) (acc : List Byte), acc.length < f → acc.length < g →
    u.scan par f acc = u.scan par g acc
  | 0, _, _, h, _ => absurd h (Nat.not_lt_zero _)
  | _, 0, _, _, h => absurd h (Nat.not_lt_zero _)
  | f + 1, g + 1, acc, hf, hg => by
    unfold Ubx.scan
    split
    · rename_i hd
      have hb := ubxDecode_found_bounds hd
      split
      · rfl
      · exact Ubx.scan_fuel u par f g _ (by simp; omega) (by simp; omega)
    · rfl
    · rfl

/-! ### Matching and one ENGINE step -/

/-- A frame is the response when its class and its id each match or are not asked for (R294). -/
theorem Ubx.accepts_iff (u : Ubx) (cls id : Byte) : u.accepts cls id = true ↔
    (u.expClass = none ∨ u.expClass = some cls) ∧ (u.expId = none ∨ u.expId = some id) := by
  unfold Ubx.accepts expectMatches
  cases u.expClass <;> cases u.expId <;> simp

theorem Cksum.over_snoc (c : Cksum) (l : List Byte) (v : Byte) : c.over (l ++ [v]) = (c.over l).upd v := by
  rw [Cksum.over_append]; rfl

/-- Everything an ENGINE step does before the deadline with bytes on the line (R290). -/
theorem State.engineStep_of_bytes {s : State} (hp : s.ubx.phase = .poll)
    (ht : (s.env.now - s.ubx.t0).toNat < s.ubx.timeout.toNat) (hr : s.uart.rx ≠ []) :
    s.engineStep =
      match s.readUart.ubx.scan s.par (s.readUart.ubx.acc.length + 1) s.readUart.ubx.acc with
      | .matched cls id body => s.readUart.complete cls id body
      | .more acc => (s.readUart.setUbx { s.readUart.ubx with acc := acc }).silent := by
  have hn : ¬ s.ubx.phase = .idle := by simp [hp]
  have he : ¬ s.ubx.expired s.env.now = true := by simp only [Ubx.expired, decide_eq_true_eq]; omega
  unfold State.engineStep
  exact (if_neg hn).trans ((if_neg he).trans (if_neg hr))

end Sys2Proof.Machine
end

