-- ==== Sys2Proof/Tests/Slice0.lean ====
section
/-!
SUPPORT. Tests of the model: the well-formedness smoke, one word per command written out from the spec's
encoding tables, illegal words, one-step tests with results from 95_test_vectors.md, and for every
statement with hypotheses a state and operands that meet them.
-/

namespace Sys2Proof.Tests

open Host Sys2Proof.Machine

/-! ### Helpers -/

/-- The outputs of a step that answers a next state. -/
def answer : Outcome State Fault Refusal → Option Port
  | .next t => some t.port
  | .fault _ => none
  | .refused _ => none

/-- The state after a step that answers a next state. -/
def got : Outcome State Fault Refusal → Option State
  | .next t => some t
  | .fault _ => none
  | .refused _ => none

/-- The state after commands that each answer a next state. -/
def after : List Instr → State → State
  | [], s => s
  | i :: is, s =>
    match exec i s with
    | .next t => after is t
    | .fault _ => s
    | .refused _ => s

/-- A turn at which `ms` milliseconds have passed and both draws answer yes. -/
def turn (ms : Word) (a : Config.AgentTurn) : Config.Turn := ⟨ms, true, true, a⟩

/-- A state whose next turns are these. -/
def agenda (s : State) (ts : List Config.Turn) : State := { s with env := { s.env with agenda := ts } }

/-- A state with these bytes received. -/
def received (s : State) (bs : List Byte) : State := { s with uart := { s.uart with rx := bs } }

/-- The parameters of a small build: 16 bytes, two slots, 4-bit counters, a heap that never answers yes, one type
code for both kinds of data frame (90_conflicts.md C6), and other sync and error values. -/
def smallParams : Config.Params :=
  { Config.Params.default with
    sizeMax := 16, nmax := 2, lossw := 4, edmMaxLen := 300, edmHeap := .never, tDataCmd := 0x0031, ubxSync1 := 0x24
    err := { Config.ErrCodes.default with invalidParameter := -22 } }

/-- That build after reset. -/
def smallBuild : State := State.powerOn smallParams

/-! ### Well-formedness (WellFormed.lean) -/

/-- One byte more than the operand `n` can count. -/
def tooLong : List Byte := List.replicate 65536 0

/-- As many bytes as the operand `n` can count. -/
def longest : List Byte := List.replicate 65535 0

theorem length_tooLong : tooLong.length = 65536 := List.length_replicate

theorem length_longest : longest.length = 65535 := List.length_replicate

theorem test_wellFormed_refuses_long_data :
    (Instr.rbAdd tooLong).wellFormed = false ∧ (Instr.rbFadd tooLong).wellFormed = false ∧
    (Instr.edmEncdata 0 tooLong).wellFormed = false ∧ (Instr.edmEncatreq tooLong).wellFormed = false ∧
    (Instr.edmEncatrsp tooLong).wellFormed = false ∧ (Instr.ubxEncode 0 0 tooLong).wellFormed = false ∧
    (Instr.ubxDecode tooLong).wellFormed = false ∧
    (Instr.ubxSendrecv 0 0 none none 0 0 tooLong).wellFormed = false ∧
    (Instr.ubxSendonly 0 0 0 tooLong).wellFormed = false ∧ (Instr.uartWrite tooLong).wellFormed = false := by
  simp [Instr.wellFormed, Instr.dataIn, length_tooLong]

theorem test_wellFormed_takes_longest_data : (Instr.rbAdd longest).wellFormed = true := by
  simp [Instr.wellFormed, Instr.dataIn, length_longest]

/-! ### Decoding: one word per command, written from 30_encoding.md R90 to R93 and R96 -/

theorem test_decode_lifecycle :
    decode [0x0100FFFF] [] = .command (.rbCreate 65535) [] [] ∧
    decode [0x02080100] [] = .command (.rbCreateh 8 256) [] [] ∧
    decode [0x03000000] [] = .command .rbDestroy [] [] ∧
    decode [0x04010000] [] = .command (.rbSetrhr true) [] [] ∧
    decode [0x10000000] [] = .command .rbTake [] [] ∧
    decode [0x11030000] [] = .command (.rbGive 3) [] [] ∧
    decode [0x12020000] [] = .command (.rbLock 2) [] [] ∧
    decode [0x13020000] [] = .command (.rbUnlock 2) [] [] := by decide

theorem test_decode_data :
    decode [0x20000003] [0x78, 0x79, 0x7A] = .command (.rbAdd [0x78, 0x79, 0x7A]) [] [] ∧
    decode [0x21000001] [0x41, 0x42] = .command (.rbFadd [0x41]) [] [0x42] ∧
    decode [0x2200000A] [] = .command (.rbRead 10) [] [] ∧
    decode [0x23000003] [] = .command (.rbPeek 3) [] [] ∧
    decode [0x24010004] [] = .command (.rbReadh 1 4) [] [] ∧
    decode [0x25010002] [] = .command (.rbPeekh 1 2) [] [] ∧
    decode [0x30000000] [] = .command .rbAvail [] [] ∧
    decode [0x31000000] [] = .command .rbAvailmax [] [] ∧
    decode [0x32000000] [] = .command .rbStatadd [] [] ∧
    decode [0x33020000] [] = .command (.rbStatread 2) [] [] := by decide

theorem test_decode_edm :
    decode [0x40AA0000] [] = .command (.edmParse 0xAA) [] [] ∧
    decode [0x41000000] [] = .command .edmReady [] [] ∧
    decode [0x42000000] [] = .command .edmReset [] [] ∧
    decode [0x43000010] [] = .command (.edmEvdata 16) [] [] ∧
    decode [0x44000000] [] = .command .edmEvent [] [] ∧
    decode [0x50030002] [0x68, 0x69] = .command (.edmEncdata 3 [0x68, 0x69]) [] [] ∧
    decode [0x51030100] [] = .command (.edmEnchead 3 256) [] [] ∧
    decode [0x52000000] [] = .command .edmEnctail [] [] ∧
    decode [0x53000002] [0x41, 0x54] = .command (.edmEncatreq [0x41, 0x54]) [] [] ∧
    decode [0x54000000] [] = .command (.edmEncatrsp []) [] [] := by decide

theorem test_decode_ubx :
    decode [0x60060002, 0x00000001] [1, 2] = .command (.ubxEncode 6 1 [1, 2]) [] [] ∧
    decode [0x61000003] [0xB5, 0x62, 5] = .command (.ubxDecode [0xB5, 0x62, 5]) [] [] ∧
    decode [0x62060000, 0x00010501, 0x00000002, 0x000003E8] [] =
      .command (.ubxSendrecv 6 1 (some 5) (some 1) 2 1000 []) [] [] ∧
    decode [0x62060000, 0x03000001, 0x00000040, 0x000007D0] [] =
      .command (.ubxSendrecv 6 1 none none 64 2000 []) [] [] ∧
    decode [0x63060002, 0x00000001, 0x000001F4] [1, 2] = .command (.ubxSendonly 6 1 500 [1, 2]) [] [] := by decide

theorem test_decode_uart_link :
    decode [0x70000003] [0x41, 0x54, 0x0D] = .command (.uartWrite [0x41, 0x54, 0x0D]) [] [] ∧
    decode [0x71000000] [] = .command .uartAvail [] [] ∧
    decode [0x72000002] [] = .command (.uartRead 2) [] [] ∧
    decode [0x73020000] [] = .command (.linkPump .forceAdd) [] [] ∧
    decode [0x74090001] [] = .command (.linkDrain 9 true) [] [] := by decide

/-- 95_test_vectors.md, part 2.1, "Illegal words": unassigned opcodes and fields of the command word. -/
theorem test_illegal_words :
    decode [0x00000000] [] = .illegal .unassignedOpcode [] ∧ decode [0x45000000] [] = .illegal .unassignedOpcode [] ∧
    decode [0xFF000000] [] = .illegal .unassignedOpcode [] ∧ decode [0x03000001] [] = .illegal .nonzeroField [] ∧
    decode [0x10010000] [] = .illegal .nonzeroField [] ∧ decode [0x12010001] [] = .illegal .nonzeroField [] ∧
    decode [0x20010003] [1, 2, 3] = .illegal .nonzeroField [] ∧ decode [0x04020000] [] = .illegal .operandOutOfRange [] ∧
    decode [0x73030000] [] = .illegal .operandOutOfRange [] ∧ decode [0x74010002] [] = .illegal .operandOutOfRange [] := by
  decide

/-- 95_test_vectors.md, part 2.1: illegal extension words. -/
theorem test_illegal_extensions :
    decode [0x60060000, 0x00000101] [] = .illegal .nonzeroExtensionField [] ∧
    decode [0x62060000, 0x04000501, 2, 0x3E8] [] = .illegal .nonzeroExtensionField [] ∧
    decode [0x62060000, 0x01000501, 2, 0x3E8] [] = .illegal .wildcardWithValue [] ∧
    decode [0x62060000, 0x00000501, 0x00010002, 0x3E8] [] = .illegal .nonzeroExtensionField [] := by decide

theorem test_incomplete_commands_wait :
    decode [] [] = .waiting .commandWord ∧ decode [0x62060000, 0x00000501] [] = .waiting .extensionWords ∧
    decode [0x20000003] [1, 2] = .waiting .inputBytes := by decide

theorem test_step_runs_placed_word :
    (got (step (State.reset.withFetchWord 32 0x01000010))).map (fun t => (t.rb.created, t.rb.size, t.port)) =
      some (true, 16, ⟨some 0, []⟩) := by decide

theorem test_step_runs_placed_extension_words :
    decodeTableWord 128 0x000007D0000000400300000162060000 = some (.ubxSendrecv 6 1 none none 64 2000 []) ∧
    (got (step (State.reset.withFetchWord 128 0x000007D0000000400300000162060000))).map (fun t => (t.ubx.phase, t.uart.tx)) =
      some (.poll, [0xB5, 0x62, 6, 1, 0, 0, 7, 0x1B]) := by decide

/-! ### Ring buffer, one step each (95_test_vectors.md, parts 1, 2.2, 2.3, 3) -/

/-- "ABCDEFGHIJ". -/
def aToJ : List Byte := [0x41, 0x42, 0x43, 0x44, 0x45, 0x46, 0x47, 0x48, 0x49, 0x4A]

/-- "0123456789". -/
def digits : List Byte := [0x30, 0x31, 0x32, 0x33, 0x34, 0x35, 0x36, 0x37, 0x38, 0x39]

/-- V41.4: two handles, cursor 0 not readable, handle 1 with 3 unread bytes and handle 2 with 10. -/
def twoHandles : State :=
  after [.rbCreateh 2 16, .rbSetrhr true, .rbTake, .rbTake, .rbAdd digits, .rbReadh 1 7] State.reset

theorem test_create_zero_refused : answer (exec (.rbCreate 0) State.reset) = some ⟨some 0xFFFFFFFB, []⟩ := by decide

theorem test_create_restarts :
    (got (exec (.rbCreate 8) twoHandles)).map (fun t => (t.rb.n, t.rb.w, t.rb.cursor 0, t.rb.takenBit 1, t.rb.rhr)) =
      some (0, 0, 0, false, false) := by decide

theorem test_createh_checks_size_first :
    answer (exec (.rbCreateh 9 0) State.reset) = some ⟨some 0xFFFFFFFB, []⟩ ∧
    answer (exec (.rbCreateh 9 16) State.reset) = some ⟨some 0xFFFFFFFA, []⟩ := by decide

theorem test_destroy_uncreates : (got (exec .rbDestroy twoHandles)).map (fun t => (t.rb.created, t.port)) =
    some (false, ⟨some 0, []⟩) := by decide

theorem test_setrhr_needs_buffer : answer (exec (.rbSetrhr true) State.reset) = some ⟨some 0xFFFFFFFE, []⟩ := by decide

theorem test_take_lowest_free_slot :
    answer (exec .rbTake (after [.rbGive 1] twoHandles)) = some ⟨some 1, []⟩ ∧
    answer (exec .rbTake twoHandles) = some ⟨some 0xFFFFFFFA, []⟩ := by decide

theorem test_take_sees_only_later_data :
    (got (exec .rbTake (after [.rbGive 1] twoHandles))).map (fun t => (t.rb.cursor 1, t.rb.unread 1)) = some (10, 0) := by
  decide

theorem test_give_unlocks : (got (exec (.rbGive 2) (after [.rbLock 2] twoHandles))).map
    (fun t => (t.rb.takenBit 2, t.rb.lockBit 2)) = some (false, false) := by decide

theorem test_lock_posts_unread : answer (exec (.rbLock 1) twoHandles) = some ⟨some 3, []⟩ := by decide

theorem test_unlock : (got (exec (.rbUnlock 1) (after [.rbLock 1] twoHandles))).map
    (fun t => (t.rb.lockBit 1, t.port)) = some (false, ⟨some 0, []⟩) := by decide

/-- S2: the refused add is counted and nothing else changes. -/
theorem test_add_refused_is_counted :
    (got (exec (.rbAdd aToJ) (after [.rbCreate 8] State.reset))).map (fun t => (t.rb.lossAdd, t.rb.w, t.rb.mem, t.port)) =
      some (10, 0, [], ⟨some 0, []⟩) := by decide

theorem test_add_wraps :
    (got (exec (.rbAdd [0x56, 0x57, 0x58, 0x59, 0x5A])
      (after [.rbCreate 8, .rbAdd [1, 2, 3, 4, 5, 6], .rbRead 6] State.reset))).map
        (fun t => (t.rb.w, t.rb.mem.readRing 8 0 8)) =
      some (3, [0x58, 0x59, 0x5A, 4, 5, 6, 0x56, 0x57]) := by decide

/-- P1, step 2: storage "IJCDEFGH", cursor 0 at 3, 3 bytes lost. -/
theorem test_fadd_overwrites_oldest :
    (got (exec (.rbFadd aToJ) (after [.rbCreate 8] State.reset))).map
        (fun t => (t.rb.mem.readRing 8 0 8, t.rb.w, t.rb.cursor 0, t.rb.lossOf 0)) =
      some ([0x49, 0x4A, 0x43, 0x44, 0x45, 0x46, 0x47, 0x48], 2, 3, 3) := by decide

/-- V41.6: a locked cursor with 10 unread bytes blocks 12 more in a buffer of 15. -/
theorem test_fadd_blocked_by_lock :
    (got (exec (.rbFadd (aToJ ++ [1, 2])) (after [.rbLock 2] twoHandles))).map
        (fun t => (t.rb.lossAdd, t.rb.w, t.port)) = some (12, 10, ⟨some 0, []⟩) := by decide

theorem test_read_after_overwrite :
    answer (exec (.rbRead 10) (after [.rbCreate 8, .rbFadd aToJ] State.reset)) =
      some ⟨some 7, [0x44, 0x45, 0x46, 0x47, 0x48, 0x49, 0x4A]⟩ := by decide

theorem test_read_needs_rhr_off : answer (exec (.rbRead 16) twoHandles) = some ⟨some 0, []⟩ := by decide

theorem test_peek_moves_nothing :
    (got (exec (.rbPeek 3) (after [.rbCreate 16, .rbAdd aToJ] State.reset))).map (fun t => (t.port, t.rb.cursor 0)) =
      some (⟨some 3, [0x41, 0x42, 0x43]⟩, 0) := by decide

theorem test_readh_moves_its_cursor_only :
    (got (exec (.rbReadh 2 4) twoHandles)).map (fun t => (t.port, t.rb.cursor 2, t.rb.cursor 1)) =
      some (⟨some 4, [0x30, 0x31, 0x32, 0x33]⟩, 4, 7) := by decide

theorem test_peekh : answer (exec (.rbPeekh 1 16) twoHandles) = some ⟨some 3, [0x37, 0x38, 0x39]⟩ := by decide

theorem test_avail_and_availmax :
    answer (exec .rbAvail twoHandles) = some ⟨some 5, []⟩ ∧
    answer (exec .rbAvailmax (after [.rbLock 1] twoHandles)) = some ⟨some 12, []⟩ := by decide

theorem test_statadd : answer (exec .rbStatadd (after [.rbCreate 1, .rbAdd [0x41]] State.reset)) = some ⟨some 1, []⟩ := by
  decide

theorem test_statread :
    answer (exec (.rbStatread 0) (after [.rbCreate 8, .rbFadd aToJ, .rbSetrhr true] State.reset)) = some ⟨some 3, []⟩ ∧
    answer (exec (.rbStatread 1) (after [.rbCreate 8] State.reset)) = some ⟨some 0, []⟩ := by decide

/-- R6, R120, R121 on another build: its own limits and error code. -/
theorem test_small_build_limits :
    answer (exec (.rbCreate 17) smallBuild) = some ⟨some 0xFFFFFFEA, []⟩ ∧
    answer (exec (.rbCreate 16) smallBuild) = some ⟨some 0, []⟩ ∧
    answer (exec (.rbCreateh 3 16) smallBuild) = some ⟨some 0xFFFFFFFA, []⟩ := by decide

/-- R12 (c): a 4-bit counter wraps at 16. -/
theorem test_small_build_counter_wraps :
    answer (exec .rbStatadd (after [.rbCreate 8, .rbAdd aToJ, .rbAdd aToJ] smallBuild)) = some ⟨some 4, []⟩ := by decide

/-! ### EDM (95_test_vectors.md S4, S5, part 2.4) -/

/-- The parser after these bytes. -/
def fed (bs : List Byte) : State := after (bs.map .edmParse) State.reset

/-- S4, all but the tail byte. -/
def hiFrame : List Byte := [0xAA, 0x00, 0x05, 0x00, 0x36, 0x03, 0x68, 0x69]

theorem test_parse_data_frame : answer (exec (.edmParse 0x55) (fed hiFrame)) = some ⟨some 5, [3, 0, 3, 0, 2]⟩ := by decide

theorem test_parse_length_one_dropped :
    (got (exec (.edmParse 0x01) (fed [0xAA, 0x00]))).map (fun t => (t.edm.state, t.port)) =
      some (.parseStartByte, ⟨some 0, []⟩) := by decide

theorem test_parse_connect_bt : answer (exec (.edmParse 0x55)
    (fed [0xAA, 0, 0x0D, 0, 0x11, 5, 1, 0, 0x11, 0x22, 0x33, 0x44, 0x55, 0x66, 3, 0xE8])) =
      some ⟨some 1, [5, 0, 0x11, 0x22, 0x33, 0x44, 0x55, 0x66, 3, 0xE8]⟩ := by decide

theorem test_ready_in_waiting_state : answer (exec .edmReady (fed (hiFrame ++ [0x55]))) = some ⟨some 0, []⟩ := by decide

theorem test_reset_makes_ready : answer (exec .edmReady (after [.edmReset] (fed (hiFrame ++ [0x55])))) = some ⟨some 1, []⟩ := by
  decide

theorem test_evdata : answer (exec (.edmEvdata 16) (fed (hiFrame ++ [0x55]))) = some ⟨some 2, [0x68, 0x69]⟩ := by decide

theorem test_event_after_startup :
    answer (exec .edmEvent (fed [0xAA, 0x00, 0x02, 0x00, 0x71, 0x55])) = some ⟨some 7, [0]⟩ := by decide

theorem test_encdata : answer (exec (.edmEncdata 3 [0x68, 0x69]) State.reset) =
    some ⟨some 9, [0xAA, 0x00, 0x05, 0x00, 0x36, 0x03, 0x68, 0x69, 0x55]⟩ := by decide

theorem test_enchead_limits :
    answer (exec (.edmEnchead 3 4092) State.reset) = some ⟨some 6, [0xAA, 0x0F, 0xFF, 0x00, 0x36, 0x03]⟩ ∧
    answer (exec (.edmEnchead 3 4093) State.reset) = some ⟨some 0xFFFFFFFB, []⟩ := by decide

theorem test_enctail : answer (exec .edmEnctail State.reset) = some ⟨some 1, [0x55]⟩ := by decide

theorem test_encat :
    answer (exec (.edmEncatreq [0x41, 0x54, 0x0D]) State.reset) =
      some ⟨some 9, [0xAA, 0x00, 0x05, 0x00, 0x44, 0x41, 0x54, 0x0D, 0x55]⟩ ∧
    answer (exec (.edmEncatrsp []) State.reset) = some ⟨some 6, [0xAA, 0x00, 0x02, 0x00, 0x45, 0x55]⟩ := by decide

/-- R193 with EDM_HEAP at `never`: a frame of 257 bytes is dropped though the draw would answer yes. -/
theorem test_small_build_has_no_heap :
    (got (exec (.edmParse 0x01) (after [.edmParse 0xAA, .edmParse 0x01] smallBuild))).map (fun t => t.edm.state) =
      some .parseStartByte ∧
    (got (exec (.edmParse 0x01) (after [.edmParse 0xAA, .edmParse 0x01] State.reset))).map (fun t => t.edm.state) =
      some .accumulatePayload := by decide

/-! ### ubx, UART, LINK and the agents (95_test_vectors.md S6, S7, parts 2.6 to 2.8, 3) -/

/-- The Ack frame of 06/01 (S6). -/
def ackFrame : List Byte := [0xB5, 0x62, 0x05, 0x01, 0x02, 0x00, 0x06, 0x01, 0x0F, 0x38]

/-- The unrelated class 0x01 frame of S7. -/
def navFrame : List Byte := [0xB5, 0x62, 0x01, 0x07, 0x03, 0x00, 0x11, 0x22, 0x33, 0x71, 0xEA]

/-- S6 (a): the call in progress. -/
def polling : State := after [.ubxSendrecv 6 1 (some 5) (some 1) 2 1000 []] State.reset

theorem test_encode_frame : answer (exec (.ubxEncode 6 1 [1, 2]) State.reset) =
    some ⟨some 10, [0xB5, 0x62, 6, 1, 2, 0, 1, 2, 0x0C, 0x35]⟩ := by decide

theorem test_decode_frame : answer (exec (.ubxDecode ackFrame) State.reset) =
    some ⟨some 2, [5, 1, 10, 0, 6, 1]⟩ := by decide

theorem test_decode_partial_frame : answer (exec (.ubxDecode (0x24 :: ackFrame.take 9)) State.reset) =
    some ⟨some 0xFFFFFFF7, [1, 0]⟩ := by decide

theorem test_sendrecv_sends :
    (got (exec (.ubxSendrecv 6 1 (some 5) (some 1) 2 1000 []) State.reset)).map (fun t => (t.uart.tx, t.ubx.cap, t.port)) =
      some ([0xB5, 0x62, 6, 1, 0, 0, 7, 0x1B], 20, ⟨none, []⟩) := by decide

theorem test_sendonly_busy : answer (exec (.ubxSendonly 6 1 500 [1, 2]) polling) = some ⟨some 0xFFFFFFFC, []⟩ := by decide

theorem test_sendonly_answers :
    ((received (after [.ubxSendonly 6 1 500 [1, 2]] State.reset) ackFrame).engineStep.port = ⟨some 0, []⟩) ∧
    ((received (after [.ubxSendonly 6 2 500 []] State.reset) ackFrame).engineStep.port = ⟨some 0xFFFFFFF6, []⟩) := by
  decide

theorem test_engine_answers : (received polling ackFrame).engineStep.port = ⟨some 2, [5, 1, 6, 1]⟩ := by decide

/-- S7, first step: the unrelated frame is dropped, 9 bytes are kept, one byte stays on the line. -/
theorem test_engine_skips_unrelated :
    (fun t : State => (t.ubx.acc, t.uart.rx, t.port)) (received polling (navFrame ++ ackFrame)).engineStep =
      (ackFrame.take 9, [0x38], ⟨none, []⟩) := by decide

theorem test_uart_write_fails : (got (exec (.uartWrite [0x41])
    { State.reset with env := { State.reset.env with writeOk := false } })).map (fun t => (t.uart.tx, t.port)) =
      some ([], ⟨some 0xFFFFFFF8, []⟩) := by decide

theorem test_uart_avail : answer (exec .uartAvail (received State.reset [0x0D, 0x0A])) = some ⟨some 2, []⟩ := by decide

theorem test_uart_read : (got (exec (.uartRead 9) (received State.reset [0x4F, 0x4B]))).map (fun t => (t.uart.rx, t.port)) =
    some ([], ⟨some 2, [0x4F, 0x4B]⟩) := by decide

theorem test_link_pump : (got (exec (.linkPump .forceAdd) State.reset)).map (fun t => t.link.pump) = some .forceAdd := by
  decide

theorem test_link_drain_limits :
    answer (exec (.linkDrain 9 true) State.reset) = some ⟨some 0xFFFFFFFB, []⟩ ∧
    answer (exec (.linkDrain 8 true) State.reset) = some ⟨some 0, []⟩ := by decide

theorem test_pump_step : (fun t : State => (t.uart.rx, t.rb.content 0))
    (received (after [.rbCreate 8, .linkPump .add] State.reset) [0x41, 0x42]).pumpStep = ([0x42], [0x41]) := by decide

theorem test_drain_step : (fun t : State => (t.edm.state, t.rb.unread 0))
    (after [.rbCreate 8, .rbAdd [0xAA, 0x00], .linkDrain 0 true] State.reset).drainStep = (.parsePayloadLength, 1) := by
  decide

/-! ### Witnesses: for each statement with hypotheses, values that meet them, clause by clause -/

/-- A created buffer of 8 bytes with two slots: handle 1 acquired and locked, slot 2 free; 3 bytes unread by
cursor 0 and 2 by handle 1. -/
def sampleRb : RB :=
  { State.reset.rb with
    created := true, size := 8, n := 2, w := 5, mem := [(2, 0x41), (3, 0x42), (4, 0x43)]
    x := [2, 3, 5, 0, 0, 0, 0, 0, 0]
    taken := [true, false, false, false, false, false, false, false]
    lock := [true, false, false, false, false, false, false, false] }

/-- Reset with that buffer. -/
def sample : State := { State.reset with rb := sampleRb }

theorem sample_live : sampleRb.Live .default where
  size_pos := by decide
  size_le := by decide
  n_le := by decide
  w_lt := by decide
  cursor_lt := by
    intro k hk
    have h : k ≤ 2 := RB.present_le hk
    clear hk
    interval_cases k <;> decide
  lock_taken := by
    intro k _ (h : k ≤ 2)
    interval_cases k <;> decide

theorem sampleRb_sized : sampleRb.Sized .default := ⟨rfl, rfl, rfl, rfl⟩

theorem sampleRb_inv : sampleRb.Inv .default where
  mem_wf := by decide
  mem_below := by unfold Memory.below; decide
  sized := sampleRb_sized
  lossAdd_lt := by decide
  loss_lt := by
    intro k
    have h : sampleRb.lossOf k = 0 := by
      simp only [RB.lossOf, sampleRb, State.reset, State.powerOn, List.getElem?_replicate]
      split <;> rfl
    rw [h]; decide
  live := fun _ => sample_live

/-- R6's defaults are parameters a build can have. -/
theorem default_legal : Config.Params.default.Legal where
  sizeMax_le := by decide
  nmax_le := by decide
  lossw_pos := by decide
  lossw_le := by decide
  edmMaxLen_le := by decide
  types_evt := by decide
  types_cmd := by decide
  ctypes := by decide
  pBt_ge := by decide
  pIpv4_ge := by decide
  pIpv6_ge := by decide
  overhead_ge := by decide
  overhead_le := by decide
  err_neg := by intro k; cases k <;> decide
  err_inj := by intro j k; cases j <;> cases k <;> decide

/-- Those of the small build are too. -/
theorem smallParams_legal : smallParams.Legal where
  sizeMax_le := by decide
  nmax_le := by decide
  lossw_pos := by decide
  lossw_le := by decide
  edmMaxLen_le := by decide
  types_evt := by decide
  types_cmd := by decide
  ctypes := by decide
  pBt_ge := by decide
  pIpv4_ge := by decide
  pIpv6_ge := by decide
  overhead_ge := by decide
  overhead_le := by decide
  err_neg := by intro k; cases k <;> decide
  err_inj := by intro j k; cases j <;> cases k <;> decide

/-- The parser's invariant where no payload byte has come yet. -/
theorem edm_inv_start (e : Edm) (h1 : e.buf = []) (h2 : e.event = none) (h3 : e.heap = false)
    (h4 : e.state = .parseStartByte ∨ e.state = .parsePayloadLength) : e.Inv .default where
  buf_wf := by rw [h1]; rfl
  buf_below := by rw [h1]; intro c hc; cases hc
  event_iff := by rcases h4 with h | h <;> simp [h2, h]
  idle_heap := fun _ => h3
  len_ok := by rcases h4 with h | h <;> simp [h]
  cnt_lt := by rcases h4 with h | h <;> simp [h]
  cnt_eq := by rcases h4 with h | h <;> simp [h]
  event_eq := by rcases h4 with h | h <;> simp [h]

theorem ubx_inv_idle (u : Ubx) (h1 : u.phase = .idle) (h2 : u.acc = []) : u.Inv .default :=
  ⟨fun _ => h2, by simp [h1], by simp [h1]⟩

theorem sample_inv : sample.Inv :=
  ⟨default_legal, sampleRb_inv, rfl, edm_inv_start _ rfl rfl rfl (.inl rfl), ubx_inv_idle _ rfl rfl, by decide⟩

/-- The sample with the EDM parser in another state. -/
def withEdm (e : Edm) : State := { sample with edm := e }

/-! #### Encoding and the step -/

theorem witness_DecodeOfEncode : (Instr.ubxSendrecv 6 1 (some 5) none 2 1000 [1, 2]).wellFormed = true ∧
    (Instr.rbAdd longest).wellFormed = true :=
  ⟨by decide, test_wellFormed_takes_longest_data⟩

theorem witness_EncodeOfDecode : decode [0x62060002, 0x02000501, 2, 1000, 0x10000000] [1, 2, 3] =
    .command (.ubxSendrecv 6 1 (some 5) none 2 1000 [1, 2]) [0x10000000] [3] := by decide

theorem witness_WordMatchesOneRowOrIsIllegal :
    ((0x20000003 : Word) &&& (Instr.rbAdd []).row.mask = (Instr.rbAdd []).row.fixed) ∧
    ∀ i : Instr, (0x45000000 : Word) &&& i.row.mask ≠ i.row.fixed := by
  refine ⟨by decide, fun i => ?_⟩
  cases i <;> (simp only [Instr.row]; decide)

theorem witness_OperandsOutsideTheirRangeAreIllegal :
    1 < (2 : Byte).toNat ∧ 2 < (3 : Byte).toNat ∧ 1 < (2 : Half).toNat ∧ 256 ≤ (256 : Word).toNat ∧
    2 ^ 26 ≤ (0x04000000 : Word).toNat ∧ 2 ^ 16 ≤ (0x00010000 : Word).toNat ∧
    ((0x01000100 : Word).toNat < 2 ^ 26 ∧ (0xFFFF : Word).toNat < 2 ^ 16 ∧ (0x01000100 : Word).getLsbD 24 = true ∧
      (0x01000100 : Word).extractLsb' 8 8 ≠ 0) ∧
    ((0x03FF0001 : Word).toNat < 2 ^ 26 ∧ (0x03FF0001 : Word).getLsbD 25 = true ∧
      (0x03FF0001 : Word).extractLsb' 16 8 ≠ 0) := by decide

/-- The state the agent of the turn at the head of the agenda sees. -/
def seen (s : State) (t : Config.Turn) (rest : List Config.Turn) : State :=
  { s with env := { s.env with
      now := s.env.now + t.elapsed, heapOk := t.heapOk, writeOk := t.writeOk, agenda := rest } }

/-- A turn on the agenda is taken. -/
theorem takes_agenda (s : State) (t : Config.Turn) (rest : List Config.Turn) :
    (agenda s (t :: rest)).Takes t (seen (agenda s (t :: rest)) t rest) :=
  .inl ⟨rest, rfl, rfl⟩

/-- With the agenda empty the free turn is taken, whatever it is. -/
theorem takes_free : ∃ u, State.reset.Takes (Config.turn 0) u := ⟨_, .inr ⟨rfl, rfl, rfl⟩⟩

/-- The command's words come in two parts: one is at the port, the rest comes with the turn. -/
theorem witness_StepRunsDecodedCommand :
    decode ([0x60060001] ++ [0x00000001, 0x10000000]) ([] ++ [7, 8]) = .command (.ubxEncode 6 1 [7]) [0x10000000] [8] ∧
    ∃ u, (agenda (sample.consume [0x60060001] []) [turn 5 (.host [0x00000001, 0x10000000] [7, 8])]).Takes
      (turn 5 (.host [0x00000001, 0x10000000] [7, 8])) u :=
  ⟨by decide, _, takes_agenda _ _ _⟩

theorem witness_IllegalCommandAnswered :
    decode ([0x60060000] ++ [0x00000100, 0x10000000]) ([] ++ [7]) = .illegal .nonzeroExtensionField [0x10000000] ∧
    ∃ u, (agenda (sample.consume [0x60060000] []) [turn 0 (.host [0x00000100, 0x10000000] [7])]).Takes
      (turn 0 (.host [0x00000100, 0x10000000] [7])) u :=
  ⟨by decide, _, takes_agenda _ _ _⟩

theorem witness_StepGivesTheTurnToTheAgent :
    (∃ u, (agenda sample [turn 1 (.line [0x0D] 3)]).Takes (turn 1 (.line [0x0D] 3)) u) ∧
    (∃ u, (agenda sample [turn 1 .pump]).Takes (turn 1 .pump) u) ∧
    (∃ u, (agenda sample [turn 1 .drain]).Takes (turn 1 .drain) u) ∧
    ∃ u, (agenda sample [turn 1 .engine]).Takes (turn 1 .engine) u :=
  ⟨⟨_, takes_agenda _ _ _⟩, ⟨_, takes_agenda _ _ _⟩, ⟨_, takes_agenda _ _ _⟩, _, takes_agenda _ _ _⟩

theorem witness_PlacedWordRunsNext : decodeTableWord 32 0x10000000 = some .rbTake ∧
    decodeTableWord 64 0x0000000160060000 = some (.ubxEncode 6 1 []) := by decide

theorem witness_StepKeepsInv : (agenda (received sample [0x41]) [turn 1 .pump]).Inv ∧
    ∃ t, step (agenda (received sample [0x41]) [turn 1 .pump]) = .next t :=
  ⟨⟨default_legal, sampleRb_inv, rfl, edm_inv_start _ rfl rfl rfl (.inl rfl), ubx_inv_idle _ rfl rfl, by decide⟩, _, rfl⟩

/-! #### Ring buffer -/

theorem witness_CreateInitialises :
    ((0 : Half) = 0 ∨ smallBuild.par.sizeMax < (0 : Half).toNat) ∧ smallBuild.par.sizeMax < (17 : Half).toNat ∧
    (16 : Half) ≠ 0 ∧ (16 : Half).toNat ≤ smallBuild.par.sizeMax ∧ smallBuild.rb.Sized smallBuild.par ∧
    (65535 : Half).toNat ≤ State.reset.par.sizeMax :=
  ⟨by decide, by decide, by decide, by decide, ⟨rfl, rfl, rfl, rfl⟩, by decide⟩

theorem witness_CreateWithHandlesInitialises : (1 : Half) ≠ 0 ∧ (1 : Half).toNat ≤ State.reset.par.sizeMax ∧
    State.reset.par.nmax < (9 : Byte).toNat ∧ (8 : Byte).toNat ≤ State.reset.par.nmax ∧
    (0 : Byte).toNat ≤ State.reset.par.nmax ∧ State.reset.rb.Sized State.reset.par :=
  ⟨by decide, by decide, by decide, by decide, by decide, rfl, rfl, rfl, rfl⟩

/-- Clauses: no buffer; no free slot (a buffer with one slot, acquired); slot 2 of 2 free. -/
theorem witness_TakeAcquiresTheLowestFreeSlot :
    State.reset.rb.created = false ∧
    (∀ k, 1 ≤ k → k ≤ ({ sampleRb with n := 1 } : RB).n.toNat → ({ sampleRb with n := 1 } : RB).takenBit k = true) ∧
    sample.rb.created = true ∧ sample.rb.Inv sample.par ∧ 2 ≤ sample.rb.n.toNat ∧ sample.rb.takenBit 2 = false ∧
    ∀ j, 1 ≤ j → j < 2 → sample.rb.takenBit j = true := by
  refine ⟨rfl, fun k h1 (h2 : k ≤ 1) => ?_, rfl, sampleRb_inv, by decide, by decide, fun j h1 h2 => ?_⟩
  · interval_cases k; decide
  · interval_cases j; decide

theorem witness_LockProtectsAndCounts : sample.rb.Sized sample.par := sampleRb_sized

theorem witness_UncreatedBufferAnswers : State.reset.rb.created = false ∧
    Instr.rbStatadd ∈ [.rbAvail, .rbAvailmax, .rbStatadd] ∧ Instr.rbLock 1 ∈ [.rbGive 1, .rbLock 1, .rbUnlock 1, .rbStatread 1] ∧
    Instr.rbFadd [1] ∈ [.rbAdd [1], .rbFadd [1]] ∧ Instr.rbPeek 4 ∈ [.rbRead 4, .rbPeek 4] ∧
    Instr.rbPeekh 1 4 ∈ [.rbReadh 1 4, .rbPeekh 1 4] := by decide

/-- Clauses: no buffer; one byte more than fits; exactly what fits. -/
theorem witness_AddStoresOrRefuses :
    State.reset.rb.created = false ∧ sample.rb.created = true ∧ sample.rb.avail < [1, 2, 3, 4, 5].length ∧
    sample.rb.Inv sample.par ∧ [1, 2, 3, 4].length ≤ sample.rb.avail :=
  ⟨rfl, rfl, by decide, sampleRb_inv, by decide⟩

/-- Clauses: handle 1 is locked with 2 of 7 bytes unread, so 6 bytes are refused and 5 are stored. -/
theorem witness_ForcedAddStoresOrRefuses :
    (sample.rb.locked 1 = true ∧ sample.rb.capacity < sample.rb.unread 1 + 6) ∧ sample.rb.Inv sample.par ∧
    ∀ k, sample.rb.locked k = true → sample.rb.unread k + [1, 2, 3, 4, 5].length ≤ sample.rb.capacity := by
  refine ⟨by decide, sampleRb_inv, fun k hk => ?_⟩
  have h : k ≤ 2 := RB.present_le (RB.present_of_locked hk)
  interval_cases k
  · exact absurd hk (by decide)
  · decide
  · exact absurd hk (by decide)

/-- Both commands, and a cursor that loses a byte (cursor 0 under the forced add of 5). -/
theorem witness_StoringExtendsUnreadBytes :
    sample.rb.Inv sample.par ∧ sample.rb.created = true ∧ sample.rb.present 0 = true ∧ sample.rb.present 1 = true ∧
    (∃ t, exec (.rbFadd [1, 2, 3, 4, 5]) sample = .next t ∧ t.port.result = some 1) ∧
    ∃ t, exec (.rbAdd [1, 2, 3, 4]) sample = .next t ∧ t.port.result = some 1 :=
  ⟨sampleRb_inv, rfl, by decide, by decide, ⟨_, rfl, by decide⟩, ⟨_, rfl, by decide⟩⟩

/-- A run that fills the buffer, is refused once, reads through handle 1, and acquires and releases handle 2. -/
def fifoRun : List Instr :=
  [.rbAdd [1, 2, 3, 4], .rbAdd [5], .rbReadh 1 3, .rbTake, .rbGive 2, .rbFadd [6], .rbPeekh 1 9]

theorem witness_CursorIsFifo : sample.Inv ∧ sample.rb.created = true ∧ sample.rb.present 1 = true ∧
    (∀ i ∈ fifoRun, sparesCursor 1 i) ∧ NeverReclaims 1 fifoRun sample ∧
    execSeq fifoRun sample = .next (after fifoRun sample) := by
  refine ⟨sample_inv, rfl, by decide, ?_, ?_, rfl⟩
  · simp [fifoRun, sparesCursor]
  · refine (⟨?_, ?_, ?_, ?_, ?_, ?_, ?_, trivial⟩ : _ ∧ _ ∧ _ ∧ _ ∧ _ ∧ _ ∧ _ ∧ True) <;> decide

/-- Commands the rule does not name, and a DRAIN step through another cursor and through the locked one. -/
theorem witness_LockedBytesSurvive : sample.Inv ∧ sample.rb.created = true ∧ sample.rb.locked 1 = true ∧
    sparesLocked 1 (.rbFadd [1, 2, 3, 4, 5, 6]) ∧ sparesLocked 1 (.rbGive 2) ∧ sparesLocked 1 (.rbReadh 0 4) ∧
    1 ≠ sample.link.drainCur.toNat ∧ (after [.linkDrain 1 true] sample).rb.locked 1 = true ∧
    (after [.linkDrain 1 true] sample).drainStep.rb.content 1 = [0x43] := by
  refine ⟨sample_inv, rfl, by decide, ?_, ?_, ?_, by decide, by decide, by decide⟩ <;> simp [sparesLocked, sparesCursor]

/-- Clauses: an unacquired handle; cursor 0 with `rb.rhr` off; an acquired handle. -/
theorem witness_ReadCopiesAndAdvances :
    ¬ (sample.rb.created = true ∧ (((2 : Byte) = 0 ∧ sample.rb.rhr = false) ∨ sample.rb.held 2 = true)) ∧
    sample.rb.created = true ∧ sample.rb.rhr = false ∧ sample.rb.held 1 = true ∧ sample.rb.Inv sample.par :=
  ⟨by decide, rfl, rfl, by decide, sampleRb_inv⟩

theorem witness_ReadsOfTwoCursorsCommute : (0 : Byte) ≠ 1 ∧ sample.rb.readable 0 = true ∧ sample.rb.readable 1 = true := by
  decide

/-- For RB.AVAIL and RB.AVAILMAX: no buffer; a created one, with a locked cursor. -/
theorem witness_AvailIsTheLargestAdd : State.reset.rb.created = false ∧ sample.rb.created = true ∧ sample.rb.Live sample.par ∧
    sample.rb.eligible 0 = true :=
  ⟨rfl, rfl, sample_live, by decide⟩

theorem witness_AvailmaxIsTheLargestForcedAdd : State.reset.rb.created = false ∧ sample.rb.created = true ∧
    sample.rb.Live sample.par ∧ sample.rb.locked 1 = true :=
  ⟨rfl, rfl, sample_live, by decide⟩

/-! #### EDM -/

/-- Lengths at each bound: 1, 2, 256, 257, 4095, 4096. -/
theorem witness_ParseHeadAndLength :
    State.reset.edm.state = .parseStartByte ∧ (fed [0xAA]).edm.state = .parsePayloadLength ∧ (fed [0xAA]).edm.lenCnt = 0 ∧
    (fed [0xAA, 0x01]).edm.state = .parsePayloadLength ∧ (fed [0xAA, 0x01]).edm.lenCnt = 1 ∧
    (1 : Half) = (fed [0xAA, 0x00]).edm.len ||| (0x01 : Byte).zeroExtend 16 ∧
    (2 : Half) = (fed [0xAA, 0x00]).edm.len ||| (0x02 : Byte).zeroExtend 16 ∧
    (256 : Half) = (fed [0xAA, 0x01]).edm.len ||| (0x00 : Byte).zeroExtend 16 ∧
    (257 : Half) = (fed [0xAA, 0x01]).edm.len ||| (0x01 : Byte).zeroExtend 16 ∧
    (4095 : Half) = (fed [0xAA, 0x0F]).edm.len ||| (0xFF : Byte).zeroExtend 16 ∧
    (4096 : Half) = (fed [0xAA, 0x10]).edm.len ||| (0x00 : Byte).zeroExtend 16 := by decide

/-- The payload's first byte and its last; a wrong tail; a waiting parser. -/
theorem witness_ParsePayloadTailAndWait :
    (fed [0xAA, 0x00, 0x02]).edm.state = .accumulatePayload ∧ (fed [0xAA, 0x00, 0x02]).edm.buf.wf = true ∧
    (fed [0xAA, 0x00, 0x02, 0x00]).edm.state = .accumulatePayload ∧ (fed [0xAA, 0x00, 0x02, 0x00]).edm.buf.wf = true ∧
    (fed hiFrame).edm.state = .parseTailByte ∧ (0x54 : Byte) ≠ Config.edmTail ∧
    (fed (hiFrame ++ [0x55])).edm.state = .waitForEventProcessing := by decide

/-- The hypotheses of `DispatchGivesTheEvent`. -/
abbrev Dispatches (s : State) (hdr : Half) (plen kind : Nat) (p : List Byte) : Prop :=
  s.edm.state = .parseTailByte ∧ hdr = s.edm.buf.read 0 ++ s.edm.buf.read 1 ∧ plen + 2 = s.edm.len.toNat ∧
    p = s.edm.buf.slice 2 plen ∧ kind = frameKind s.par hdr plen (s.edm.buf.read 3)

theorem witness_DispatchGivesTheEvent_legal : (fed hiFrame).par.Legal := default_legal

/-- A frame with no event: an AT request; Data with only a channel; Connect with too short a sub-payload. -/
theorem witness_DispatchGivesTheEvent_none :
    Dispatches (fed [0xAA, 0, 2, 0x00, 0x44]) 0x0044 0 0 [] ∧ Dispatches (fed [0xAA, 0, 3, 0x00, 0x36, 3]) 0x0036 1 0 [3] ∧
    Dispatches (fed [0xAA, 0, 3, 0x00, 0x11, 5]) 0x0011 1 0 [5] := by decide

theorem witness_DispatchGivesTheEvent_short :
    Dispatches (fed [0xAA, 0, 3, 0x00, 0x21, 7]) 0x0021 1 4 [7] ∧ Dispatches (fed hiFrame) 0x0036 3 5 [3, 0x68, 0x69] ∧
    Dispatches (fed [0xAA, 0, 4, 0x00, 0x31, 1, 2]) 0x0031 2 5 [1, 2] ∧
    Dispatches (fed [0xAA, 0, 2, 0x00, 0x45]) 0x0045 0 6 [] ∧ Dispatches (fed [0xAA, 0, 2, 0x00, 0x71]) 0x0071 0 7 [] := by
  decide

theorem witness_DispatchGivesTheEvent_connect :
    Dispatches (fed [0xAA, 0, 13, 0x00, 0x11, 5, 1, 0, 1, 2, 3, 4, 5, 6, 3, 0xE8]) 0x0011 11 1
      [5, 1, 0, 1, 2, 3, 4, 5, 6, 3, 0xE8] ∧
    Dispatches (fed [0xAA, 0, 17, 0x00, 0x11, 2, 2, 0, 192, 168, 0, 1, 0x1F, 0x90, 192, 168, 0, 2, 0xC0, 0]) 0x0011 15 2
      [2, 2, 0, 192, 168, 0, 1, 0x1F, 0x90, 192, 168, 0, 2, 0xC0, 0] ∧
    Dispatches (fed ([0xAA, 0, 41, 0x00, 0x11, 4, 3, 1] ++ List.replicate 36 9)) 0x0011 39 3
      ([4, 3, 1] ++ List.replicate 36 9) := by decide

/-- A latched Data event, a latched AT event, and one with no slice. -/
theorem witness_EventCommandsOnlyLook :
    (fed (hiFrame ++ [0x55])).edm.state = .waitForEventProcessing ∧
    (fed (hiFrame ++ [0x55])).edm.event = some (.data 3 3 2) ∧
    (fed [0xAA, 0, 2, 0x00, 0x45, 0x55]).edm.state = .waitForEventProcessing ∧
    (fed [0xAA, 0, 2, 0x00, 0x45, 0x55]).edm.event = some (.atText 0 2 0) ∧
    (fed [0xAA, 0, 2, 0x00, 0x71, 0x55]).edm.state = .waitForEventProcessing ∧
    (fed [0xAA, 0, 2, 0x00, 0x71, 0x55]).edm.event = some (.startup 0) := by decide

theorem witness_EventIsRepeatedUntilReset : ∃ t, exec (.edmParse 0x55) (fed hiFrame) = .next t ∧ t.port.result ≠ some 0 :=
  ⟨_, rfl, by decide⟩

/-- The parser before the second length byte of a frame of 257 bytes. -/
def oversized : Edm := { State.reset.edm with state := .parsePayloadLength, lenCnt := 1, len := 0x0100 }

/-- The parser before the tail byte of a frame of 257 zero bytes in the heap buffer. -/
def heapTail : Edm := { State.reset.edm with state := .parseTailByte, len := 257, cnt := 257, heap := true }

theorem heapTail_inv : heapTail.Inv .default where
  buf_wf := rfl
  buf_below := by intro c hc; cases hc
  event_iff := by decide
  idle_heap := by decide
  len_ok := fun _ => by decide
  cnt_lt := by decide
  cnt_eq := fun _ => rfl
  event_eq := by decide

/-- Clauses: the step that allocates the heap buffer, with the buffer in use after it, and a step that frees it. -/
theorem witness_HeapBufferDiscipline :
    ((agenda (withEdm oversized) [turn 0 (.host [0x40010000] [])]).Inv ∧
      ∃ t, step (agenda (withEdm oversized) [turn 0 (.host [0x40010000] [])]) = .next t ∧
        (withEdm oversized).edm.heap = false ∧ t.edm.heap = true) ∧
    ((agenda (withEdm heapTail) [turn 0 (.host [0x40540000] [])]).Inv ∧
      ∃ t, step (agenda (withEdm heapTail) [turn 0 (.host [0x40540000] [])]) = .next t ∧
        (withEdm heapTail).edm.heap = true ∧ t.edm.heap = false) :=
  ⟨⟨⟨default_legal, sampleRb_inv, rfl, edm_inv_start _ rfl rfl rfl (.inr rfl), ubx_inv_idle _ rfl rfl, by decide⟩, _, rfl, rfl, rfl⟩,
    ⟨default_legal, sampleRb_inv, rfl, heapTail_inv, ubx_inv_idle _ rfl rfl, by decide⟩, _, rfl, rfl, rfl⟩

/-- A payload of one byte. The longest, 4092 bytes, needs the heap draw: its hypotheses are the next theorem's. -/
theorem witness_DataFrameRoundTrip :
    State.reset.par.Legal ∧ State.reset.par = State.reset.par ∧
    1 ≤ [(0x68 : Byte)].length ∧ [(0x68 : Byte)].length + 3 ≤ State.reset.par.edmMaxLen ∧
    ([(0x68 : Byte)].length + 3 ≤ Config.edmStack ∨ State.reset.HeapGrants) ∧
    State.reset.edm.state = .parseStartByte ∧ State.reset.edm.buf.wf = true ∧
    exec (.edmEncdata 3 [0x68]) State.reset = .next { State.reset with
      port := ⟨some (BitVec.ofNat 32 ([(0x68 : Byte)].length + 7)), [0xAA, 0, 4, 0, 0x36, 3, 0x68, 0x55]⟩ } :=
  ⟨default_legal, rfl, by decide, by decide, .inl (by decide), rfl, rfl, rfl⟩

/-- The longest payload of a data frame. -/
def longPayload : List Byte := List.replicate 4092 7

theorem length_longPayload : longPayload.length = 4092 := List.length_replicate

theorem witness_DataFrameRoundTrip_longest :
    1 ≤ longPayload.length ∧ longPayload.length + 3 ≤ State.reset.par.edmMaxLen ∧ State.reset.HeapGrants ∧
    exec (.edmEncdata 3 longPayload) State.reset = .next { State.reset with
      port := ⟨some (BitVec.ofNat 32 (longPayload.length + 7)), dataFrame .default 3 longPayload⟩ } := by
  refine ⟨by rw [length_longPayload]; decide, by rw [length_longPayload]; decide, .inr ⟨rfl, rfl⟩, ?_⟩
  have hp : State.reset.par = .default := rfl
  have h : ¬ longPayload.length + 3 > Config.Params.default.edmMaxLen := by rw [length_longPayload]; decide
  have hl : (dataFrame .default 3 longPayload).length = longPayload.length + 7 := by
    simp [dataFrame, dataHead, frameHead, bigEndian]
  simp only [exec, execEdmEncdata, State.postFrame, State.post, countWord, hp, if_neg h, hl]

theorem witness_AtFrameRoundTrip :
    State.reset.par.Legal ∧ State.reset.par = State.reset.par ∧
    [(0x4F : Byte), 0x4B].length + 2 ≤ State.reset.par.edmMaxLen ∧
    ([(0x4F : Byte), 0x4B].length + 2 ≤ Config.edmStack ∨ State.reset.HeapGrants) ∧
    State.reset.edm.state = .parseStartByte ∧ State.reset.edm.buf.wf = true ∧
    exec (.edmEncatreq [0x4F, 0x4B]) State.reset = .next { State.reset with
      port := ⟨some (BitVec.ofNat 32 ([(0x4F : Byte), 0x4B].length + 6)), [0xAA, 0, 4, 0, 0x44, 0x4F, 0x4B, 0x55]⟩ } ∧
    exec (.edmEncatrsp [0x4F, 0x4B]) State.reset = .next { State.reset with
      port := ⟨some (BitVec.ofNat 32 ([(0x4F : Byte), 0x4B].length + 6)), [0xAA, 0, 4, 0, 0x45, 0x4F, 0x4B, 0x55]⟩ } :=
  ⟨default_legal, rfl, by decide, .inl (by decide), rfl, rfl, rfl, rfl⟩

/-! #### ubx -/

theorem witness_UbxEncodeFrame : [(1 : Byte), 2].length < 65536 ∧ longest.length < 65536 ∧
    [(6 : Byte), 1, 2, 0, 1, 2] =
      [6, 1, BitVec.ofNat 8 [(1 : Byte), 2].length, BitVec.ofNat 8 ([(1 : Byte), 2].length / 256)] ++ [1, 2] :=
  ⟨by decide, by rw [length_longest]; decide, by decide⟩

theorem witness_UbxDecodePresentation : ubxDecode .default ackFrame = .found 5 1 [6, 1] 10 ∧
    ubxDecode .default (ackFrame.take 9) = .partialFrame 0 ∧ ubxDecode .default [] = .notFound := by decide

theorem witness_CodecRoundTrip : [(6 : Byte), 1].length < 65536 ∧ Config.Params.default.ubxSync1 ∉ [(0x24 : Byte), 0x62] ∧
    ∃ e, exec (.ubxEncode 5 1 [6, 1]) State.reset = .next e :=
  ⟨by decide, by decide, _, rfl⟩

theorem witness_DecodeFindsOnlyFrames : ubxDecode .default ([0x24] ++ ackFrame ++ [0x00]) = .found 5 1 [6, 1] 11 := by decide

/-- One byte of the frame, and all but one. -/
theorem witness_TruncatedFrameIsPartial : [(6 : Byte), 1].length < 65536 ∧ Config.Params.default.ubxSync1 ∉ [(0x24 : Byte)] ∧
    (0 < 1 ∧ 1 < [(6 : Byte), 1].length + 8) ∧ 9 < [(6 : Byte), 1].length + 8 := by decide

/-- The call in progress, its clock at the deadline, and one millisecond before. -/
def atTime (s : State) (now : Word) : State := { s with env := { s.env with now := now } }

theorem witness_EngineDeadlineComesFirst :
    (atTime polling 1000).ubx.phase = .poll ∧
    (atTime polling 1000).ubx.timeout.toNat ≤ ((atTime polling 1000).env.now - (atTime polling 1000).ubx.t0).toNat ∧
    ((atTime polling 999).env.now - (atTime polling 999).ubx.t0).toNat < (atTime polling 999).ubx.timeout.toNat ∧
    (atTime polling 999).uart.rx = [] := by decide

/-- A call that takes up to 20 bytes of body, with an unrelated frame behind junk, the answer, and a byte after it. -/
def busyLine : State :=
  received (after [.ubxSendrecv 6 1 (some 5) (some 1) 20 1000 []] State.reset) ([0x24] ++ navFrame ++ (ackFrame ++ [0x24]))

theorem witness_EngineAnswersTheMatchingFrame :
    busyLine.ubx.phase = .poll ∧ (busyLine.env.now - busyLine.ubx.t0).toNat < busyLine.ubx.timeout.toNat ∧
    busyLine.uart.rx ≠ [] ∧ 23 = min busyLine.uart.rx.length (busyLine.ubx.cap.toNat - busyLine.ubx.acc.length) ∧
    busyLine.ubx.acc ++ busyLine.uart.rx.take 23 =
      [(⟨[0x24], 1, 7, [0x11, 0x22, 0x33]⟩ : Traffic)].flatMap (Traffic.bytes .default) ++
        ((⟨[], 5, 1, [6, 1]⟩ : Traffic).bytes .default ++ [0x24]) ∧
    (∀ f ∈ [(⟨[0x24], 1, 7, [0x11, 0x22, 0x33]⟩ : Traffic)], f.Clean .default ∧
      ¬ ((busyLine.ubx.expClass = none ∨ busyLine.ubx.expClass = some f.cls) ∧
        (busyLine.ubx.expId = none ∨ busyLine.ubx.expId = some f.id))) ∧
    (⟨[], 5, 1, [6, 1]⟩ : Traffic).Clean .default ∧ busyLine.ubx.expClass = some 5 ∧ busyLine.ubx.expId = some 1 := by
  unfold Traffic.Clean; decide

theorem polling_ubx_inv : polling.ubx.Inv .default := ⟨by decide, fun _ => by decide, fun _ => by decide⟩

/-- A call that takes a body of 2 bytes, so that 10 bytes are kept, and its line. -/
def partialLine (rx : List Byte) : State := received polling rx

/-- Clauses: S7, an unrelated frame and then 9 of the answer's 10 bytes; a frame of 20 bytes cut off after 15, of
which 10 are kept; junk alone; and, whole, all but the last byte of the answer behind one byte of junk. -/
theorem witness_EngineKeepsAPartialFrame :
    (partialLine (navFrame ++ ackFrame)).ubx.phase = .poll ∧
    (polling.env.now - polling.ubx.t0).toNat < polling.ubx.timeout.toNat ∧
    20 = min (partialLine (navFrame ++ ackFrame)).uart.rx.length (polling.ubx.cap.toNat - polling.ubx.acc.length) ∧
    10 = polling.ubx.maxBody.toNat + polling.par.ubxOverhead ∧
    polling.ubx.acc ++ (navFrame ++ ackFrame).take 20 =
      [(⟨[], 1, 7, [0x11, 0x22, 0x33]⟩ : Traffic)].flatMap (Traffic.bytes .default) ++ ackFrame.take 9 ∧
    (⟨[], 1, 7, [0x11, 0x22, 0x33]⟩ : Traffic).Clean .default ∧ ¬ polling.ubx.expClass = some 1 ∧
    ubxDecode .default (ackFrame.take 9) = .partialFrame 0 ∧
    ubxDecode .default ((ubxFrame .default 5 1 (List.replicate 12 9)).take 15) = .partialFrame 0 ∧
    ubxDecode .default [0x24, 0x62] = .notFound ∧
    (⟨[0x24], 5, 1, [6, 1]⟩ : Traffic).Clean .default ∧ 9 < [(6 : Byte), 1].length + 8 ∧
    0x24 :: ackFrame.take 9 = [0x24] ++ (ubxFrame .default 5 1 [6, 1]).take 9 ∧ (0x24 :: ackFrame.take 9).length ≤ 10 := by
  unfold Traffic.Clean; decide

theorem witness_EngineAlwaysProgresses :
    polling.par.Legal ∧ (received polling navFrame).ubx.Inv polling.par ∧ (received polling navFrame).ubx.phase = .poll ∧
    (polling.env.now - polling.ubx.t0).toNat < polling.ubx.timeout.toNat ∧ (received polling navFrame).uart.rx ≠ [] :=
  ⟨default_legal, polling_ubx_inv, by decide, by decide, by decide⟩

/-- The body fills `maxBody`, and one millisecond is left. -/
theorem witness_SendReceiveCycle :
    let send := turn 5 (.host (encode (.ubxSendrecv 6 1 (some 5) none 2 1000 [9])).words [9])
    let line := turn 400 (.line (ubxFrame .default 5 1 [6, 1]) 0)
    let engine := turn 599 .engine
    let s := agenda sample [send, line, engine]
    s.par.Legal ∧ s.env.agenda = send :: line :: engine :: [] ∧ s.env.words = [] ∧ s.env.input = [] ∧ s.ubx.phase = .idle ∧
    s.uart.rx = [] ∧ [(9 : Byte)].length < 65536 ∧ send.writeOk = true ∧ line.agent = .line (ubxFrame .default 5 1 [6, 1]) 0 ∧
    engine.agent = .engine ∧ (line.elapsed + engine.elapsed).toNat < (1000 : Word).toNat ∧
    [(6 : Byte), 1].length ≤ (2 : Half).toNat :=
  ⟨default_legal, by decide⟩

/-! #### UART, LINK and the agents -/

/-- Clauses: each mode with a byte waiting; and each way a PUMP is not enabled. -/
theorem witness_PumpStepAddsOneByte :
    (received sample [0x41, 0x42]).rb.created = true ∧ (received sample [0x41, 0x42]).uart.rx = 0x41 :: [0x42] ∧
    (after [.linkPump .add] sample).link.pump = .add ∧ (after [.linkPump .forceAdd] sample).link.pump = .forceAdd ∧
    State.reset.rb.created = false ∧ sample.uart.rx = [] ∧ sample.link.pump = .off := by decide

/-- A DRAIN through the locked handle 1. -/
theorem witness_DrainStepReadsAndParses :
    let s := after [.linkDrain 1 true] sample
    s.link.drainEn = true ∧ s.rb.created = true ∧ s.edm.state ≠ .waitForEventProcessing ∧
    s.rb.readable s.link.drainCur.toNat = true ∧ 0 < s.rb.unread s.link.drainCur.toNat ∧
    sample.link.drainEn = false ∧ State.reset.rb.created = false ∧
    (fed (hiFrame ++ [0x55])).edm.state = .waitForEventProcessing ∧ sample.rb.readable 2 = false ∧
    (after [.rbReadh 1 2] sample).rb.unread 1 = 0 := by decide

theorem witness_CommandsWriteOnlyTheirUnit :
    (∃ t, exec (.uartRead 1) (received sample [0x41]) = .next t) ∧ ownerOf (.uartRead 1) ≠ .ringBuffer ∧
    ownerOf (.rbFadd [1]) ≠ .edmParser ∧ ownerOf (.edmParse 0xAA) ≠ .ubxEngine ∧ ownerOf (.linkPump .off) ≠ .uart ∧
    ownerOf (.ubxSendonly 6 1 500 []) ≠ .link :=
  ⟨⟨_, rfl⟩, by decide, by decide, by decide, by decide, by decide⟩

theorem witness_ReceivedBytesLeaveInOrder :
    let s := agenda (received sample [0x41, 0x42]) [turn 0 (.host [0x72000001] []), turn 0 .pump]
    (∃ u, s.Takes (turn 0 (.host [0x72000001] [])) u) ∧ ∃ t, step s = .next t ∧ t.uart.rx = [0x42] :=
  ⟨⟨_, takes_agenda _ _ _⟩, _, rfl, rfl⟩

end Sys2Proof.Tests
end

section
/-!
What each unit's operations keep of its invariant (10_state.md R26, R27, R30, R36): the ring buffer, the EDM
parser, the ubx unit, one lemma per operation; then every command and every agent, and the step.
-/

namespace Sys2Proof.Machine

open Host

/-! ### The ring buffer -/

/-- A loss counter that is bumped has LOSSW bits (10_state.md R22). -/
theorem Loss.bump_lt (c : Loss) (par : Config.Params) (d : Nat) : c.bump par d < 2 ^ par.lossw :=
  Nat.mod_lt _ (Nat.two_pow_pos _)

/-- I1 and I2 speak of the shape, the write cursor and the present read cursors alone. -/
theorem RB.Live.of_sameShape {rb rb' : RB} {par : Config.Params} (hl : rb.Live par) (h : rb.SameShape rb')
    (hw : rb'.w.toNat < rb.size.toNat) (hc : ∀ k, rb.present k = true → rb'.cursor k < rb.size.toNat) :
    rb'.Live par where
  size_pos := by rw [h.size]; exact hl.size_pos
  size_le := by rw [h.size]; exact hl.size_le
  n_le := by rw [h.n]; exact hl.n_le
  w_lt := by rw [h.size]; exact hw
  cursor_lt k hk := by
    rw [RB.present_congr h.n h.taken] at hk
    rw [h.size]; exact hc k hk
  lock_taken k h1 hn hb := by
    have ht : rb'.takenBit k = rb.takenBit k := by cases k <;> simp [RB.takenBit, h.taken]
    have hk : rb'.lockBit k = rb.lockBit k := by cases k <;> simp [RB.lockBit, h.lock]
    rw [h.n] at hn
    rw [hk] at hb
    rw [ht]; exact hl.lock_taken k h1 hn hb

/-- A new buffer holds no handle and its cursor 0 stands at the write cursor (R120). -/
theorem RB.Inv.create {rb : RB} {par : Config.Params} (hi : rb.Inv par) {size : Half} {m : Byte}
    (hs : sizeRefused par size = false) (hm : m.toNat ≤ par.nmax) : (rb.create par size m).Inv par := by
  have hsize : 1 ≤ size.toNat ∧ size.toNat ≤ par.sizeMax := by
    simp only [sizeRefused, Bool.or_eq_false_iff, decide_eq_false_iff_not] at hs; omega
  have htaken : ∀ k, (rb.create par size m).takenBit k = false := by
    intro k
    cases k with
    | zero => rfl
    | succ k => exact List.getElem?_getD_replicate_default_eq false par.nmax k
  have hlock : ∀ k, (rb.create par size m).lockBit k = false := by
    intro k
    cases k with
    | zero => rfl
    | succ k => exact List.getElem?_getD_replicate_default_eq false par.nmax k
  have hcursor : (rb.create par size m).cursor 0 = 0 := by
    simp [RB.cursor, hi.sized.x]
  exact {
    mem_wf := hi.mem_wf
    mem_below := hi.mem_below
    lossAdd_lt := Nat.two_pow_pos _
    loss_lt := fun k => by
      have h0 : (rb.create par size m).lossOf k = 0 := List.getElem?_getD_replicate_default_eq 0 (par.nmax + 1) k
      rw [h0]; exact Nat.two_pow_pos _
    sized := ⟨by simp [hi.sized.x], by simp, by simp, by simp⟩
    live := fun _ => {
      size_pos := hsize.1
      size_le := hsize.2
      n_le := hm
      w_lt := hsize.1
      cursor_lt := fun k hk => by
        have h0 : k = 0 := by simpa [RB.present, RB.held, htaken] using hk
        rw [h0, hcursor]; exact hsize.1
      lock_taken := fun k _ _ hb => by simp [hlock] at hb } }

theorem RB.Inv.destroy {rb : RB} {par : Config.Params} (hi : rb.Inv par) : ({ rb with created := false } : RB).Inv par :=
  { hi with
    sized := ⟨hi.sized.x, hi.sized.taken, hi.sized.lock, hi.sized.lossRead⟩
    live := nofun }

theorem RB.Inv.setRhr {rb : RB} {par : Config.Params} (hi : rb.Inv par) (on : Bool) : ({ rb with rhr := on } : RB).Inv par :=
  { hi with
    sized := ⟨hi.sized.x, hi.sized.taken, hi.sized.lock, hi.sized.lossRead⟩
    live := fun hc =>
      have hl := hi.live hc
      ⟨hl.size_pos, hl.size_le, hl.n_le, hl.w_lt, hl.cursor_lt, hl.lock_taken⟩ }

/-- A change of the two bitmaps keeps the invariant if it takes no slot and locks no slot that is not taken (I2). -/
theorem RB.Inv.of_sameButBits {rb rb' : RB} {par : Config.Params} (hi : rb.Inv par) (h : rb.SameButBits rb')
    (ht : rb'.taken.length = rb.taken.length) (hk : rb'.lock.length = rb.lock.length)
    (htaken : ∀ k, rb'.takenBit k = true → rb.takenBit k = true)
    (hlock : rb.created = true → ∀ k, 1 ≤ k → k ≤ rb.n.toNat → rb'.lockBit k = true → rb'.takenBit k = true) :
    rb'.Inv par := by
  have hcur : ∀ k, rb'.cursor k = rb.cursor k := fun k => by simp [RB.cursor, h.x]
  have hpresent : ∀ k, rb'.present k = true → rb.present k = true := fun k => by
    simp only [RB.present, RB.held, h.n, Bool.or_eq_true, Bool.and_eq_true]
    exact Or.imp_right (And.imp_right (htaken k))
  exact {
    mem_wf := by rw [h.mem]; exact hi.mem_wf
    mem_below := by rw [h.mem]; exact hi.mem_below
    lossAdd_lt := by rw [h.lossAdd]; exact hi.lossAdd_lt
    loss_lt := fun k => by
      have hloss : rb'.lossOf k = rb.lossOf k := by simp [RB.lossOf, h.lossRead]
      rw [hloss]; exact hi.loss_lt k
    sized := ⟨by rw [h.x]; exact hi.sized.x, by rw [ht]; exact hi.sized.taken, by rw [hk]; exact hi.sized.lock,
      by rw [h.lossRead]; exact hi.sized.lossRead⟩
    live := fun hc => by
      rw [h.created] at hc
      have hl := hi.live hc
      exact {
        size_pos := by rw [h.size]; exact hl.size_pos
        size_le := by rw [h.size]; exact hl.size_le
        n_le := by rw [h.n]; exact hl.n_le
        w_lt := by rw [h.w, h.size]; exact hl.w_lt
        cursor_lt := fun k hk => by rw [hcur, h.size]; exact hl.cursor_lt k (hpresent k hk)
        lock_taken := fun k h1 hn => hlock hc k h1 (h.n ▸ hn) } }

@[simp] theorem RB.length_lock_setLock (rb : RB) (b : Bool) (k : Nat) : (rb.setLock b k).lock.length = rb.lock.length := by
  cases k <;> simp [RB.setLock]

@[simp] theorem RB.length_taken_setTaken (rb : RB) (b : Bool) (k : Nat) :
    (rb.setTaken b k).taken.length = rb.taken.length := by
  cases k <;> simp [RB.setTaken]

/-- RB.LOCK and RB.UNLOCK write the lock bitmap alone (R126, R127). -/
theorem RB.setLock_sameButBits (rb : RB) (b : Bool) (k : Nat) : rb.SameButBits (rb.setLock b k) := by
  constructor <;> simp

/-- RB.GIVE writes the two bitmaps alone (R125). -/
theorem RB.giveSlot_sameButBits (rb : RB) (k : Nat) : rb.SameButBits (rb.giveSlot k) := by
  constructor <;> simp [RB.giveSlot]

/-- An acquired handle of a created buffer is a slot the build has. -/
theorem RB.Inv.validh_le_nmax {rb : RB} {par : Config.Params} (hi : rb.Inv par) {h : Nat} (hv : rb.validh h = true) :
    h ≤ par.nmax := by
  obtain ⟨hc, -, hn, -⟩ := (rb.validh_iff h).1 hv
  exact hn.trans (hi.live hc).n_le

theorem RB.Inv.setLock {rb : RB} {par : Config.Params} (hi : rb.Inv par) (b : Bool) {h : Nat} (hv : rb.validh h = true) :
    (rb.setLock b h).Inv par := by
  obtain ⟨-, h1, -, htaken⟩ := (rb.validh_iff h).1 hv
  have hlen : h ≤ rb.lock.length := hi.sized.lock ▸ hi.validh_le_nmax hv
  refine hi.of_sameButBits (rb.setLock_sameButBits b h) (by simp) (by simp) (fun k => by simp) fun hc k hk hn hb => ?_
  rw [RB.takenBit_setLock]
  rw [RB.lockBit_setLock rb b k h1 hlen] at hb
  by_cases hkh : k = h
  · rw [hkh]; exact htaken
  · rw [if_neg hkh] at hb
    exact (hi.live hc).lock_taken k hk hn hb

theorem RB.Inv.giveSlot {rb : RB} {par : Config.Params} (hi : rb.Inv par) {h : Nat} (hv : rb.validh h = true) :
    (rb.giveSlot h).Inv par := by
  obtain ⟨-, h1, -, -⟩ := (rb.validh_iff h).1 hv
  have hlen : h ≤ rb.taken.length := hi.sized.taken ▸ hi.validh_le_nmax hv
  have htaken : ∀ k, (rb.giveSlot h).takenBit k = if k = h then false else rb.takenBit k := fun k => by
    rw [RB.giveSlot, RB.takenBit_setLock, RB.takenBit_setTaken rb false k h1 hlen]
  have hlock : ∀ k, (rb.giveSlot h).lockBit k = if k = h then false else rb.lockBit k := fun k => by
    rw [RB.giveSlot, RB.lockBit_unlock _ k h1, RB.lockBit_setTaken]
  refine hi.of_sameButBits (rb.giveSlot_sameButBits h) (by simp [RB.giveSlot]) (by simp [RB.giveSlot]) ?_ ?_
  · intro k hk
    rw [htaken] at hk
    by_cases hkh : k = h
    · rw [if_pos hkh] at hk; cases hk
    · rwa [if_neg hkh] at hk
  · intro hc k hk hn hb
    rw [hlock] at hb
    rw [htaken]
    by_cases hkh : k = h
    · rw [if_pos hkh] at hb; cases hb
    · rw [if_neg hkh] at hb ⊢
      exact (hi.live hc).lock_taken k hk hn hb

/-- The slot RB.TAKE finds is one of the range it looks at, and free (R124). -/
theorem RB.freeSlotFrom_bounds (rb : RB) : ∀ {fuel k m : Nat}, rb.freeSlotFrom k fuel = some m →
    k ≤ m ∧ m < k + fuel ∧ rb.takenBit m = false
  | 0, _, _, h => nomatch h
  | fuel + 1, k, m, h => by
    unfold RB.freeSlotFrom at h
    by_cases hk : rb.takenBit k = true
    · rw [if_pos hk] at h
      obtain ⟨hle, hlt, hfree⟩ := RB.freeSlotFrom_bounds rb h
      exact ⟨by omega, by omega, hfree⟩
    · rw [if_neg hk] at h
      obtain rfl : k = m := Option.some.inj h
      exact ⟨le_rfl, by omega, by simpa using hk⟩

@[simp] theorem RB.takeSlot_created (rb : RB) (k : Nat) : (rb.takeSlot k).created = rb.created := by simp [RB.takeSlot]
@[simp] theorem RB.takeSlot_size (rb : RB) (k : Nat) : (rb.takeSlot k).size = rb.size := by simp [RB.takeSlot]
@[simp] theorem RB.takeSlot_n (rb : RB) (k : Nat) : (rb.takeSlot k).n = rb.n := by simp [RB.takeSlot]
@[simp] theorem RB.takeSlot_mem (rb : RB) (k : Nat) : (rb.takeSlot k).mem = rb.mem := by simp [RB.takeSlot]
@[simp] theorem RB.takeSlot_w (rb : RB) (k : Nat) : (rb.takeSlot k).w = rb.w := by simp [RB.takeSlot]
@[simp] theorem RB.takeSlot_lossAdd (rb : RB) (k : Nat) : (rb.takeSlot k).lossAdd = rb.lossAdd := by simp [RB.takeSlot]

/-- The slot RB.TAKE acquires starts unlocked at the write cursor, so I1 and I2 hold of it too (R124). -/
theorem RB.Inv.takeSlot {rb : RB} {par : Config.Params} (hi : rb.Inv par) (hc : rb.created = true) {k : Nat}
    (hk : rb.freeSlot = some k) : (rb.takeSlot k).Inv par := by
  have hl := hi.live hc
  obtain ⟨h1, hlt, -⟩ := rb.freeSlotFrom_bounds hk
  have hn : k ≤ par.nmax := by have := hl.n_le; omega
  have hreads := RB.takeSlot_reads hi.sized h1 hn
  have hpresent : ∀ j, j ≠ k → (rb.takeSlot k).present j = true → rb.present j = true := fun j hj hp => by
    have ht : (rb.takeSlot k).takenBit j = rb.takenBit j := by rw [(hreads j).1, if_neg hj]
    simpa [RB.present, RB.held, ht] using hp
  exact {
    mem_wf := by simpa using hi.mem_wf
    mem_below := by simpa using hi.mem_below
    lossAdd_lt := by simpa using hi.lossAdd_lt
    loss_lt := fun j => by
      obtain ⟨-, -, -, hloss⟩ := hreads j
      rw [hloss]; split
      · exact Nat.two_pow_pos _
      · exact hi.loss_lt j
    sized := ⟨by simp [RB.takeSlot, hi.sized.x], by simp [RB.takeSlot, hi.sized.taken],
      by simp [RB.takeSlot, hi.sized.lock], by simp [RB.takeSlot, hi.sized.lossRead]⟩
    live := fun _ => {
      size_pos := by simpa using hl.size_pos
      size_le := by simpa using hl.size_le
      n_le := by simpa using hl.n_le
      w_lt := by simpa using hl.w_lt
      cursor_lt := fun j hp => by
        obtain ⟨-, -, hcur, -⟩ := hreads j
        rw [hcur, RB.takeSlot_size]
        by_cases hj : j = k
        · rw [if_pos hj]; exact hl.w_lt
        · rw [if_neg hj]; exact hl.cursor_lt j (hpresent j hj hp)
      lock_taken := fun j hj1 hjn hb => by
        obtain ⟨htaken, hlock, -, -⟩ := hreads j
        rw [htaken]
        rw [hlock] at hb
        by_cases hj : j = k
        · rw [if_pos hj]
        · rw [if_neg hj] at hb ⊢
          exact hl.lock_taken j hj1 (by simpa using hjn) hb } }

theorem RB.Inv.refuseAdd {rb : RB} {par : Config.Params} (hi : rb.Inv par) (d : Nat) : (rb.refuseAdd par d).Inv par :=
  { hi with
    lossAdd_lt := Loss.bump_lt _ _ _
    sized := ⟨hi.sized.x, hi.sized.taken, hi.sized.lock, hi.sized.lossRead⟩
    live := fun hc => (hi.live hc).of_sameShape ⟨rfl, rfl, rfl, rfl, rfl, rfl⟩ (hi.live hc).w_lt (hi.live hc).cursor_lt }

/-- Storing bytes moves cursors modulo the size and counts losses modulo 2^LOSSW (R152, R153). -/
theorem RB.Inv.reclaim_put {rb : RB} {par : Config.Params} (hi : rb.Inv par) (hc : rb.created = true) (d : List Byte) :
    ((rb.reclaim par d.length).put d).Inv par := by
  have hl := hi.live hc
  have hst := RB.reclaim_put_stored hi hl d
  have hsplit : ∀ k, (rb.present k = true ∧ rb.locked k = false) ∨ (rb.present k = false ∨ rb.locked k = true) := fun k => by
    cases rb.present k <;> cases rb.locked k <;> simp
  exact {
    mem_wf := Memory.wf_writeRing _ d _ _ hi.mem_wf
    mem_below := Memory.below_writeRing hl.size_pos hl.size_le d _ _ hi.mem_below
    lossAdd_lt := hi.lossAdd_lt
    loss_lt := fun k => by
      rcases hsplit k with ⟨hp, hk⟩ | hk
      · rw [(hst.moved k hp hk).2]; exact Nat.mod_lt _ (Nat.two_pow_pos _)
      · rw [(hst.kept k hk).2]; exact hi.loss_lt k
    sized := ⟨by simp [RB.reclaim, hi.sized.x], hi.sized.taken, hi.sized.lock, by simp [RB.reclaim, hi.sized.lossRead]⟩
    live := fun _ => hl.of_sameShape hst.shape (by rw [hst.w]; exact Nat.mod_lt _ hl.size_pos) fun k hp => by
      rcases hsplit k with ⟨-, hk⟩ | hk
      · rw [(hst.moved k hp hk).1]; exact Nat.mod_lt _ hl.size_pos
      · rw [(hst.kept k hk).1]; exact hl.cursor_lt k hp }

theorem RB.Inv.add {rb : RB} {par : Config.Params} (hi : rb.Inv par) (d : List Byte) : (rb.add par d).1.Inv par := by
  rcases RB.add_cases rb par d with ⟨-, h⟩ | ⟨-, -, h⟩ | ⟨hc, -, h⟩ <;> rw [h]
  · exact hi
  · exact hi.refuseAdd _
  · exact hi.reclaim_put hc d

theorem RB.Inv.forceAdd {rb : RB} {par : Config.Params} (hi : rb.Inv par) (d : List Byte) :
    (rb.forceAdd par d).1.Inv par := by
  rcases RB.forceAdd_cases rb par d with ⟨-, h⟩ | ⟨-, -, h⟩ | ⟨hc, -, h⟩ <;> rw [h]
  · exact hi
  · exact hi.refuseAdd _
  · exact hi.reclaim_put hc d

theorem RB.Inv.pumpAdd {rb : RB} {par : Config.Params} (hi : rb.Inv par) (mode : PumpMode) (b : Byte) :
    (rb.pumpAdd par mode b).Inv par := by
  cases mode with
  | off => exact hi
  | add => exact hi.add [b]
  | forceAdd => exact hi.forceAdd [b]

/-- A cursor may be moved to any index of the ring. -/
theorem RB.Inv.setCursor {rb : RB} {par : Config.Params} (hi : rb.Inv par) {h v : Nat} (hh : h < rb.x.length)
    (hv : v < rb.size.toNat) : (rb.setCursor h v).Inv par :=
  { hi with
    sized := ⟨by simp [hi.sized.x], hi.sized.taken, hi.sized.lock, hi.sized.lossRead⟩
    live := fun hc => (hi.live hc).of_sameShape ⟨rfl, rfl, rfl, rfl, rfl, rfl⟩ (hi.live hc).w_lt fun k hp => by
      rw [RB.cursor_setCursor rb k hh (hv.trans rb.size.isLt)]
      split
      · exact hv
      · exact (hi.live hc).cursor_lt k hp }

theorem RB.Inv.read {rb : RB} {par : Config.Params} (hi : rb.Inv par) (h n : Nat) : (rb.read h n).1.Inv par := by
  rcases RB.read_cases rb h n with ⟨-, he⟩ | ⟨hr, he⟩ <;> rw [he]
  · exact hi
  · have hc : rb.created = true := by simp only [RB.readable, Bool.and_eq_true] at hr; exact hr.1
    have hl := hi.live hc
    exact hi.setCursor (hi.sized.lt_x (hl.present_le_nmax (RB.present_of_readable hr))) (Nat.mod_lt _ hl.size_pos)

/-! ### The EDM parser -/

/-- Invariant of the idle parser: before a frame's length is known no buffer is in flight and no event waits. -/
theorem Edm.Inv.of_idle {e : Edm} {par : Config.Params} (hwf : e.buf.wf = true) (hbelow : e.buf.below par.edmMaxLen)
    (hs : e.state = .parseStartByte ∨ e.state = .parsePayloadLength) (hheap : e.heap = false) (hev : e.event = none) :
    e.Inv par where
  buf_wf := hwf
  buf_below := hbelow
  event_iff := by rcases hs with h | h <;> simp [h, hev]
  idle_heap _ := hheap
  len_ok h := by rcases hs with hs | hs <;> simp [hs] at h
  cnt_lt h := by rcases hs with hs | hs <;> simp [hs] at h
  cnt_eq h := by rcases hs with hs | hs <;> simp [hs] at h
  event_eq h := by rcases hs with hs | hs <;> simp [hs] at h

/-- No event waits outside state 4. -/
theorem Edm.Inv.event_none {e : Edm} {par : Config.Params} (hi : e.Inv par) (h : e.state ≠ .waitForEventProcessing) :
    e.event = none := by
  by_contra hne
  exact h (hi.event_iff.1 (Option.isSome_iff_ne_none.2 hne))

theorem Edm.Inv.onStart {e : Edm} {par : Config.Params} (hi : e.Inv par) (hs : e.state = .parseStartByte) (b : Byte) :
    (e.onStart b).Inv par := by
  unfold Edm.onStart
  split
  · exact .of_idle hi.buf_wf hi.buf_below (.inr rfl) (hi.idle_heap (.inl hs)) (hi.event_none (by simp [hs]))
  · exact hi

/-- Invariant of the parser when a frame's payload begins (R193). -/
theorem Edm.Inv.of_payload_start {e : Edm} {par : Config.Params} (hwf : e.buf.wf = true)
    (hbelow : e.buf.below par.edmMaxLen) (hev : e.event = none) (hmin : Config.edmMinLen ≤ e.len.toNat)
    (hmax : e.len.toNat ≤ par.edmMaxLen) {heap : Bool} (hheap : heap = true ↔ Config.edmStack < e.len.toNat) :
    ({ e with heap := heap, cnt := 0, state := .accumulatePayload } : Edm).Inv par where
  buf_wf := hwf
  buf_below := hbelow
  event_iff := by simp [hev]
  idle_heap := by simp
  len_ok _ := ⟨hmin, hmax, hheap⟩
  cnt_lt _ := by
    have : 0 < e.len.toNat := lt_of_lt_of_le (by decide) hmin
    simpa using this
  cnt_eq := by simp
  event_eq := by simp

theorem Edm.Inv.lengthComplete {e : Edm} {par : Config.Params} (hi : e.Inv par) (hs : e.state = .parsePayloadLength)
    (len : Half) (d : Bool) : (Edm.lengthComplete { e with len := len } par d).Inv par := by
  have hheap : e.heap = false := hi.idle_heap (.inr hs)
  have hev : e.event = none := hi.event_none (by simp [hs])
  rcases Edm.lengthComplete_cases { e with len := len } par d with h | ⟨hmin, hmax, hbig, -, h⟩ | ⟨hmin, hmax, hsmall, h⟩ <;>
    rw [h]
  · exact .of_idle hi.buf_wf hi.buf_below (.inl rfl) hheap hev
  · exact .of_payload_start (e := { e with len := len }) hi.buf_wf hi.buf_below hev hmin hmax (by simpa using hbig)
  · exact .of_payload_start (e := { e with len := len }) hi.buf_wf hi.buf_below hev hmin hmax (by simpa using hsmall)

theorem Edm.Inv.onLength {e : Edm} {par : Config.Params} (hi : e.Inv par) (hs : e.state = .parsePayloadLength) (b : Byte)
    (d : Bool) : (e.onLength par b d).Inv par := by
  unfold Edm.onLength
  split
  · exact .of_idle hi.buf_wf hi.buf_below (.inr hs) (hi.idle_heap (.inr hs)) (hi.event_none (by simp [hs]))
  · exact hi.lengthComplete hs _ d

/-- A payload byte falls inside the declared length, so inside the frame buffer, and the count reaches the
length exactly when the tail is next (R194). -/
theorem Edm.Inv.onPayload {e : Edm} {par : Config.Params} (hi : e.Inv par) (hs : e.state = .accumulatePayload) (b : Byte) :
    (e.onPayload b).Inv par := by
  have hlt := hi.cnt_lt hs
  have hlen := hi.len_ok (.inl hs)
  have hev : e.event = none := hi.event_none (by simp [hs])
  have hnext : (e.cnt + 1).toNat = e.cnt.toNat + 1 := by
    have := e.len.isLt
    rw [BitVec.toNat_add]
    exact Nat.mod_eq_of_lt (by simp; omega)
  have hstate : (e.onPayload b).state = if e.cnt + 1 = e.len then .parseTailByte else .accumulatePayload := by
    simp [Edm.onPayload, hs]
  have hnot : (e.onPayload b).state ≠ .waitForEventProcessing := by rw [hstate]; split <;> simp
  exact {
    buf_wf := Memory.wf_write _ _ hi.buf_wf
    buf_below := Memory.below_write b hi.buf_below (hlt.trans_le hlen.2.1)
    event_iff := by simp [hnot, show (e.onPayload b).event = none from hev]
    idle_heap := by rw [hstate]; split <;> simp
    len_ok := fun _ => hlen
    cnt_lt := fun h => by
      have hne : e.cnt + 1 ≠ e.len := fun heq => by rw [hstate, if_pos heq] at h; cases h
      have hne' : (e.cnt + 1).toNat ≠ e.len.toNat := fun heq => hne (BitVec.eq_of_toNat_eq heq)
      change (e.cnt + 1).toNat < e.len.toNat
      omega
    cnt_eq := fun h => by
      change e.cnt + 1 = e.len
      by_contra hne
      rw [hstate, if_neg hne] at h
      rcases h with h | h <;> cases h
    event_eq := fun h => absurd h hnot }

theorem Edm.Inv.onTail {e : Edm} {par : Config.Params} (hi : e.Inv par) (hs : e.state = .parseTailByte) (b : Byte) :
    (e.onTail par b).1.Inv par := by
  have habort : e.abort.Inv par := .of_idle hi.buf_wf hi.buf_below (.inl rfl) rfl (hi.event_none (by simp [hs]))
  rcases Edm.onTail_cases e par b with ⟨-, h⟩ | ⟨-, -, h⟩ | ⟨ev, -, hev, h⟩ <;> rw [h]
  · exact habort
  · exact habort
  · exact {
      buf_wf := hi.buf_wf
      buf_below := hi.buf_below
      event_iff := by simp
      idle_heap := by simp
      len_ok := fun _ => hi.len_ok (.inr (.inl hs))
      cnt_lt := by simp
      cnt_eq := fun _ => hi.cnt_eq (.inl hs)
      event_eq := fun _ => hev.symm }

theorem Edm.Inv.parse {e : Edm} {par : Config.Params} (hi : e.Inv par) (b : Byte) (d : Bool) : (e.parse par b d).1.Inv par := by
  cases hs : e.state with
  | parseStartByte => rw [Edm.parse_start hs]; exact hi.onStart hs b
  | parsePayloadLength => rw [Edm.parse_length hs]; exact hi.onLength hs b d
  | accumulatePayload => rw [Edm.parse_payload hs]; exact hi.onPayload hs b
  | parseTailByte => rw [Edm.parse_tail hs]; exact hi.onTail hs b
  | waitForEventProcessing => rw [Edm.parse_wait hs]; exact hi

theorem Edm.Inv.reset {e : Edm} {par : Config.Params} (hi : e.Inv par) : e.reset.Inv par :=
  .of_idle hi.buf_wf hi.buf_below (.inl rfl) rfl rfl

/-! ### The ubx unit -/

theorem Ubx.Inv.finish (u : Ubx) (par : Config.Params) : u.finish.Inv par := ⟨fun _ => rfl, nofun, nofun⟩

/-- A call starts with an empty accumulation buffer, whose capacity fits its 18 bits on a legal build (R280). -/
theorem Ubx.Inv.arm {par : Config.Params} (hp : par.Legal) (cls id : Byte) (expClass expId : Option Byte) (ack : Bool)
    (maxBody : Half) (timeout now : Word) :
    (Ubx.arm par cls id expClass expId ack maxBody timeout now).Inv par where
  idle_empty := nofun
  poll_cap _ := by
    have := maxBody.isLt
    have := hp.overhead_le
    simp only [Ubx.arm, Ubx.keep, BitVec.toNat_ofNat]
    exact Nat.mod_eq_of_lt (by omega)
  poll_acc _ := Nat.zero_le _

/-- What a scan that finds no response leaves accumulated is within half the capacity (R293). -/
theorem Ubx.Inv.scan_more {u : Ubx} {par : Config.Params} (hcap : u.phase = .poll → u.cap.toNat = 2 * u.keep par)
    (hp : u.phase = .poll) {acc : List Byte} (h : u.scan par (u.acc.length + 1) u.acc = .more acc) :
    ({ u with acc := acc } : Ubx).Inv par where
  idle_empty hi := by simp [hp] at hi
  poll_cap := hcap
  poll_acc _ := u.scan_more_length par _ _ _ (Nat.lt_succ_self _) h

/-! ### The whole state -/

/-- `t` meets the invariant and is of the same build as `s`. -/
def State.Keeps (s t : State) : Prop := t.Inv ∧ t.par = s.par

/-- What a state must show to be kept: every unit's invariant on the old build, the mutex free. -/
theorem State.Inv.keeps {s t : State} (hs : s.Inv) (hpar : t.par = s.par) (hrb : t.rb.Inv s.par) (hmutex : t.mutex = .free)
    (hedm : t.edm.Inv s.par) (hubx : t.ubx.Inv s.par) (hcur : t.link.drainCur.toNat ≤ s.par.nmax) : s.Keeps t := by
  refine ⟨⟨?_, ?_, hmutex, ?_, ?_, ?_⟩, hpar⟩ <;> rw [hpar]
  · exact hs.par
  · exact hrb
  · exact hedm
  · exact hubx
  · exact hcur

/-- The UART queues, the outputs and the environment are free of the invariant. -/
theorem State.Inv.keeps_io {s : State} (hs : s.Inv) (uart : Uart) (port : Port) (env : Env) :
    s.Keeps { s with uart := uart, port := port, env := env } :=
  hs.keeps rfl hs.rb hs.mutex hs.edm hs.ubx hs.drainCur

/-- A ring-buffer operation under the mutex that keeps the unit's invariant. -/
theorem State.Inv.keeps_rb {s : State} (hs : s.Inv) {rb : RB} (hrb : rb.Inv s.par) (port : Port) :
    s.Keeps { s with rb := rb, mutex := .free, port := port } :=
  hs.keeps rfl hrb rfl hs.edm hs.ubx hs.drainCur

theorem State.Inv.keeps_edm {s : State} (hs : s.Inv) {edm : Edm} (hedm : edm.Inv s.par) (port : Port) :
    s.Keeps { s with edm := edm, port := port } :=
  hs.keeps rfl hs.rb hs.mutex hedm hs.ubx hs.drainCur

theorem State.Inv.keeps_ubx {s : State} (hs : s.Inv) {ubx : Ubx} (hubx : ubx.Inv s.par) (uart : Uart) (port : Port) :
    s.Keeps { s with ubx := ubx, uart := uart, port := port } :=
  hs.keeps rfl hs.rb hs.mutex hs.edm hubx hs.drainCur

theorem State.Inv.keeps_link {s : State} (hs : s.Inv) {link : Link} (hcur : link.drainCur.toNat ≤ s.par.nmax) (port : Port) :
    s.Keeps { s with link := link, port := port } :=
  hs.keeps rfl hs.rb hs.mutex hs.edm hs.ubx hcur

theorem State.Inv.keeps_post {s : State} (hs : s.Inv) (r : Word) (out : List Byte) : s.Keeps (s.post r out) :=
  hs.keeps_io _ _ _

theorem State.Inv.keeps_silent {s : State} (hs : s.Inv) : s.Keeps s.silent := hs.keeps_io _ _ _

theorem State.Inv.keeps_raise {s : State} (hs : s.Inv) (e : Config.ErrKind) : s.Keeps (s.raise e) := hs.keeps_io _ _ _

theorem State.Keeps.trans {s t u : State} (h : s.Keeps t) (h' : t.Keeps u) : s.Keeps u := ⟨h'.1, h'.2.trans h.2⟩

/-! ### The ring-buffer commands -/

theorem execRbCreate_keeps {s t : State} (hs : s.Inv) {size : Half} (h : execRbCreate size s = .next t) : s.Keeps t := by
  cases h
  simp only [State.underMutex]
  split
  · exact hs.keeps_rb hs.rb _
  · rename_i hsize
    exact hs.keeps_rb (hs.rb.create (by simpa using hsize) (Nat.zero_le _)) _

theorem execRbCreateh_keeps {s t : State} (hs : s.Inv) {m : Byte} {size : Half} (h : execRbCreateh m size s = .next t) :
    s.Keeps t := by
  cases h
  simp only [State.underMutex]
  split
  · exact hs.keeps_rb hs.rb _
  · rename_i hsize
    split
    · exact hs.keeps_rb hs.rb _
    · rename_i hm
      exact hs.keeps_rb (hs.rb.create (by simpa using hsize) (Nat.le_of_not_lt hm)) _

theorem execRbSetrhr_keeps {s t : State} (hs : s.Inv) {on : Bool} (h : execRbSetrhr on s = .next t) : s.Keeps t := by
  cases h
  simp only [State.underMutex]
  split
  · exact hs.keeps_rb (hs.rb.setRhr on) _
  · exact hs.keeps_rb hs.rb _

theorem execRbTake_keeps {s t : State} (hs : s.Inv) (h : execRbTake s = .next t) : s.Keeps t := by
  cases h
  simp only [State.underMutex]
  split
  · rename_i hc
    split
    · rename_i k hk
      exact hs.keeps_rb (hs.rb.takeSlot hc hk) _
    · exact hs.keeps_rb hs.rb _
  · exact hs.keeps_rb hs.rb _

/-- RB.GIVE, RB.LOCK and RB.UNLOCK write the buffer for an acquired handle alone (R125 to R128). -/
theorem State.Inv.keeps_handleOp {s : State} (hs : s.Inv) {valid : Bool} {rb : RB} (hrb : valid = true → rb.Inv s.par)
    (r : Word) : s.Keeps (if valid then (s.takeMutex.setRb rb).post r [] else s.takeMutex.post 0 []).freeMutex := by
  split
  · exact hs.keeps_rb (hrb ‹_›) _
  · exact hs.keeps_rb hs.rb _

/-! ### The ubx, UART and LINK commands, and the ones that only post -/

theorem State.Inv.keeps_postFrame {s : State} (hs : s.Inv) (len : Nat) (bytes : List Byte) :
    s.Keeps (s.postFrame len bytes) := by
  unfold State.postFrame
  split
  · exact hs.keeps_raise _
  · exact hs.keeps_post _ _

theorem State.Inv.keeps_postDecoded {s : State} (hs : s.Inv) (r : UbxDecoded) : s.Keeps (s.postDecoded r) := by
  cases r with
  | found cls id body next => exact hs.keeps_post _ _
  | partialFrame start => exact hs.keeps_post _ _
  | notFound => exact hs.keeps_post _ _

theorem State.Inv.keeps_startCall {s : State} (hs : s.Inv) (frame : List Byte) {ubx : Ubx} (hubx : ubx.Inv s.par) :
    s.Keeps (s.startCall frame ubx) := by
  unfold State.startCall
  split
  · exact hs.keeps_raise _
  · split
    · exact hs.keeps_ubx hubx _ _
    · exact hs.keeps_raise _

theorem execUartWrite_keeps {s t : State} (hs : s.Inv) {d : List Byte} (h : execUartWrite d s = .next t) : s.Keeps t := by
  cases h
  split
  · exact hs.keeps_io _ _ _
  · exact hs.keeps_raise _

theorem execLinkDrain_keeps {s t : State} (hs : s.Inv) {c : Byte} {enable : Bool} (h : execLinkDrain c enable s = .next t) :
    s.Keeps t := by
  cases h
  split
  · exact hs.keeps_raise _
  · rename_i hc
    exact hs.keeps_link (Nat.le_of_not_lt hc) _

/-- Every command keeps every unit's invariant and the build. -/
theorem exec_keeps {s t : State} (hs : s.Inv) {i : Instr} (h : exec i s = .next t) : s.Keeps t := by
  cases i with
  | rbCreate size => exact execRbCreate_keeps hs h
  | rbCreateh m size => exact execRbCreateh_keeps hs h
  | rbDestroy => cases h; exact hs.keeps_rb hs.rb.destroy _
  | rbSetrhr on => exact execRbSetrhr_keeps hs h
  | rbTake => exact execRbTake_keeps hs h
  | rbGive k => cases h; exact hs.keeps_handleOp hs.rb.giveSlot _
  | rbLock k => cases h; exact hs.keeps_handleOp (hs.rb.setLock true) _
  | rbUnlock k => cases h; exact hs.keeps_handleOp (hs.rb.setLock false) _
  | rbAdd d => cases h; exact hs.keeps_rb (hs.rb.add d) _
  | rbFadd d => cases h; exact hs.keeps_rb (hs.rb.forceAdd d) _
  | rbRead n => cases h; exact hs.keeps_rb (hs.rb.read 0 n.toNat) _
  | rbPeek n => cases h; exact hs.keeps_rb hs.rb _
  | rbReadh k n => cases h; exact hs.keeps_rb (hs.rb.read k.toNat n.toNat) _
  | rbPeekh k n => cases h; exact hs.keeps_rb hs.rb _
  | rbAvail => cases h; exact hs.keeps_rb hs.rb _
  | rbAvailmax => cases h; exact hs.keeps_rb hs.rb _
  | rbStatadd => cases h; exact hs.keeps_rb hs.rb _
  | rbStatread k => cases h; exact hs.keeps_rb hs.rb _
  | edmParse b => cases h; exact hs.keeps_edm (hs.edm.parse b s.env.heapOk) _
  | edmReady => cases h; exact hs.keeps_post _ _
  | edmReset => cases h; exact hs.keeps_edm hs.edm.reset _
  | edmEvdata m => cases h; exact hs.keeps_post _ _
  | edmEvent => cases h; exact hs.keeps_post _ _
  | edmEncdata ch d => cases h; exact hs.keeps_postFrame _ _
  | edmEnchead ch n => cases h; exact hs.keeps_postFrame _ _
  | edmEnctail => cases h; exact hs.keeps_post _ _
  | edmEncatreq d => cases h; exact hs.keeps_postFrame _ _
  | edmEncatrsp d => cases h; exact hs.keeps_postFrame _ _
  | ubxEncode cls id body => cases h; exact hs.keeps_post _ _
  | ubxDecode buf => cases h; exact hs.keeps_postDecoded _
  | ubxSendrecv cls id expClass expId maxBody timeout body => cases h; exact hs.keeps_startCall _ (.arm hs.par ..)
  | ubxSendonly cls id timeout body => cases h; exact hs.keeps_startCall _ (.arm hs.par ..)
  | uartWrite d => exact execUartWrite_keeps hs h
  | uartAvail => cases h; exact hs.keeps_post _ _
  | uartRead n => cases h; exact hs.keeps_io _ _ _
  | linkPump mode => cases h; exact hs.keeps_link (link := { s.link with pump := mode }) hs.drainCur _
  | linkDrain c enable => exact execLinkDrain_keeps hs h

/-! ### The agents -/

theorem State.Inv.keeps_hostStep {s t : State} (hs : s.Inv) (h : s.hostStep = .next t) : s.Keeps t := by
  have hconsume : ∀ words input, s.Keeps (s.consume words input) := fun _ _ => hs.keeps_io _ _ _
  unfold State.hostStep at h
  split at h
  · rename_i i words input _
    exact (hconsume words input).trans (exec_keeps (hconsume words input).1 h)
  · cases h; exact (hconsume _ _).trans ((hconsume _ _).1.keeps_raise _)
  · cases h; exact hs.keeps_silent

theorem State.Inv.keeps_pumpStep {s : State} (hs : s.Inv) : s.Keeps s.pumpStep := by
  unfold State.pumpStep
  split
  · split
    · exact hs.keeps_silent
    · exact hs.keeps rfl (hs.rb.pumpAdd _ _) rfl hs.edm hs.ubx hs.drainCur
  · exact hs.keeps_silent

theorem State.Inv.keeps_drainStep {s : State} (hs : s.Inv) : s.Keeps s.drainStep := by
  unfold State.drainStep
  split
  · have hrb := hs.rb.read s.link.drainCur.toNat 1
    dsimp only
    split
    · exact hs.keeps_rb hrb _
    · exact hs.keeps rfl hrb rfl (hs.edm.parse _ _) hs.ubx hs.drainCur
  · exact hs.keeps_silent

/-- A call that ends leaves the unit idle and empty (R290, R295, R296). -/
theorem State.Inv.keeps_complete {s : State} (hs : s.Inv) (u : Ubx) (uart : Uart) (cls id : Byte) (body : List Byte) :
    s.Keeps (State.complete { s with ubx := u, uart := uart } cls id body) := by
  unfold State.complete
  have hfinish := Ubx.Inv.finish u s.par
  dsimp only
  split
  · split
    · exact hs.keeps_ubx hfinish _ _
    · exact hs.keeps_ubx hfinish _ _
  · exact hs.keeps_ubx hfinish _ _

theorem State.Inv.keeps_engineStep {s : State} (hs : s.Inv) : s.Keeps s.engineStep := by
  unfold State.engineStep
  split
  · exact hs.keeps_silent
  · rename_i hidle
    have hpoll : s.ubx.phase = .poll := by
      cases hp : s.ubx.phase with
      | idle => exact absurd hp hidle
      | poll => rfl
    split
    · exact hs.keeps_ubx (.finish _ _) _ _
    · split
      · exact hs.keeps_silent
      · dsimp only
        split
        · exact hs.keeps_complete _ _ _ _ _
        · rename_i hscan
          exact hs.keeps_ubx (.scan_more (u := s.readUart.ubx) hs.ubx.poll_cap hpoll hscan) _ _

/-- Settles O11, from what each command and each agent keeps. -/
theorem stepKeepsInv : Obligations.StepKeepsInv := by
  intro s t hs h
  obtain ⟨turn, u, htakes⟩ := exists_takes s
  have hu : s.Keeps u := by
    rcases htakes with ⟨rest, -, rfl⟩ | ⟨-, -, rfl⟩ <;> exact hs.keeps_io _ _ _
  have hui : u.Inv := hu.1
  refine State.Keeps.trans hu (u := t) ?_
  rw [step_of_takes htakes] at h
  cases hagent : turn.agent with
  | host words input =>
    rw [hagent] at h
    have hpresent : u.Keeps (u.present words input) := hui.keeps_io _ _ _
    exact hpresent.trans (hpresent.1.keeps_hostStep h)
  | line received sent => rw [hagent] at h; cases h; exact hui.keeps_io _ _ _
  | pump => rw [hagent] at h; cases h; exact hui.keeps_pumpStep
  | drain => rw [hagent] at h; cases h; exact hui.keeps_drainStep
  | engine => rw [hagent] at h; cases h; exact hui.keeps_engineStep

/-! ### Reset -/

/-- Settles O13: each value is the one `State.powerOn` writes. -/
theorem resetValues : Obligations.ResetValues := by
  refine ⟨rfl, ?_⟩
  rintro par s rfl
  exact ⟨rfl, rfl, rfl, rfl, rfl, rfl, rfl, rfl, rfl, rfl, rfl, rfl, rfl⟩

end Sys2Proof.Machine
end

section
/-!
The HOST's turn (20_memory.md R73, 30_encoding.md R90): what its step does with the command that the port's
streams, with those the turn brings, decode to.
-/

namespace Sys2Proof.Machine

open Host

/-- Taking a command fixes both streams, so what the turn had brought to them shows only in what is left. -/
@[simp] theorem State.present_consume (s : State) (more words : List Word) (bytes input : List Byte) :
    (s.present more bytes).consume words input = s.consume words input := rfl

/-- A command at the front of the port is taken off it and executed (R90). -/
theorem State.hostStep_of_command {s : State} {i : Instr} {words : List Word} {input : List Byte}
    (h : decode s.env.words s.env.input = .command i words input) :
    s.hostStep = exec i (s.consume words input) := by
  simp only [State.hostStep, h]

/-- In a turn of the HOST the step decodes the port's streams as they stood before it, followed by those the
turn brings. -/
theorem decode_present_of_takes {s u : State} {t : Config.Turn} (h : s.Takes t u) (more : List Word) (bytes : List Byte) :
    decode (u.present more bytes).env.words (u.present more bytes).env.input =
      decode (s.env.words ++ more) (s.env.input ++ bytes) := by
  obtain ⟨-, -, -, -, -, -, -, -, hwords, hinput⟩ := h.same
  simp only [State.present_env, hwords, hinput]

/-- Settles O6, from what the turn leaves at the port and what the HOST's step does with a command there. -/
theorem stepRunsDecodedCommand : Obligations.StepRunsDecodedCommand := by
  intro s u t more words bytes input i htakes hagent hdecode
  have hport : decode (u.present more bytes).env.words (u.present more bytes).env.input = .command i words input :=
    (decode_present_of_takes htakes more bytes).trans hdecode
  calc step s = (u.present more bytes).hostStep := by rw [step_of_takes htakes, hagent]
    _ = exec i ((u.present more bytes).consume words input) := State.hostStep_of_command hport
    _ = exec i (u.consume words input) := by rw [State.present_consume]

end Sys2Proof.Machine
end

section
/-!
What a command's words and bytes carry: each field of an extension word, each restricted operand and the length
of a data-in stream read back what the encoder put there (30_encoding.md R91 to R93), and a word whose
must-be-zero fields are zero is the word of its fields.
-/

namespace Sys2Proof

/-! ### Ext1 of UBX.ENCODE and UBX.SENDONLY (R92) -/

@[simp] theorem toNat_idWord (id : Byte) : (idWord id).toNat = id.toNat := by
  have happ : (idWord id).toNat = (0 : BitVec 24).toNat <<< 8 ||| id.toNat := BitVec.toNat_append _ _
  simpa using happ

@[simp] theorem extId_idWord (id : Byte) : extId (idWord id) = id := by
  apply BitVec.eq_of_toNat_eq
  simpa [extId] using id.isLt

theorem extIdZero_eq_zero_iff (e : Word) : extIdZero e = 0 ↔ e.toNat < 256 := by
  rw [← BitVec.toNat_inj]
  simp only [extIdZero, BitVec.extractLsb'_toNat, Nat.shiftRight_eq_div_pow, BitVec.ofNat_eq_ofNat, BitVec.toNat_ofNat]
  omega

@[simp] theorem extIdZero_idWord (id : Byte) : extIdZero (idWord id) = 0 :=
  (extIdZero_eq_zero_iff _).2 (by simpa using id.isLt)

theorem idWord_extId {e : Word} (h : extIdZero e = 0) : idWord (extId e) = e := by
  have hlt : e.toNat < 256 := (extIdZero_eq_zero_iff e).1 h
  apply BitVec.eq_of_toNat_eq
  simpa [extId] using Nat.mod_eq_of_lt hlt

/-! ### Ext2 of UBX.SENDRECV (R92) -/

@[simp] theorem toNat_maxBodyWord (m : Half) : (maxBodyWord m).toNat = m.toNat := by
  have happ : (maxBodyWord m).toNat = (0 : Half).toNat <<< 16 ||| m.toNat := BitVec.toNat_append _ _
  simpa using happ

@[simp] theorem extMaxBody_maxBodyWord (m : Half) : extMaxBody (maxBodyWord m) = m := by
  apply BitVec.eq_of_toNat_eq
  simpa [extMaxBody] using m.isLt

theorem extMaxBodyZero_eq_zero_iff (e : Word) : extMaxBodyZero e = 0 ↔ e.toNat < 2 ^ 16 := by
  rw [← BitVec.toNat_inj]
  simp only [extMaxBodyZero, BitVec.extractLsb'_toNat, Nat.shiftRight_eq_div_pow, BitVec.ofNat_eq_ofNat,
    BitVec.toNat_ofNat]
  omega

@[simp] theorem extMaxBodyZero_maxBodyWord (m : Half) : extMaxBodyZero (maxBodyWord m) = 0 :=
  (extMaxBodyZero_eq_zero_iff _).2 (by simpa using m.isLt)

theorem maxBodyWord_extMaxBody {e : Word} (h : extMaxBodyZero e = 0) : maxBodyWord (extMaxBody e) = e := by
  have hlt : e.toNat < 2 ^ 16 := (extMaxBodyZero_eq_zero_iff e).1 h
  apply BitVec.eq_of_toNat_eq
  simpa [extMaxBody] using Nat.mod_eq_of_lt hlt

/-! ### Ext1 of UBX.SENDRECV (R92) -/

@[simp] theorem extId_expectWord (id : Byte) (c i : Option Byte) : extId (expectWord id c i) = id := by
  apply BitVec.eq_of_getLsbD_eq
  intro k hk
  simp [extId, getLsbD_expectWord, hk]

@[simp] theorem extClass8_expectWord (id : Byte) (c i : Option Byte) : extClass8 (expectWord id c i) = c.getD 0 := by
  apply BitVec.eq_of_getLsbD_eq
  intro k hk
  simp [extClass8, getLsbD_expectWord, hk, show 8 + k < 16 by omega]

@[simp] theorem extId8_expectWord (id : Byte) (c i : Option Byte) : extId8 (expectWord id c i) = i.getD 0 := by
  apply BitVec.eq_of_getLsbD_eq
  intro k hk
  simp [extId8, getLsbD_expectWord, hk, show ¬ 16 + k < 8 by omega, show 16 + k < 24 by omega]

@[simp] theorem extAnyClass_expectWord (id : Byte) (c i : Option Byte) :
    extAnyClass (expectWord id c i) = c.isNone := by
  rw [extAnyClass, getLsbD_expectWord]
  simp

@[simp] theorem extAnyId_expectWord (id : Byte) (c i : Option Byte) : extAnyId (expectWord id c i) = i.isNone := by
  rw [extAnyId, getLsbD_expectWord]
  simp

@[simp] theorem extExpectZero_expectWord (id : Byte) (c i : Option Byte) : extExpectZero (expectWord id c i) = 0 := by
  apply BitVec.eq_of_getLsbD_eq
  intro k hk
  simp [extExpectZero, getLsbD_expectWord, show ¬ 26 + k < 8 by omega, show ¬ 26 + k < 16 by omega,
    show ¬ 26 + k < 24 by omega, show ¬ 26 + k < 25 by omega]

theorem extExpectZero_eq_zero_iff (e : Word) : extExpectZero e = 0 ↔ e.toNat < 2 ^ 26 := by
  rw [← BitVec.toNat_inj]
  simp only [extExpectZero, BitVec.extractLsb'_toNat, Nat.shiftRight_eq_div_pow, BitVec.ofNat_eq_ofNat,
    BitVec.toNat_ofNat]
  omega

/-- A value field with its any bit is an expectation exactly as the encoder spells that expectation. -/
theorem expectField_eq_some_iff (any : Bool) (v : Byte) (x : Option Byte) :
    expectField any v = some x ↔ any = x.isNone ∧ v = x.getD 0 := by
  cases any <;> cases x <;> simp [expectField]

theorem expectField_eq_none_iff (any : Bool) (v : Byte) : expectField any v = none ↔ any = true ∧ v ≠ 0 := by
  cases any <;> simp [expectField]

@[simp] theorem expectField_encoded (x : Option Byte) : expectField x.isNone (x.getD 0#8) = some x :=
  (expectField_eq_some_iff _ _ _).2 ⟨rfl, rfl⟩

/-- Ext1 of UBX.SENDRECV is its three bytes and two any bits, when the bits above them are zero. -/
theorem expectWord_fields {e : Word} {c i : Option Byte} (hz : extExpectZero e = 0)
    (hc : expectField (extAnyClass e) (extClass8 e) = some c) (hi : expectField (extAnyId e) (extId8 e) = some i) :
    expectWord (extId e) c i = e := by
  obtain ⟨hanyc, hcls⟩ := (expectField_eq_some_iff _ _ _).1 hc
  obtain ⟨hanyi, hid⟩ := (expectField_eq_some_iff _ _ _).1 hi
  apply BitVec.eq_of_getLsbD_eq
  intro k hk
  rw [getLsbD_expectWord, ← hanyc, ← hcls, ← hanyi, ← hid]
  simp only [extId, extClass8, extId8, extAnyClass, extAnyId, BitVec.getLsbD_extractLsb']
  by_cases h8 : k < 8
  · simp [h8]
  by_cases h16 : k < 16
  · simp [h8, h16, show k - 8 < 8 by omega, show 8 + (k - 8) = k by omega]
  by_cases h24 : k < 24
  · simp [h8, h16, h24, show k - 16 < 8 by omega, show 16 + (k - 16) = k by omega]
  by_cases h25 : k < 25
  · simp [show k = 24 by omega]
  by_cases h26 : k < 26
  · simp [show k = 25 by omega]
  · have hbit : (extExpectZero e).getLsbD (k - 26) = false := by simp [hz]
    simpa [extExpectZero, h8, h16, h24, h25, h26, show k - 26 < 6 by omega, show 26 + (k - 26) = k by omega]
      using hbit.symm

/-! ### Operands with a restricted range (R91) -/

theorem boolOfByte_eq_some_iff (h : Byte) (b : Bool) : boolOfByte h = some b ↔ h = byteOfBool b := by
  unfold boolOfByte
  split
  · next h0 => subst h0; cases b <;> decide
  split
  · next h1 => subst h1; cases b <;> decide
  · next h0 h1 =>
    cases b with
    | false => simpa [byteOfBool] using h0
    | true => simpa [byteOfBool] using h1

theorem boolOfHalf_eq_some_iff (n : Half) (b : Bool) : boolOfHalf n = some b ↔ n = halfOfBool b := by
  unfold boolOfHalf
  split
  · next h0 => subst h0; cases b <;> decide
  split
  · next h1 => subst h1; cases b <;> decide
  · next h0 h1 =>
    cases b with
    | false => simpa [halfOfBool] using h0
    | true => simpa [halfOfBool] using h1

theorem pumpOfByte_eq_some_iff (h : Byte) (m : PumpMode) : pumpOfByte h = some m ↔ h = byteOfPump m := by
  unfold pumpOfByte
  split
  · next h0 => subst h0; cases m <;> decide
  split
  · next h1 => subst h1; cases m <;> decide
  split
  · next h2 => subst h2; cases m <;> decide
  · next h0 h1 h2 =>
    cases m with
    | off => simpa [byteOfPump] using h0
    | add => simpa [byteOfPump] using h1
    | forceAdd => simpa [byteOfPump] using h2

theorem boolOfByte_eq_none {h : Byte} (hh : 1 < h.toNat) : boolOfByte h = none := by
  refine Option.eq_none_iff_forall_ne_some.2 fun b hb => ?_
  rw [(boolOfByte_eq_some_iff h b).1 hb] at hh
  cases b <;> exact absurd hh (by decide)

theorem boolOfHalf_eq_none {n : Half} (hn : 1 < n.toNat) : boolOfHalf n = none := by
  refine Option.eq_none_iff_forall_ne_some.2 fun b hb => ?_
  rw [(boolOfHalf_eq_some_iff n b).1 hb] at hn
  cases b <;> exact absurd hn (by decide)

theorem pumpOfByte_eq_none {h : Byte} (hh : 2 < h.toNat) : pumpOfByte h = none := by
  refine Option.eq_none_iff_forall_ne_some.2 fun m hm => ?_
  rw [(pumpOfByte_eq_some_iff h m).1 hm] at hh
  cases m <;> exact absurd hh (by decide)

@[simp] theorem boolOfByte_byteOfBool (b : Bool) : boolOfByte (byteOfBool b) = some b :=
  (boolOfByte_eq_some_iff _ _).2 rfl

@[simp] theorem boolOfHalf_halfOfBool (b : Bool) : boolOfHalf (halfOfBool b) = some b :=
  (boolOfHalf_eq_some_iff _ _).2 rfl

@[simp] theorem pumpOfByte_byteOfPump (m : PumpMode) : pumpOfByte (byteOfPump m) = some m :=
  (pumpOfByte_eq_some_iff _ _).2 rfl

/-! ### The data-in stream (R93) -/

theorem toNat_lengthField {d : List Byte} (hd : d.length < 65536) : (lengthField d).toNat = d.length := by
  simpa [lengthField] using hd

theorem lengthField_eq {d : List Byte} {n : Half} (h : d.length = n.toNat) : lengthField d = n := by
  apply BitVec.eq_of_toNat_eq
  rw [toNat_lengthField (h ▸ n.isLt), h]

theorem encode_input (i : Instr) : (encode i).input = i.dataIn := by
  cases i <;> rfl

theorem wellFormed_iff (i : Instr) : i.wellFormed = true ↔ (encode i).input.length < 65536 := by
  rw [encode_input, Instr.wellFormed, decide_eq_true_iff]

end Sys2Proof
end

section
/-!
The decoder after the encoder: each format reads a command word, and the extension words and bytes behind it, as
the encoder writes them (30_encoding.md R90 to R93).
-/

namespace Sys2Proof

variable {op h cls id : Byte} {n m : Half} {t : Word} {c x : Option Byte} {i : Instr} {d : List Byte}
  {ws : List Word} {input : List Byte}

@[simp] theorem decode_cons (w : Word) (ws : List Word) (input : List Byte) :
    decode (w :: ws) input = decodeOp w ws input := rfl

theorem receive_lengthField {mk : List Byte → Instr} (hd : d.length < 65536) :
    receive (lengthField d) ws (d ++ input) mk = .command (mk d) ws input := by
  simp [receive, toNat_lengthField hd]

theorem formatZ_commandWord : formatZ (commandWord op 0 0) ws input i = .command i ws input := by
  simp [formatZ]

theorem formatH_commandWord {mk : Byte → Option Instr} (hmk : mk h = some i) :
    formatH (commandWord op h 0) ws input mk = .command i ws input := by
  simp [formatH, hmk]

theorem formatN_commandWord {mk : Half → Instr} :
    formatN (commandWord op 0 n) ws input mk = .command (mk n) ws input := by
  simp [formatN]

theorem formatNIn_commandWord {mk : List Byte → Instr} (hd : d.length < 65536) :
    formatNIn (commandWord op 0 (lengthField d)) ws (d ++ input) mk = .command (mk d) ws input := by
  simp [formatNIn, receive_lengthField hd]

theorem formatHN_commandWord {mk : Byte → Half → Option Instr} (hmk : mk h n = some i) :
    formatHN (commandWord op h n) ws input mk = .command i ws input := by
  simp [formatHN, hmk]

theorem formatHNIn_commandWord {mk : Byte → List Byte → Instr} (hd : d.length < 65536) :
    formatHNIn (commandWord op h (lengthField d)) ws (d ++ input) mk = .command (mk h d) ws input := by
  simp [formatHNIn, receive_lengthField hd]

theorem formatX1_commandWord {mk : Byte → Byte → List Byte → Instr} (hd : d.length < 65536) :
    formatX1 (commandWord op cls (lengthField d)) (idWord id :: ws) (d ++ input) mk =
      .command (mk cls id d) ws input := by
  simp [formatX1, receive_lengthField hd]

theorem formatX2_commandWord {mk : Byte → Byte → Word → List Byte → Instr} (hd : d.length < 65536) :
    formatX2 (commandWord op cls (lengthField d)) (idWord id :: t :: ws) (d ++ input) mk =
      .command (mk cls id t d) ws input := by
  simp [formatX2, receive_lengthField hd]

theorem formatX3_commandWord {mk : Byte → Byte → Option Byte → Option Byte → Half → Word → List Byte → Instr}
    (hd : d.length < 65536) :
    formatX3 (commandWord op cls (lengthField d)) (expectWord id c x :: maxBodyWord m :: t :: ws) (d ++ input) mk =
      .command (mk cls id c x m t d) ws input := by
  simp [formatX3, receive_lengthField hd]

/-- Settles O1: each opcode is read in the format the encoder wrote it in, one case for each format. -/
theorem decodeOfEncode : Obligations.DecodeOfEncode := by
  intro i words input hwf
  have hd : (encode i).input.length < 65536 := (wellFormed_iff i).1 hwf
  cases i with
  | rbDestroy | rbTake | rbAvail | rbAvailmax | rbStatadd | edmReady | edmReset | edmEvent | edmEnctail | uartAvail =>
    simpa [encode, decodeOp] using formatZ_commandWord
  | rbSetrhr | rbGive | rbLock | rbUnlock | rbStatread | edmParse | linkPump =>
    simpa [encode, decodeOp] using formatH_commandWord (by simp)
  | rbCreate | rbRead | rbPeek | edmEvdata | uartRead =>
    simpa [encode, decodeOp] using formatN_commandWord
  | rbAdd | rbFadd | edmEncatreq | edmEncatrsp | ubxDecode | uartWrite =>
    simpa [encode, decodeOp] using formatNIn_commandWord hd
  | rbCreateh | rbReadh | rbPeekh | edmEnchead | linkDrain =>
    simpa [encode, decodeOp] using formatHN_commandWord (by simp)
  | edmEncdata => simpa [encode, decodeOp] using formatHNIn_commandWord hd
  | ubxEncode => simpa [encode, decodeOp] using formatX1_commandWord hd
  | ubxSendonly => simpa [encode, decodeOp] using formatX2_commandWord hd
  | ubxSendrecv => simpa [encode, decodeOp] using formatX3_commandWord hd

end Sys2Proof
end

section
/-!
The opcode table (30_encoding.md R91, R96): its rows, one for each opcode, and the rows a command word matches.
-/

namespace Sys2Proof

/-- A command word matches a command's row of the table: its bits under the row's mask are the row's fixed bits. -/
def Instr.Matches (i : Instr) (w : Word) : Prop := w &&& i.row.mask = i.row.fixed

/-- Every command is encoded as its row of the table says. -/
theorem tableRow (i : Instr) : Laws.TableRow.Statement i :=
  match i with
  | .rbCreate _ => Laws.TableRow.rbCreate _
  | .rbCreateh _ _ => Laws.TableRow.rbCreateh _ _
  | .rbDestroy => Laws.TableRow.rbDestroy
  | .rbSetrhr _ => Laws.TableRow.rbSetrhr _
  | .rbTake => Laws.TableRow.rbTake
  | .rbGive _ => Laws.TableRow.rbGive _
  | .rbLock _ => Laws.TableRow.rbLock _
  | .rbUnlock _ => Laws.TableRow.rbUnlock _
  | .rbAdd _ => Laws.TableRow.rbAdd _
  | .rbFadd _ => Laws.TableRow.rbFadd _
  | .rbRead _ => Laws.TableRow.rbRead _
  | .rbPeek _ => Laws.TableRow.rbPeek _
  | .rbReadh _ _ => Laws.TableRow.rbReadh _ _
  | .rbPeekh _ _ => Laws.TableRow.rbPeekh _ _
  | .rbAvail => Laws.TableRow.rbAvail
  | .rbAvailmax => Laws.TableRow.rbAvailmax
  | .rbStatadd => Laws.TableRow.rbStatadd
  | .rbStatread _ => Laws.TableRow.rbStatread _
  | .edmParse _ => Laws.TableRow.edmParse _
  | .edmReady => Laws.TableRow.edmReady
  | .edmReset => Laws.TableRow.edmReset
  | .edmEvdata _ => Laws.TableRow.edmEvdata _
  | .edmEvent => Laws.TableRow.edmEvent
  | .edmEncdata _ _ => Laws.TableRow.edmEncdata _ _
  | .edmEnchead _ _ => Laws.TableRow.edmEnchead _ _
  | .edmEnctail => Laws.TableRow.edmEnctail
  | .edmEncatreq _ => Laws.TableRow.edmEncatreq _
  | .edmEncatrsp _ => Laws.TableRow.edmEncatrsp _
  | .ubxEncode _ _ _ => Laws.TableRow.ubxEncode _ _ _
  | .ubxDecode _ => Laws.TableRow.ubxDecode _
  | .ubxSendrecv _ _ _ _ _ _ _ => Laws.TableRow.ubxSendrecv _ _ _ _ _ _ _
  | .ubxSendonly _ _ _ _ => Laws.TableRow.ubxSendonly _ _ _ _
  | .uartWrite _ => Laws.TableRow.uartWrite _
  | .uartAvail => Laws.TableRow.uartAvail
  | .uartRead _ => Laws.TableRow.uartRead _
  | .linkPump _ => Laws.TableRow.linkPump _
  | .linkDrain _ _ => Laws.TableRow.linkDrain _ _

/-- The command word of an encoding matches the command's row. -/
theorem matches_of_encode {i : Instr} {w : Word} {ext : List Word} {d : List Byte} (h : encode i = ⟨w :: ext, d⟩) :
    i.Matches w :=
  (tableRow i).2 w (by simp [h])

/-- The first word of a stream that begins with an encoding matches the command's row. -/
theorem matches_of_words {i : Instr} {w : Word} {ws rest : List Word} (h : w :: ws = (encode i).words ++ rest) :
    i.Matches w := by
  obtain ⟨hlength, hmatches⟩ := tableRow i
  cases hwords : (encode i).words with
  | nil => rw [hwords, List.length_nil] at hlength; omega
  | cons v ext =>
    rw [hwords] at h
    obtain ⟨rfl, -⟩ := List.cons.inj h
    exact hmatches w (by simp [hwords])

/-! ### One row for each opcode -/

/-- The table, read off one command for each row. -/
def tableRows : List Row :=
  ([.rbCreate 0, .rbCreateh 0 0, .rbDestroy, .rbSetrhr false, .rbTake, .rbGive 0, .rbLock 0, .rbUnlock 0, .rbAdd [],
    .rbFadd [], .rbRead 0, .rbPeek 0, .rbReadh 0 0, .rbPeekh 0 0, .rbAvail, .rbAvailmax, .rbStatadd, .rbStatread 0,
    .edmParse 0, .edmReady, .edmReset, .edmEvdata 0, .edmEvent, .edmEncdata 0 [], .edmEnchead 0 0, .edmEnctail,
    .edmEncatreq [], .edmEncatrsp [], .ubxEncode 0 0 [], .ubxDecode [], .ubxSendrecv 0 0 none none 0 0 [],
    .ubxSendonly 0 0 0 [], .uartWrite [], .uartAvail, .uartRead 0, .linkPump .off, .linkDrain 0 false] :
      List Instr).map Instr.row

theorem row_mem_tableRows (i : Instr) : i.row ∈ tableRows := by
  cases i <;> simp [tableRows, Instr.row]

/-- Every row's mask holds the whole opcode field. -/
theorem opField_mask_of_mem : ∀ r ∈ tableRows, opField r.mask = BitVec.allOnes 8 := by decide

/-- No two rows have the same opcode. -/
theorem nodup_tableRows_opcodes : (tableRows.map fun r => opField r.fixed).Nodup := by decide

/-- A word that matches a row has the row's opcode. -/
theorem opField_of_matches {i : Instr} {w : Word} (h : i.Matches w) : opField w = opField i.row.fixed := by
  have hand : opField (w &&& i.row.mask) = opField w &&& opField i.row.mask := by
    simp [opField, BitVec.extractLsb'_and]
  rw [← show w &&& i.row.mask = i.row.fixed from h, hand, opField_mask_of_mem _ (row_mem_tableRows i),
    BitVec.and_allOnes]

theorem row_eq_of_matches {i j : Instr} {w : Word} (hi : i.Matches w) (hj : j.Matches w) : i.row = j.row :=
  List.inj_on_of_nodup_map nodup_tableRows_opcodes (row_mem_tableRows i) (row_mem_tableRows j)
    ((opField_of_matches hi).symm.trans (opField_of_matches hj))

end Sys2Proof
end

section
/-!
What each answer of the decoder says of the streams it was given (30_encoding.md R90 to R93, R99): a command is read
from its own encoding, and a word that gives no command either is taken off alone or has the opcode, the fixed bits
and the announced length of a row of the table.
-/

namespace Sys2Proof

/-- What the decoder's answer on a word, the words after it and the data-in bytes says of them. -/
def Decoded.FaithfulTo (w : Word) (ws : List Word) (input : List Byte) : Decoded → Prop
  | .command i words' input' =>
    i.wellFormed = true ∧ w :: ws = (encode i).words ++ words' ∧ input = (encode i).input ++ input'
  | .illegal _ words' => words' = ws ∨ ∃ i : Instr, i.Matches w
  | .waiting _ => ∃ i : Instr, i.Matches w

variable {op : Byte} {w : Word} {ws : List Word} {input : List Byte} {i : Instr}

/-- A word with a given opcode is the command word of its fields. -/
theorem eq_commandWord (hop : (opField w).toNat = op.toNat) : w = commandWord op (hField w) (nField w) := by
  rw [← BitVec.eq_of_toNat_eq hop, commandWord_fields]

/-- A command that takes no data-in is faithful when its encoding is the words that were read. -/
theorem command_faithfulTo (henc : encode i = ⟨[w], []⟩) : (Decoded.command i ws input).FaithfulTo w ws input :=
  ⟨(wellFormed_iff i).2 (by simp [henc]), by simp [henc], by simp [henc]⟩

/-- Some command that announces the length in `w` has `w` for its command word. -/
theorem exists_matches_of_receive {n : Half} {mk : List Byte → Instr} {cmd : Half → Word} {ext : List Word}
    (henc : ∀ d, encode (mk d) = ⟨cmd (lengthField d) :: ext, d⟩) (hw : w = cmd n) : ∃ i : Instr, i.Matches w := by
  refine ⟨mk (List.replicate n.toNat 0), matches_of_encode (ext := ext) (d := List.replicate n.toNat 0) ?_⟩
  rw [henc, lengthField_eq List.length_replicate, hw]

theorem receive_faithfulTo {n : Half} {mk : List Byte → Instr} {cmd : Half → Word} {ext rest : List Word}
    (henc : ∀ d, encode (mk d) = ⟨cmd (lengthField d) :: ext, d⟩) (hw : w = cmd n) :
    (receive n rest input mk).FaithfulTo w (ext ++ rest) input := by
  unfold receive
  split
  · exact exists_matches_of_receive henc hw
  · next hlen =>
    have htake : (input.take n.toNat).length = n.toNat := by simp; omega
    have hcmd : encode (mk (input.take n.toNat)) = ⟨w :: ext, input.take n.toNat⟩ := by
      rw [henc, lengthField_eq htake, hw]
    refine ⟨(wellFormed_iff _).2 ?_, by simp [hcmd], by simp [hcmd]⟩
    rw [hcmd]; exact htake.trans_lt n.isLt

/-! ### Formats -/

theorem formatZ_faithfulTo (henc : encode i = ⟨[commandWord op 0 0], []⟩) (hop : (opField w).toNat = op.toNat) :
    (formatZ w ws input i).FaithfulTo w ws input := by
  unfold formatZ
  split
  · next hz =>
    obtain ⟨hh, hn⟩ := hz
    exact command_faithfulTo (by rw [henc, eq_commandWord hop, hh, hn])
  · exact .inl rfl

theorem formatH_faithfulTo {mk : Byte → Option Instr}
    (henc : ∀ h i, mk h = some i → encode i = ⟨[commandWord op h 0], []⟩) (hop : (opField w).toNat = op.toNat) :
    (formatH w ws input mk).FaithfulTo w ws input := by
  unfold formatH
  split
  · next hn =>
    split
    · next i hmk => exact command_faithfulTo (by rw [henc _ _ hmk, eq_commandWord hop, hn]; simp)
    · exact .inl rfl
  · exact .inl rfl

/-- Format H when every value of `h` is in range. -/
theorem formatH_some_faithfulTo {mk : Byte → Instr} (henc : ∀ h, encode (mk h) = ⟨[commandWord op h 0], []⟩)
    (hop : (opField w).toNat = op.toNat) : (formatH w ws input fun h => some (mk h)).FaithfulTo w ws input :=
  formatH_faithfulTo (fun h _ hmk => Option.some.inj hmk ▸ henc h) hop

theorem formatN_faithfulTo {mk : Half → Instr} (henc : ∀ n, encode (mk n) = ⟨[commandWord op 0 n], []⟩)
    (hop : (opField w).toNat = op.toNat) : (formatN w ws input mk).FaithfulTo w ws input := by
  unfold formatN
  split
  · next hh => exact command_faithfulTo (by rw [henc, ← hh, ← eq_commandWord hop])
  · exact .inl rfl

theorem formatNIn_faithfulTo {mk : List Byte → Instr}
    (henc : ∀ d, encode (mk d) = ⟨[commandWord op 0 (lengthField d)], d⟩) (hop : (opField w).toNat = op.toNat) :
    (formatNIn w ws input mk).FaithfulTo w ws input := by
  unfold formatNIn
  split
  · next hh => exact receive_faithfulTo henc (by rw [← hh, ← eq_commandWord hop])
  · exact .inl rfl

theorem formatHN_faithfulTo {mk : Byte → Half → Option Instr}
    (henc : ∀ h n i, mk h n = some i → encode i = ⟨[commandWord op h n], []⟩) (hop : (opField w).toNat = op.toNat) :
    (formatHN w ws input mk).FaithfulTo w ws input := by
  unfold formatHN
  split
  · next i hmk => exact command_faithfulTo (by rw [henc _ _ _ hmk, ← eq_commandWord hop])
  · exact .inl rfl

/-- Format HN when every value of `n` is in range. -/
theorem formatHN_some_faithfulTo {mk : Byte → Half → Instr}
    (henc : ∀ h n, encode (mk h n) = ⟨[commandWord op h n], []⟩) (hop : (opField w).toNat = op.toNat) :
    (formatHN w ws input fun h n => some (mk h n)).FaithfulTo w ws input :=
  formatHN_faithfulTo (fun h n _ hmk => Option.some.inj hmk ▸ henc h n) hop

theorem formatHNIn_faithfulTo {mk : Byte → List Byte → Instr}
    (henc : ∀ h d, encode (mk h d) = ⟨[commandWord op h (lengthField d)], d⟩) (hop : (opField w).toNat = op.toNat) :
    (formatHNIn w ws input mk).FaithfulTo w ws input :=
  receive_faithfulTo (henc _) (eq_commandWord hop)

theorem formatX1_faithfulTo {mk : Byte → Byte → List Byte → Instr}
    (henc : ∀ c id d, encode (mk c id d) = ⟨[commandWord op c (lengthField d), idWord id], d⟩)
    (hop : (opField w).toNat = op.toNat) : (formatX1 w ws input mk).FaithfulTo w ws input := by
  have hmatch : ∃ i : Instr, i.Matches w := exists_matches_of_receive (henc _ 0) (eq_commandWord hop)
  unfold formatX1
  split
  · next e1 rest =>
    split
    · next hz =>
      have hfaithful := receive_faithfulTo (rest := rest) (input := input) (henc _ (extId e1)) (eq_commandWord hop)
      rwa [idWord_extId hz] at hfaithful
    · exact .inr hmatch
  · exact hmatch

theorem formatX2_faithfulTo {mk : Byte → Byte → Word → List Byte → Instr}
    (henc : ∀ c id t d, encode (mk c id t d) = ⟨[commandWord op c (lengthField d), idWord id, t], d⟩)
    (hop : (opField w).toNat = op.toNat) : (formatX2 w ws input mk).FaithfulTo w ws input := by
  have hmatch : ∃ i : Instr, i.Matches w := exists_matches_of_receive (henc _ 0 0) (eq_commandWord hop)
  unfold formatX2
  split
  · next e1 e2 rest =>
    split
    · next hz =>
      have hfaithful := receive_faithfulTo (rest := rest) (input := input) (henc _ (extId e1) e2) (eq_commandWord hop)
      rwa [idWord_extId hz] at hfaithful
    · exact .inr hmatch
  · exact hmatch

theorem formatX3_faithfulTo {mk : Byte → Byte → Option Byte → Option Byte → Half → Word → List Byte → Instr}
    (henc : ∀ c id ec ei m t d, encode (mk c id ec ei m t d) =
      ⟨[commandWord op c (lengthField d), expectWord id ec ei, maxBodyWord m, t], d⟩)
    (hop : (opField w).toNat = op.toNat) : (formatX3 w ws input mk).FaithfulTo w ws input := by
  have hmatch : ∃ i : Instr, i.Matches w :=
    exists_matches_of_receive (henc _ 0 none none 0 0) (eq_commandWord hop)
  unfold formatX3
  split
  · next e1 e2 e3 rest =>
    split
    · next hz =>
      obtain ⟨hexpect, hmaxBody⟩ := hz
      split
      · next ec ei hec hei =>
        have hfaithful := receive_faithfulTo (rest := rest) (input := input)
          (henc _ (extId e1) ec ei (extMaxBody e2) e3) (eq_commandWord hop)
        rwa [expectWord_fields hexpect hec hei, maxBodyWord_extMaxBody hmaxBody] at hfaithful
      · exact .inr hmatch
    · exact .inr hmatch
  · exact hmatch

/-! ### The decoder -/

/-- A restricted operand in range is the one its command is encoded with. -/
theorem encode_rbSetrhr_of_boolOfByte (h : Byte) (i : Instr) (hmk : (boolOfByte h).map .rbSetrhr = some i) :
    encode i = ⟨[commandWord 0x04 h 0], []⟩ := by
  obtain ⟨b, hb, rfl⟩ := Option.map_eq_some_iff.1 hmk
  rw [(boolOfByte_eq_some_iff h b).1 hb, encode]

theorem encode_linkPump_of_pumpOfByte (h : Byte) (i : Instr) (hmk : (pumpOfByte h).map .linkPump = some i) :
    encode i = ⟨[commandWord 0x73 h 0], []⟩ := by
  obtain ⟨m, hm, rfl⟩ := Option.map_eq_some_iff.1 hmk
  rw [(pumpOfByte_eq_some_iff h m).1 hm, encode]

theorem encode_linkDrain_of_boolOfHalf (h : Byte) (n : Half) (i : Instr)
    (hmk : (boolOfHalf n).map (.linkDrain h) = some i) : encode i = ⟨[commandWord 0x74 h n], []⟩ := by
  obtain ⟨b, hb, rfl⟩ := Option.map_eq_some_iff.1 hmk
  rw [(boolOfHalf_eq_some_iff n b).1 hb, encode]

theorem decodeOp_faithfulTo (w : Word) (ws : List Word) (input : List Byte) :
    (decodeOp w ws input).FaithfulTo w ws input := by
  unfold decodeOp
  split
  · next hop => exact formatN_faithfulTo (mk := .rbCreate) (fun _ => rfl) hop
  · next hop => exact formatHN_some_faithfulTo (mk := .rbCreateh) (fun _ _ => rfl) hop
  · next hop => exact formatZ_faithfulTo (i := .rbDestroy) rfl hop
  · next hop => exact formatH_faithfulTo encode_rbSetrhr_of_boolOfByte hop
  · next hop => exact formatZ_faithfulTo (i := .rbTake) rfl hop
  · next hop => exact formatH_some_faithfulTo (mk := .rbGive) (fun _ => rfl) hop
  · next hop => exact formatH_some_faithfulTo (mk := .rbLock) (fun _ => rfl) hop
  · next hop => exact formatH_some_faithfulTo (mk := .rbUnlock) (fun _ => rfl) hop
  · next hop => exact formatNIn_faithfulTo (mk := .rbAdd) (fun _ => rfl) hop
  · next hop => exact formatNIn_faithfulTo (mk := .rbFadd) (fun _ => rfl) hop
  · next hop => exact formatN_faithfulTo (mk := .rbRead) (fun _ => rfl) hop
  · next hop => exact formatN_faithfulTo (mk := .rbPeek) (fun _ => rfl) hop
  · next hop => exact formatHN_some_faithfulTo (mk := .rbReadh) (fun _ _ => rfl) hop
  · next hop => exact formatHN_some_faithfulTo (mk := .rbPeekh) (fun _ _ => rfl) hop
  · next hop => exact formatZ_faithfulTo (i := .rbAvail) rfl hop
  · next hop => exact formatZ_faithfulTo (i := .rbAvailmax) rfl hop
  · next hop => exact formatZ_faithfulTo (i := .rbStatadd) rfl hop
  · next hop => exact formatH_some_faithfulTo (mk := .rbStatread) (fun _ => rfl) hop
  · next hop => exact formatH_some_faithfulTo (mk := .edmParse) (fun _ => rfl) hop
  · next hop => exact formatZ_faithfulTo (i := .edmReady) rfl hop
  · next hop => exact formatZ_faithfulTo (i := .edmReset) rfl hop
  · next hop => exact formatN_faithfulTo (mk := .edmEvdata) (fun _ => rfl) hop
  · next hop => exact formatZ_faithfulTo (i := .edmEvent) rfl hop
  · next hop => exact formatHNIn_faithfulTo (mk := .edmEncdata) (fun _ _ => rfl) hop
  · next hop => exact formatHN_some_faithfulTo (mk := .edmEnchead) (fun _ _ => rfl) hop
  · next hop => exact formatZ_faithfulTo (i := .edmEnctail) rfl hop
  · next hop => exact formatNIn_faithfulTo (mk := .edmEncatreq) (fun _ => rfl) hop
  · next hop => exact formatNIn_faithfulTo (mk := .edmEncatrsp) (fun _ => rfl) hop
  · next hop => exact formatX1_faithfulTo (mk := .ubxEncode) (fun _ _ _ => rfl) hop
  · next hop => exact formatNIn_faithfulTo (mk := .ubxDecode) (fun _ => rfl) hop
  · next hop => exact formatX3_faithfulTo (mk := .ubxSendrecv) (fun _ _ _ _ _ _ _ => rfl) hop
  · next hop => exact formatX2_faithfulTo (mk := .ubxSendonly) (fun _ _ _ _ => rfl) hop
  · next hop => exact formatNIn_faithfulTo (mk := .uartWrite) (fun _ => rfl) hop
  · next hop => exact formatZ_faithfulTo (i := .uartAvail) rfl hop
  · next hop => exact formatN_faithfulTo (mk := .uartRead) (fun _ => rfl) hop
  · next hop => exact formatH_faithfulTo encode_linkPump_of_pumpOfByte hop
  · next hop => exact formatHN_faithfulTo encode_linkDrain_of_boolOfHalf hop
  · exact .inl rfl

/-- Settles O2: the decoder's answer is faithful to the streams. -/
theorem encodeOfDecode : Obligations.EncodeOfDecode := by
  intro words words' input input' i hdecode
  cases words with
  | nil => cases hdecode
  | cons w ws =>
    have hfaithful := decodeOp_faithfulTo w ws input
    rw [← decode_cons, hdecode] at hfaithful
    exact hfaithful

/-- Settles O4: the opcode picks the row, and the decoder answers a word of no row only by taking it off alone. -/
theorem wordMatchesOneRowOrIsIllegal : Obligations.WordMatchesOneRowOrIsIllegal := by
  intro w
  refine ⟨fun i j => row_eq_of_matches, fun hnone words input => ?_⟩
  have hfaithful := decodeOp_faithfulTo w words input
  rw [decode_cons]
  cases hanswer : decodeOp w words input with rw [hanswer] at hfaithful
  | command i words' input' =>
    obtain ⟨-, hwords, -⟩ := hfaithful
    exact absurd (matches_of_words hwords) (hnone i)
  | illegal why words' =>
    obtain rfl | ⟨i, hi⟩ := hfaithful
    · exact ⟨why, rfl⟩
    · exact absurd hi (hnone i)
  | waiting what =>
    obtain ⟨i, hi⟩ := hfaithful
    exact absurd hi (hnone i)

end Sys2Proof
end

section
/-!
Operands and extension fields outside their range (30_encoding.md R91, R92, R99): the check each format makes, and
what the format answers when it fails.
-/

namespace Sys2Proof

variable {w : Word} {ws : List Word} {input : List Byte}

theorem formatH_of_none {mk : Byte → Option Instr} (hn : nField w = 0) (hmk : mk (hField w) = none) :
    formatH w ws input mk = .illegal .operandOutOfRange ws := by
  simp only [formatH, hn, hmk, if_true]

theorem formatHN_of_none {mk : Byte → Half → Option Instr} (hmk : mk (hField w) (nField w) = none) :
    formatHN w ws input mk = .illegal .operandOutOfRange ws := by
  simp only [formatHN, hmk]

theorem formatX1_of_nonzero {mk : Byte → Byte → List Byte → Instr} {e1 : Word} (he : 256 ≤ e1.toNat) :
    formatX1 w (e1 :: ws) input mk = .illegal .nonzeroExtensionField ws := by
  have hne : extIdZero e1 ≠ 0 := fun hz => absurd ((extIdZero_eq_zero_iff e1).1 hz) (by omega)
  simp only [formatX1, if_neg hne]

theorem formatX2_of_nonzero {mk : Byte → Byte → Word → List Byte → Instr} {e1 e2 : Word} (he : 256 ≤ e1.toNat) :
    formatX2 w (e1 :: e2 :: ws) input mk = .illegal .nonzeroExtensionField ws := by
  have hne : extIdZero e1 ≠ 0 := fun hz => absurd ((extIdZero_eq_zero_iff e1).1 hz) (by omega)
  simp only [formatX2, if_neg hne]

section

variable {mk : Byte → Byte → Option Byte → Option Byte → Half → Word → List Byte → Instr} {e1 e2 e3 : Word}

theorem formatX3_of_nonzero (he : 2 ^ 26 ≤ e1.toNat ∨ 2 ^ 16 ≤ e2.toNat) :
    formatX3 w (e1 :: e2 :: e3 :: ws) input mk = .illegal .nonzeroExtensionField ws := by
  have hne : ¬ (extExpectZero e1 = 0 ∧ extMaxBodyZero e2 = 0) := by
    rw [extExpectZero_eq_zero_iff, extMaxBodyZero_eq_zero_iff]
    omega
  simp only [formatX3, if_neg hne]

theorem formatX3_of_wildcard (h1 : e1.toNat < 2 ^ 26) (h2 : e2.toNat < 2 ^ 16)
    (he : expectField (extAnyClass e1) (extClass8 e1) = none ∨ expectField (extAnyId e1) (extId8 e1) = none) :
    formatX3 w (e1 :: e2 :: e3 :: ws) input mk = .illegal .wildcardWithValue ws := by
  have hz : extExpectZero e1 = 0 ∧ extMaxBodyZero e2 = 0 :=
    ⟨(extExpectZero_eq_zero_iff e1).2 h1, (extMaxBodyZero_eq_zero_iff e2).2 h2⟩
  simp only [formatX3, if_pos hz]
  split
  · next hc hi => rw [hc, hi] at he; simp at he
  · rfl

end

/-- Settles O5: the opcode gives the format, and the format answers an operand or field out of range so. -/
theorem operandsOutsideTheirRangeAreIllegal : Obligations.OperandsOutsideTheirRangeAreIllegal := by
  intro words input h n e1 e2 e3
  refine ⟨fun hh => ?_, fun hh => ?_, fun hn => ?_, fun he => ⟨?_, ?_⟩, fun he => ?_, fun h1 h2 he => ?_⟩
  · simpa [decodeOp] using formatH_of_none (by simp) (by simp [boolOfByte_eq_none hh])
  · simpa [decodeOp] using formatH_of_none (by simp) (by simp [pumpOfByte_eq_none hh])
  · simpa [decodeOp] using formatHN_of_none (by simp [boolOfHalf_eq_none hn])
  · simpa [decodeOp] using formatX1_of_nonzero he
  · simpa [decodeOp] using formatX2_of_nonzero he
  · simpa [decodeOp] using formatX3_of_nonzero he
  · have hwild : expectField (extAnyClass e1) (extClass8 e1) = none ∨ expectField (extAnyId e1) (extId8 e1) = none :=
      he.imp (expectField_eq_none_iff _ _).2 (expectField_eq_none_iff _ _).2
    simpa [decodeOp] using formatX3_of_wildcard h1 h2 hwild

/-- Settles O3: the vectors are run through the decoder. -/
theorem vectorWordsDecode : Obligations.VectorWordsDecode := by
  unfold Obligations.VectorWordsDecode
  decide

end Sys2Proof
end

section
/-!
A command of the opcode table placed at the port (log entry 6): its streams have just the words and bytes its command
word announces (30_encoding.md R90), so the command read from them leaves nothing of them.
-/

namespace Sys2Proof

@[simp] theorem length_wordsFrom (w start k : Nat) : (wordsFrom w start k).length = k := by
  induction k generalizing start with
  | zero => rfl
  | succ k ih => simp [wordsFrom, ih]

@[simp] theorem length_bytesFrom (w start k : Nat) : (bytesFrom w start k).length = k := by
  induction k generalizing start with
  | zero => rfl
  | succ k ih => simp [bytesFrom, ih]

/-- A command has the extension words and the data-in bytes that its command word announces. -/
def Encoded.Announced (e : Encoded) : Prop :=
  ∃ w ext, e.words = w :: ext ∧ ext.length = extensionCount w ∧ e.input.length = inputCount w

theorem tableCommand_announced (nbits w : Nat) : (tableCommand nbits w).Announced :=
  ⟨_, _, rfl, length_wordsFrom _ _ _, length_bytesFrom _ _ _⟩

theorem encode_announced {i : Instr} (hwf : i.wellFormed = true) : (encode i).Announced := by
  have hd : (encode i).input.length < 65536 := (wellFormed_iff i).1 hwf
  cases i with
  | rbAdd | rbFadd | edmEncdata | edmEncatreq | edmEncatrsp | ubxEncode | ubxDecode | ubxSendrecv | ubxSendonly
  | uartWrite =>
    exact ⟨_, _, rfl, by simp [extensionCount], by simpa [encode, inputCount] using (toNat_lengthField hd).symm⟩
  | _ => exact ⟨_, _, rfl, by simp [extensionCount], by simp [encode, inputCount]⟩

/-- The command word fixes where a command ends: nothing follows one that is the front of another. -/
theorem Encoded.Announced.eq_nil_of_append {e e' : Encoded} {words : List Word} {input : List Byte} (h : e.Announced)
    (h' : e'.Announced) (hwords : e.words = e'.words ++ words) (hinput : e.input = e'.input ++ input) :
    words = [] ∧ input = [] := by
  obtain ⟨w, ext, hw, hext, hlen⟩ := h
  obtain ⟨w', ext', hw', hext', hlen'⟩ := h'
  rw [hw, hw', List.cons_append] at hwords
  obtain ⟨rfl, rfl⟩ := List.cons.inj hwords
  rw [List.length_append] at hext
  rw [hinput, List.length_append] at hlen
  exact ⟨List.length_eq_zero_iff.1 (by omega), List.length_eq_zero_iff.1 (by omega)⟩

theorem decode_tableCommand {nbits w : Nat} {i : Instr} (h : decodeTableWord nbits w = some i) :
    decode (tableCommand nbits w).words (tableCommand nbits w).input = .command i [] [] := by
  unfold decodeTableWord at h
  split at h
  · next j words input hdecode =>
    cases h
    obtain ⟨hwf, hwords, hinput⟩ := encodeOfDecode _ _ _ _ _ hdecode
    obtain ⟨rfl, rfl⟩ := (tableCommand_announced nbits w).eq_nil_of_append (encode_announced hwf) hwords hinput
    exact hdecode
  · cases h
  · cases h

end Sys2Proof

namespace Sys2Proof.Machine

open Host

/-- With a command placed at the port, the turn taken is the HOST's, and it adds nothing to the port. -/
theorem State.placeCommand_takes (s : State) (c : Encoded) :
    (s.placeCommand c).Takes s.hostTurn (s.consume c.words c.input) :=
  .inl ⟨s.env.agenda, rfl, by simp [State.placeCommand, State.consume, State.hostTurn]⟩

/-- Settles O10: the step is the HOST's, and the command it decodes takes the whole of the port's streams. -/
theorem placedWordRunsNext : Obligations.PlacedWordRunsNext := by
  intro s nbits w i h
  have htakes := s.placeCommand_takes (tableCommand nbits w)
  have hdecode : decode ((s.withFetchWord nbits w).env.words ++ []) ((s.withFetchWord nbits w).env.input ++ []) =
      .command i [] [] := by
    rw [List.append_nil, List.append_nil]
    exact decode_tableCommand h
  calc step (s.withFetchWord nbits w)
      = exec i ((s.consume (tableCommand nbits w).words (tableCommand nbits w).input).consume [] []) :=
        stepRunsDecodedCommand _ _ _ [] [] [] [] i htakes rfl hdecode
    _ = exec i (s.consume [] []) := rfl

/-- An illegal command at the front of the port is answered with ERR_INVALID_PARAMETER, and the data-in bytes stay
(R99). -/
theorem State.hostStep_of_illegal {s : State} {why : Illegal} {words : List Word}
    (h : decode s.env.words s.env.input = .illegal why words) :
    s.hostStep = .next ((s.consume words s.env.input).raise .invalidParameter) := by
  simp only [State.hostStep, h]

/-- Settles O7, from what the turn leaves at the port and what the HOST's step does with an illegal command there. -/
theorem illegalCommandAnswered : Obligations.IllegalCommandAnswered := by
  intro s u t more words bytes why htakes hagent hdecode
  obtain ⟨hpar, -, -, -, -, -, -, -, -, hinput⟩ := htakes.same
  have hport : decode (u.present more bytes).env.words (u.present more bytes).env.input = .illegal why words :=
    (decode_present_of_takes htakes more bytes).trans hdecode
  have hstep : step s = (u.present more bytes).hostStep := by rw [step_of_takes htakes, hagent]
  rw [hstep, State.hostStep_of_illegal hport, State.present_consume, State.present_env, hinput, ← hpar]
  rfl

end Sys2Proof.Machine
end

section
/-!
Creation, destruction, handles and locks of the ring buffer (40_rb_lifecycle.md): what each command answers and
leaves, one equation per command or per outcome, and what the buffer it leaves reads.
-/

namespace Sys2Proof.Machine

open Host

/-! ### The three ways a ring-buffer command ends -/

@[simp] theorem State.freeMutex_raise (s : State) (e : Config.ErrKind) :
    (s.takeMutex.raise e).freeMutex = { s with mutex := .free, port := ⟨some (errWord s.par e), []⟩ } := rfl

@[simp] theorem State.freeMutex_post (s : State) (r : Word) (out : List Byte) :
    (s.takeMutex.post r out).freeMutex = { s with mutex := .free, port := ⟨some r, out⟩ } := rfl

@[simp] theorem State.freeMutex_setRb_post (s : State) (rb : RB) (r : Word) (out : List Byte) :
    ((s.takeMutex.setRb rb).post r out).freeMutex = { s with rb := rb, mutex := .free, port := ⟨some r, out⟩ } := rfl

/-! ### RB.TAKE (R124) -/

theorem exec_rbTake_of_not_created {s : State} (hc : s.rb.created = false) :
    exec .rbTake s = .next { s with mutex := .free, port := ⟨some (errWord s.par .notInitialised), []⟩ } := by
  simp [exec, execRbTake, State.underMutex, hc]

theorem exec_rbTake_of_no_slot {s : State} (hc : s.rb.created = true) (hf : s.rb.freeSlot = none) :
    exec .rbTake s = .next { s with mutex := .free, port := ⟨some (errWord s.par .noMemory), []⟩ } := by
  simp [exec, execRbTake, State.underMutex, hc, hf]

theorem exec_rbTake_of_slot {s : State} {k : Nat} (hc : s.rb.created = true) (hf : s.rb.freeSlot = some k) :
    exec .rbTake s =
      .next { s with rb := s.rb.takeSlot k, mutex := .free, port := ⟨some (BitVec.ofNat 32 k), []⟩ } := by
  simp [exec, execRbTake, State.underMutex, hc, hf, countWord]

/-- No slot is free when every slot of the range is taken. -/
theorem RB.freeSlot_eq_none {rb : RB} (h : ∀ k, 1 ≤ k → k ≤ rb.n.toNat → rb.takenBit k = true) :
    rb.freeSlot = none :=
  rb.freeSlotFrom_none _ 1 fun j h1 hlt => h j h1 (by omega)

/-- The slot found is the free one below which every slot is taken. -/
theorem RB.freeSlot_eq_some {rb : RB} {k : Nat} (h1 : 1 ≤ k) (hn : k ≤ rb.n.toNat) (hfree : rb.takenBit k = false)
    (hlow : ∀ j, 1 ≤ j → j < k → rb.takenBit j = true) : rb.freeSlot = some k :=
  rb.freeSlotFrom_some _ 1 k h1 (by omega) hfree hlow

@[simp] theorem RB.takeSlot_rhr (rb : RB) (k : Nat) : (rb.takeSlot k).rhr = rb.rhr := by simp [RB.takeSlot]

/-- An acquired slot starts at the write cursor, so a new reader sees only later bytes. -/
theorem RB.unread_takeSlot {rb : RB} {par : Config.Params} (hl : rb.Live par) (hz : rb.Sized par) {k : Nat} (h1 : 1 ≤ k)
    (hn : k ≤ rb.n.toNat) : (rb.takeSlot k).unread k = 0 := by
  obtain ⟨-, -, hcursor, -⟩ := RB.takeSlot_reads hz h1 (hn.trans hl.n_le) k
  rw [if_pos rfl] at hcursor
  rw [RB.unread, hcursor, RB.takeSlot_size, RB.takeSlot_w]
  exact ringDistance_self hl.w_lt

/-- Settles O17: the slot search answers by the taken bits, and acquiring the slot it finds writes that slot alone. -/
theorem takeAcquiresTheLowestFreeSlot : Obligations.TakeAcquiresTheLowestFreeSlot := by
  intro s
  refine ⟨exec_rbTake_of_not_created, fun hc hall => exec_rbTake_of_no_slot hc (RB.freeSlot_eq_none hall), ?_⟩
  intro hc hi k h1 hn hfree hlow
  have hl : s.rb.Live s.par := hi.live hc
  exact ⟨s.rb.takeSlot k, exec_rbTake_of_slot hc (RB.freeSlot_eq_some h1 hn hfree hlow),
    RB.unread_takeSlot hl hi.sized h1 hn, RB.takeSlot_reads hi.sized h1 (hn.trans hl.n_le),
    by simpa using hc, by simp, by simp, by simp, by simp, by simp, by simp⟩

/-! ### RB.CREATE and RB.CREATEH (R120, R121) -/

theorem sizeRefused_iff (par : Config.Params) (size : Half) :
    sizeRefused par size = true ↔ size = 0 ∨ par.sizeMax < size.toNat := by
  simp [sizeRefused, ← BitVec.toNat_inj]

theorem sizeRefused_eq_false {par : Config.Params} {size : Half} (h0 : size ≠ 0) (hmax : size.toNat ≤ par.sizeMax) :
    sizeRefused par size = false := by
  rw [← Bool.not_eq_true, sizeRefused_iff]
  rintro (h | h)
  · exact h0 h
  · omega

theorem exec_rbCreateh_of_sizeRefused {s : State} {size : Half} (m : Byte) (hs : sizeRefused s.par size = true) :
    exec (.rbCreateh m size) s =
      .next { s with mutex := .free, port := ⟨some (errWord s.par .invalidParameter), []⟩ } := by
  simp [exec, execRbCreateh, State.underMutex, hs]

theorem exec_rbCreateh_of_too_many {s : State} {size : Half} {m : Byte} (hs : sizeRefused s.par size = false)
    (hm : s.par.nmax < m.toNat) :
    exec (.rbCreateh m size) s = .next { s with mutex := .free, port := ⟨some (errWord s.par .noMemory), []⟩ } := by
  simp [exec, execRbCreateh, State.underMutex, hs, hm]

theorem exec_rbCreateh_of_fits {s : State} {size : Half} {m : Byte} (hs : sizeRefused s.par size = false)
    (hm : m.toNat ≤ s.par.nmax) :
    exec (.rbCreateh m size) s =
      .next { s with rb := s.rb.create s.par size m, mutex := .free, port := ⟨some 0, []⟩ } := by
  simp [exec, execRbCreateh, State.underMutex, hs, Nat.not_lt.2 hm]

/-- "`maxHandles = 0` is legal and gives exactly RB.CREATE" (R121). -/
theorem exec_rbCreateh_zero (size : Half) (s : State) : exec (.rbCreateh 0 size) s = exec (.rbCreate size) s := by
  have hm : ¬ (0 : Byte).toNat > s.takeMutex.par.nmax := Nat.not_lt_zero _
  simp only [exec, execRbCreateh, execRbCreate, State.underMutex, if_neg hm]

/-- Of the old buffer a new one keeps the storage and the handles' cursors; these stay a table of the build's size,
with cursor 0 at index 0. -/
theorem RB.create_eq {rb : RB} {par : Config.Params} (hz : rb.Sized par) (size : Half) (m : Byte) :
    ∃ x : List Half, x.length = par.nmax + 1 ∧ x[0]? = some 0 ∧ rb.create par size m =
      { created := true, size := size, n := m, mem := rb.mem, w := 0, x := x
        taken := List.replicate par.nmax false, lock := List.replicate par.nmax false
        lossRead := List.replicate (par.nmax + 1) 0, lossAdd := 0, rhr := false } :=
  ⟨rb.x.set 0 0, by simp [hz.x], by simp [hz.x], rfl⟩

/-- Settles O15, by the outcomes of the two checks. -/
theorem createWithHandlesInitialises : Obligations.CreateWithHandlesInitialises := by
  intro m size s
  refine ⟨fun hbad => ?_, fun h0 hmax hm => ?_, fun h0 hmax hm hz => ?_⟩
  · exact exec_rbCreateh_of_sizeRefused m ((sizeRefused_iff _ _).2 hbad)
  · exact exec_rbCreateh_of_too_many (sizeRefused_eq_false h0 hmax) hm
  · obtain ⟨x, hlen, hx0, hcreate⟩ := RB.create_eq hz size m
    exact ⟨x, hlen, hx0, by rw [exec_rbCreateh_of_fits (sizeRefused_eq_false h0 hmax) hm, hcreate]⟩

/-- Settles O14: RB.CREATE is RB.CREATEH with no handles, which no build refuses. -/
theorem createInitialises : Obligations.CreateInitialises := by
  intro size s
  obtain ⟨hrefused, -, hcreated⟩ := createWithHandlesInitialises 0 size s
  rw [exec_rbCreateh_zero] at hrefused hcreated
  exact ⟨hrefused, fun h0 hmax hz => hcreated h0 hmax (Nat.zero_le _) hz⟩

/-! ### RB.DESTROY and RB.SETRHR (R122, R123) -/

theorem exec_rbDestroy (s : State) : exec .rbDestroy s =
    .next { s with rb := { s.rb with created := false }, mutex := .free, port := ⟨some 0, []⟩ } := rfl

theorem exec_rbSetrhr_of_created {s : State} (hc : s.rb.created = true) (on : Bool) : exec (.rbSetrhr on) s =
    .next { s with rb := { s.rb with rhr := on }, mutex := .free, port := ⟨some 0, []⟩ } := by
  simp [exec, execRbSetrhr, State.underMutex, hc]

theorem exec_rbSetrhr_of_not_created {s : State} (hc : s.rb.created = false) (on : Bool) : exec (.rbSetrhr on) s =
    .next { s with mutex := .free, port := ⟨some (errWord s.par .notInitialised), []⟩ } := by
  simp [exec, execRbSetrhr, State.underMutex, hc]

/-- Settles O16, from the equations of the two commands. -/
theorem destroyAndSetrhrWriteOneFlag : Obligations.DestroyAndSetrhrWriteOneFlag := by
  intro on s
  refine ⟨⟨{ s.rb with created := false }, rfl, rfl, exec_rbDestroy s⟩, ?_⟩
  cases hc : s.rb.created with
  | true => rw [if_pos rfl, exec_rbSetrhr_of_created hc]
  | false => rw [if_neg Bool.false_ne_true, exec_rbSetrhr_of_not_created hc]

/-! ### RB.GIVE, RB.LOCK and RB.UNLOCK (R125 to R128) -/

/-- The ring buffer after RB.GIVE of h: a handle that is not acquired is left alone (R128). -/
def RB.giveHandle (rb : RB) (h : Nat) : RB := if rb.validh h then rb.giveSlot h else rb

/-- The ring buffer after RB.LOCK (`b = true`) or RB.UNLOCK (`b = false`) of h: a handle that is not acquired is left
alone (R128). -/
def RB.lockHandle (rb : RB) (b : Bool) (h : Nat) : RB := if rb.validh h then rb.setLock b h else rb

theorem exec_rbGive (h : Byte) (s : State) : exec (.rbGive h) s =
    .next { s with rb := s.rb.giveHandle h.toNat, mutex := .free, port := ⟨some 0, []⟩ } := by
  by_cases hv : s.rb.validh h.toNat = true <;> simp [exec, execRbGive, State.underMutex, RB.giveHandle, hv]

theorem exec_rbLock (h : Byte) (s : State) : exec (.rbLock h) s =
    .next { s with
      rb := s.rb.lockHandle true h.toNat, mutex := .free
      port := ⟨some (if s.rb.validh h.toNat then countWord (s.rb.unread h.toNat) else 0), []⟩ } := by
  by_cases hv : s.rb.validh h.toNat = true <;> simp [exec, execRbLock, State.underMutex, RB.lockHandle, hv]

theorem exec_rbUnlock (h : Byte) (s : State) : exec (.rbUnlock h) s =
    .next { s with rb := s.rb.lockHandle false h.toNat, mutex := .free, port := ⟨some 0, []⟩ } := by
  by_cases hv : s.rb.validh h.toNat = true <;> simp [exec, execRbUnlock, State.underMutex, RB.lockHandle, hv]

theorem RB.SameButBits.refl (rb : RB) : rb.SameButBits rb := ⟨rfl, rfl, rfl, rfl, rfl, rfl, rfl, rfl, rfl⟩

theorem RB.giveHandle_sameButBits (rb : RB) (h : Nat) : rb.SameButBits (rb.giveHandle h) := by
  unfold RB.giveHandle
  split
  · exact rb.giveSlot_sameButBits h
  · exact .refl rb

theorem RB.lockHandle_sameButBits (rb : RB) (b : Bool) (h : Nat) : rb.SameButBits (rb.lockHandle b h) := by
  unfold RB.lockHandle
  split
  · exact rb.setLock_sameButBits b h
  · exact .refl rb

theorem RB.lockHandle_taken (rb : RB) (b : Bool) (h : Nat) : (rb.lockHandle b h).taken = rb.taken := by
  unfold RB.lockHandle
  split
  · exact rb.setLock_taken b h
  · rfl

/-- A slot is the handle named and acquired exactly as R128 spells it out for that slot. -/
theorem RB.eq_and_validh_iff (rb : RB) (h k : Nat) : k = h ∧ rb.validh h = true ↔
    k = h ∧ rb.created = true ∧ 1 ≤ k ∧ k ≤ rb.n.toNat ∧ rb.takenBit k = true := by
  rw [RB.validh_iff]
  constructor
  · rintro ⟨rfl, hv⟩; exact ⟨rfl, hv⟩
  · rintro ⟨rfl, hv⟩; exact ⟨rfl, hv⟩

/-- A slot of a created buffer's range is free after RB.GIVE names it, whether it was acquired or free before. -/
theorem RB.takenBit_giveHandle (rb : RB) (h k : Nat) : (rb.giveHandle h).takenBit k =
    if k = h ∧ rb.created = true ∧ 1 ≤ k ∧ k ≤ rb.n.toNat then false else rb.takenBit k := by
  unfold RB.giveHandle
  by_cases hv : rb.validh h = true
  · obtain ⟨hc, h1, hn, ht⟩ := (rb.validh_iff h).1 hv
    rw [if_pos hv, RB.giveSlot, RB.takenBit_setLock, RB.takenBit_setTaken rb false k h1 (RB.takenBit_le ht).2]
    refine if_congr ⟨?_, And.left⟩ rfl rfl
    rintro rfl; exact ⟨rfl, hc, h1, hn⟩
  · rw [if_neg hv]
    split
    · next hslot =>
      obtain ⟨rfl, hc, h1, hn⟩ := hslot
      exact Bool.eq_false_iff.2 fun ht => hv ((rb.validh_iff k).2 ⟨hc, h1, hn, ht⟩)
    · rfl

theorem RB.lockBit_giveHandle (rb : RB) (h k : Nat) :
    (rb.giveHandle h).lockBit k = if k = h ∧ rb.validh h = true then false else rb.lockBit k := by
  unfold RB.giveHandle
  by_cases hv : rb.validh h = true
  · obtain ⟨-, h1, -, -⟩ := (rb.validh_iff h).1 hv
    rw [if_pos hv, RB.giveSlot, RB.lockBit_unlock _ k h1, RB.lockBit_setTaken]
    simp [hv]
  · simp [hv]

theorem RB.lockBit_lockHandle_false (rb : RB) (h k : Nat) :
    (rb.lockHandle false h).lockBit k = if k = h ∧ rb.validh h = true then false else rb.lockBit k := by
  unfold RB.lockHandle
  by_cases hv : rb.validh h = true
  · obtain ⟨-, h1, -, -⟩ := (rb.validh_iff h).1 hv
    rw [if_pos hv, RB.lockBit_unlock rb k h1]
    simp [hv]
  · simp [hv]

/-- An acquired handle has a taken bit, and so a lock bit: the two tables have one size. -/
theorem RB.lockBit_lockHandle_true {rb : RB} {par : Config.Params} (hz : rb.Sized par) (h k : Nat) :
    (rb.lockHandle true h).lockBit k = if k = h ∧ rb.validh h = true then true else rb.lockBit k := by
  unfold RB.lockHandle
  by_cases hv : rb.validh h = true
  · obtain ⟨-, h1, -, ht⟩ := (rb.validh_iff h).1 hv
    have hlen : h ≤ rb.lock.length := by rw [hz.lock, ← hz.taken]; exact (RB.takenBit_le ht).2
    rw [if_pos hv, RB.lockBit_setLock rb true k h1 hlen]
    simp [hv]
  · simp [hv]

/-- Settles O18, from the bits a given-back handle leaves. -/
theorem giveReleasesTheHandle : Obligations.GiveReleasesTheHandle := by
  intro h s
  refine ⟨s.rb.giveHandle h.toNat, s.rb.giveHandle_sameButBits _, exec_rbGive h s, fun k => ⟨?_, ?_⟩⟩
  · exact s.rb.takenBit_giveHandle h.toNat k
  · rw [RB.lockBit_giveHandle]
    exact if_congr (s.rb.eq_and_validh_iff _ _) rfl rfl

/-- Settles O19, from the answer of RB.LOCK and the lock bits it leaves. -/
theorem lockProtectsAndCounts : Obligations.LockProtectsAndCounts := by
  intro h s hz
  refine ⟨s.rb.lockHandle true h.toNat, s.rb.lockHandle_sameButBits _ _, s.rb.lockHandle_taken _ _, ?_, fun k => ?_⟩
  · simp only [exec_rbLock, RB.validh_iff, countWord]
  · rw [RB.lockBit_lockHandle_true hz]
    exact if_congr (s.rb.eq_and_validh_iff _ _) rfl rfl

/-- Settles O20, from the lock bits RB.UNLOCK leaves. -/
theorem unlockRemovesTheProtection : Obligations.UnlockRemovesTheProtection := by
  intro h s
  refine ⟨s.rb.lockHandle false h.toNat, s.rb.lockHandle_sameButBits _ _, s.rb.lockHandle_taken _ _,
    exec_rbUnlock h s, fun k => ?_⟩
  rw [RB.lockBit_lockHandle_false]
  exact if_congr (s.rb.eq_and_validh_iff _ _) rfl rfl

/-! ### Equations of the data commands (R155, R156, R159 to R162) -/

/-- "Exactly RB.READH with h = 0" (R155). -/
theorem exec_rbRead (n : Half) (s : State) : exec (.rbRead n) s = exec (.rbReadh 0 n) s := rfl

/-- "Exactly RB.PEEKH with h = 0" (R156). -/
theorem exec_rbPeek (n : Half) (s : State) : exec (.rbPeek n) s = exec (.rbPeekh 0 n) s := rfl

theorem exec_rbAvail (s : State) : exec .rbAvail s = .next { s with
    mutex := .free, port := ⟨some (if s.rb.created then countWord s.rb.avail else 0), []⟩ } := rfl

theorem exec_rbAvailmax (s : State) : exec .rbAvailmax s = .next { s with
    mutex := .free, port := ⟨some (if s.rb.created then countWord s.rb.availmax else 0), []⟩ } := rfl

theorem exec_rbStatadd (s : State) : exec .rbStatadd s = .next { s with
    mutex := .free, port := ⟨some (if s.rb.created then s.rb.lossAdd.word else 0), []⟩ } := rfl

theorem exec_rbStatread (h : Byte) (s : State) : exec (.rbStatread h) s = .next { s with
    mutex := .free
    port := ⟨some (if s.rb.created && (decide (h.toNat = 0) || s.rb.validh h.toNat)
      then (s.rb.lossOf h.toNat).word else 0), []⟩ } := rfl

/-! ### A buffer that is not created (R128) -/

section

variable {rb : RB} (hc : rb.created = false)
include hc

theorem RB.validh_of_not_created (h : Nat) : rb.validh h = false := by simp [RB.validh, hc]

theorem RB.readable_of_not_created (h : Nat) : rb.readable h = false := by simp [RB.readable, hc]

theorem RB.giveHandle_of_not_created (h : Nat) : rb.giveHandle h = rb := by
  simp [RB.giveHandle, RB.validh_of_not_created hc]

theorem RB.lockHandle_of_not_created (b : Bool) (h : Nat) : rb.lockHandle b h = rb := by
  simp [RB.lockHandle, RB.validh_of_not_created hc]

theorem RB.add_of_not_created (par : Config.Params) (d : List Byte) : rb.add par d = (rb, false) := by
  simp [RB.add, hc]

theorem RB.forceAdd_of_not_created (par : Config.Params) (d : List Byte) : rb.forceAdd par d = (rb, false) := by
  simp [RB.forceAdd, hc]

theorem RB.read_of_not_created (h n : Nat) : rb.read h n = (rb, []) := by
  simp [RB.read, RB.readable_of_not_created hc]

theorem RB.peek_of_not_created (h n : Nat) : rb.peek h n = [] :=
  RB.peek_of_not_readable n (RB.readable_of_not_created hc h)

end

section

variable {s : State} (hc : s.rb.created = false)
include hc

theorem exec_rbReadh_of_not_created (h : Byte) (n : Half) :
    exec (.rbReadh h n) s = .next { s with mutex := .free, port := ⟨some 0, []⟩ } := by
  rw [exec_rbReadh, RB.read_of_not_created hc]; rfl

theorem exec_rbPeekh_of_not_created (h : Byte) (n : Half) :
    exec (.rbPeekh h n) s = .next { s with mutex := .free, port := ⟨some 0, []⟩ } := by
  rw [exec_rbPeekh, RB.peek_of_not_created hc]; rfl

end

/-- Settles O21: no handle of the buffer is acquired and no cursor readable, and every answer asks for `created`. -/
theorem uncreatedBufferAnswers : Obligations.UncreatedBufferAnswers := by
  intro s hc
  constructor
  · rintro i (hi | ⟨h, hi⟩ | ⟨d, hi⟩ | ⟨n, hi⟩ | ⟨h, n, hi⟩) <;>
      simp only [List.mem_cons, List.not_mem_nil, or_false] at hi
    · rcases hi with rfl | rfl | rfl
      · simp [exec_rbAvail, hc]
      · simp [exec_rbAvailmax, hc]
      · simp [exec_rbStatadd, hc]
    · rcases hi with rfl | rfl | rfl | rfl
      · rw [exec_rbGive, RB.giveHandle_of_not_created hc]
      · simp [exec_rbLock, RB.lockHandle_of_not_created hc, RB.validh_of_not_created hc]
      · rw [exec_rbUnlock, RB.lockHandle_of_not_created hc]
      · simp [exec_rbStatread, hc]
    · rcases hi with rfl | rfl
      · rw [exec_rbAdd, RB.add_of_not_created hc]; rfl
      · rw [exec_rbFadd, RB.forceAdd_of_not_created hc]; rfl
    · rcases hi with rfl | rfl
      · rw [exec_rbRead, exec_rbReadh_of_not_created hc]
      · rw [exec_rbPeek, exec_rbPeekh_of_not_created hc]
    · rcases hi with rfl | rfl
      · exact exec_rbReadh_of_not_created hc h n
      · exact exec_rbPeekh_of_not_created hc h n
  · rintro i (rfl | ⟨on, rfl⟩)
    · exact exec_rbTake_of_not_created hc
    · exact exec_rbSetrhr_of_not_created hc on

end Sys2Proof.Machine
end

section
/-!
Adding to the ring buffer (41_rb_data.md R150 to R153): RB.ADD and RB.FADD refuse their bytes whole or store them
whole, and what either outcome leaves.
-/

namespace Sys2Proof.Machine

open Host

variable {rb : RB} {par : Config.Params} {d : List Byte} {k : Nat}

/-! ### Room behind a cursor -/

theorem RB.mustLose_of_fits {len : Nat} (h : rb.unread k + len ≤ rb.capacity) : rb.mustLose len k = 0 :=
  Nat.sub_eq_zero_of_le h

/-- An add no longer than `avail()` has room behind every eligible cursor. -/
theorem RB.eligible_fits_of_avail {n : Nat} (h : n ≤ rb.avail) (hs : 1 ≤ rb.size.toNat) (hk : rb.eligible k = true) :
    rb.unread k + n ≤ rb.capacity := by
  rcases (RB.le_avail_iff n).1 h with rfl | ⟨-, hfits⟩
  · exact RB.unread_le_capacity hs k
  · exact hfits k hk

/-- Storing leaves a cursor that has room behind it. -/
theorem RB.reclaim_put_of_fits (h : rb.unread k + d.length ≤ rb.capacity) :
    ((rb.reclaim par d.length).put d).cursor k = rb.cursor k ∧
      ((rb.reclaim par d.length).put d).lossOf k = rb.lossOf k :=
  RB.reclaim_of_not_reclaims par (by simp [RB.reclaims, RB.mustLose_of_fits h])

/-- A cursor that has room behind it will read its old bytes and then the stored ones. -/
theorem RB.reclaim_put_content_of_fits (hi : rb.Inv par) (hc : rb.created = true) (hk : rb.present k = true)
    (h : rb.unread k + d.length ≤ rb.capacity) :
    ((rb.reclaim par d.length).put d).content k = rb.content k ++ d := by
  rw [RB.reclaim_put_content (hi.live hc) hi.sized hi.mem_wf d hk fun _ => h, RB.mustLose_of_fits h, List.drop_zero]

/-! ### The two outcomes of an add -/

/-- What an add or a forced add answers on a created buffer: the bytes are refused whole, or stored whole with room
behind every locked cursor (R150, R151). -/
inductive RB.AddOutcome (rb : RB) (par : Config.Params) (d : List Byte) : RB × Bool → Prop
  | refused : RB.AddOutcome rb par d (rb.refuseAdd par d.length, false)
  | stored (fits : ∀ k, rb.locked k = true → rb.unread k + d.length ≤ rb.capacity) :
      RB.AddOutcome rb par d ((rb.reclaim par d.length).put d, true)

theorem RB.add_outcome (hl : rb.Live par) (hc : rb.created = true) (d : List Byte) :
    rb.AddOutcome par d (rb.add par d) := by
  rcases RB.add_cases rb par d with ⟨hn, -⟩ | ⟨-, -, he⟩ | ⟨-, hle, he⟩
  · rw [hc] at hn; cases hn
  · rw [he]; exact .refused
  · rw [he]; exact .stored fun _ hk => RB.locked_fits_of_avail hle hl.size_pos hk

theorem RB.forceAdd_outcome (hc : rb.created = true) (d : List Byte) : rb.AddOutcome par d (rb.forceAdd par d) := by
  rcases RB.forceAdd_cases rb par d with ⟨hn, -⟩ | ⟨-, -, he⟩ | ⟨-, hfits, he⟩
  · rw [hc] at hn; cases hn
  · rw [he]; exact .refused
  · rw [he]; exact .stored hfits

/-- Either add command, on a created buffer, posts what its operation answers. -/
theorem exec_adds_outcome {s t : State} (hl : s.rb.Live s.par) (hc : s.rb.created = true)
    (h : exec (.rbFadd d) s = .next t ∨ exec (.rbAdd d) s = .next t) :
    ∃ stored, s.rb.AddOutcome s.par d (t.rb, stored) ∧ t.port.result = some (boolWord stored) := by
  rcases h with h | h
  · cases h; exact ⟨_, RB.forceAdd_outcome hc d, rfl⟩
  · cases h; exact ⟨_, RB.add_outcome hl hc d, rfl⟩

/-- Settles O24: a result of 1 says that the bytes were stored, and storing extends what a present cursor reads. -/
theorem storingExtendsUnreadBytes : Obligations.StoringExtendsUnreadBytes := by
  intro s t d hi hc h hr k hk
  have hl : s.rb.Live s.par := hi.live hc
  obtain ⟨stored, houtcome, hresult⟩ := exec_adds_outcome hl hc h
  generalize t.rb = rb' at houtcome ⊢
  cases houtcome with
  | refused => rw [hresult] at hr; exact absurd hr (by decide)
  | stored fits =>
    exact ⟨RB.reclaim_put_unread hl hi.sized d hk (fits k), RB.reclaim_put_content hl hi.sized hi.mem_wf d hk (fits k),
      fun hlocked => RB.reclaim_put_content_of_fits hi hc hk (fits k hlocked)⟩

/-! ### RB.ADD (R150) -/

section

variable {s : State} (hc : s.rb.created = true)
include hc

theorem exec_rbAdd_of_avail_lt (h : s.rb.avail < d.length) : exec (.rbAdd d) s =
    .next { s with rb := s.rb.refuseAdd s.par d.length, mutex := .free, port := ⟨some 0, []⟩ } := by
  rw [exec_rbAdd, RB.add, if_pos hc, if_pos h]; rfl

theorem exec_rbAdd_of_le_avail (h : d.length ≤ s.rb.avail) : exec (.rbAdd d) s =
    .next { s with rb := (s.rb.reclaim s.par d.length).put d, mutex := .free, port := ⟨some 1, []⟩ } := by
  rw [exec_rbAdd, RB.add, if_pos hc, if_neg (Nat.not_lt.2 h)]; rfl

end

/-- Settles O22, by the check RB.ADD makes; what is stored is what `reclaim` and `put` store. -/
theorem addStoresOrRefuses : Obligations.AddStoresOrRefuses := by
  intro d s
  refine ⟨fun hc => ?_, fun hc hlt => exec_rbAdd_of_avail_lt hc hlt, fun hc hi hle => ?_⟩
  · rw [exec_rbAdd, RB.add_of_not_created hc]; rfl
  · have hl : s.rb.Live s.par := hi.live hc
    exact ⟨_, exec_rbAdd_of_le_avail hc hle, RB.reclaim_put_stored hi hl d,
      fun k hk => RB.reclaim_put_of_fits (RB.eligible_fits_of_avail hle hl.size_pos hk)⟩

/-! ### RB.FADD (R151) -/

section

variable {s : State} (hc : s.rb.created = true)
include hc

theorem exec_rbFadd_of_blocked (h : ∃ k, s.rb.locked k = true ∧ s.rb.capacity < s.rb.unread k + d.length) :
    exec (.rbFadd d) s =
      .next { s with rb := s.rb.refuseAdd s.par d.length, mutex := .free, port := ⟨some 0, []⟩ } := by
  obtain ⟨k, hk, hlt⟩ := h
  obtain ⟨h1, hn⟩ := RB.locked_bounds hk
  have hblocks : s.rb.lockBlocks d.length s.rb.n.toNat = true := (RB.lockBlocks_iff _ _ _).2 ⟨k, h1, hn, hk, hlt⟩
  rw [exec_rbFadd, RB.forceAdd, if_pos hc, if_pos hblocks]; rfl

theorem exec_rbFadd_of_fits (h : ∀ k, s.rb.locked k = true → s.rb.unread k + d.length ≤ s.rb.capacity) :
    exec (.rbFadd d) s =
      .next { s with rb := (s.rb.reclaim s.par d.length).put d, mutex := .free, port := ⟨some 1, []⟩ } := by
  have hblocks : ¬ s.rb.lockBlocks d.length s.rb.n.toNat = true := fun hb => by
    obtain ⟨k, -, -, hk, hlt⟩ := (RB.lockBlocks_iff _ _ _).1 hb
    exact Nat.not_lt.2 (h k hk) hlt
  rw [exec_rbFadd, RB.forceAdd, if_pos hc, if_neg hblocks]; rfl

end

/-- Settles O23, by the check RB.FADD makes of the locked cursors. -/
theorem forcedAddStoresOrRefuses : Obligations.ForcedAddStoresOrRefuses := by
  intro d s
  refine ⟨fun hc => ?_, fun hc hblocked => exec_rbFadd_of_blocked hc hblocked, fun hc hi hfits => ?_⟩
  · rw [exec_rbFadd, RB.forceAdd_of_not_created hc]; rfl
  · exact ⟨_, exec_rbFadd_of_fits hc hfits, RB.reclaim_put_stored hi (hi.live hc) d⟩

end Sys2Proof.Machine
end

section
/-!
Reading the ring buffer (41_rb_data.md R154 to R158, R169): what a peek copies, what a read copies and moves, and
that reads through different cursors do not see each other.
-/

namespace Sys2Proof.Machine

open Host

variable {rb : RB} {h j k n m : Nat}

/-! ### RB.PEEKH and RB.PEEK (R156, R158) -/

theorem RB.length_peek (rb : RB) (h n : Nat) :
    (rb.peek h n).length = if rb.readable h = true then min n (rb.unread h) else 0 := by
  unfold RB.peek
  split
  · exact Memory.length_readRing _ _ _ _
  · rfl

theorem RB.getElem?_peek {i : Nat} (hi : i < (rb.peek h n).length) :
    (rb.peek h n)[i]? = some (rb.mem.read ((rb.cursor h + i) % rb.size.toNat)) := by
  rw [RB.length_peek] at hi
  unfold RB.peek
  split at hi
  · rw [if_pos ‹_›]; exact Memory.getElem?_readRing _ _ _ _ _ hi
  · exact absurd hi (Nat.not_lt_zero i)

/-- Settles O28: RB.PEEK is a peek through cursor 0, and a peek's bytes are those of the ring from the cursor on. -/
theorem peekCopiesOnly : Obligations.PeekCopiesOnly := by
  intro i h n s hi
  have hexec : exec i s = exec (.rbPeekh h n) s := by
    rcases hi with rfl | ⟨rfl, rfl⟩
    · rfl
    · exact exec_rbPeek n s
  refine ⟨s.rb.peek h.toNat n.toNat, hexec.trans (exec_rbPeekh h n s), ?_, fun i hi => RB.getElem?_peek hi⟩
  simp only [RB.length_peek, RB.readable_iff]

/-! ### RB.READH and RB.READ (R155, R157) -/

theorem RB.read_of_not_readable (hr : rb.readable h = false) (n : Nat) : rb.read h n = (rb, []) := by
  simp [RB.read, hr]

theorem RB.read_of_readable (hr : rb.readable h = true) (n : Nat) : rb.read h n =
    (rb.setCursor h ((rb.cursor h + min n (rb.unread h)) % rb.size.toNat), rb.peek h n) := by
  simp [RB.read, hr]

/-- A read returns the bytes that a peek would. -/
theorem RB.read_snd (rb : RB) (h n : Nat) : (rb.read h n).2 = rb.peek h n := by
  by_cases hr : rb.readable h = true
  · rw [RB.read_of_readable hr]
  · rw [RB.read_of_not_readable (by simpa using hr), RB.peek_of_not_readable n (by simpa using hr)]

/-- A read writes the read cursors alone. -/
theorem RB.read_sameButCursors (rb : RB) (h n : Nat) : rb.SameButCursors (rb.read h n).1 := by
  unfold RB.read
  split <;> exact ⟨⟨rfl, rfl, rfl, rfl, rfl, rfl⟩, rfl, rfl, rfl, rfl⟩

/-- A read moves its own cursor past the bytes it returns, and no other. -/
theorem RB.Inv.cursor_read {par : Config.Params} (hi : rb.Inv par) (hr : rb.readable h = true) (n k : Nat) :
    (rb.read h n).1.cursor k =
      if k = h then (rb.cursor k + (rb.peek h n).length) % rb.size.toNat else rb.cursor k := by
  have hl : rb.Live par := hi.live (by simp only [RB.readable, Bool.and_eq_true] at hr; exact hr.1)
  have hx : h < rb.x.length := hi.sized.lt_x (hl.present_le_nmax (RB.present_of_readable hr))
  rw [RB.read_of_readable hr, RB.cursor_setCursor rb k hx ((Nat.mod_lt _ hl.size_pos).trans rb.size.isLt),
    RB.length_peek, if_pos hr]
  by_cases hk : k = h
  · rw [if_pos hk, if_pos hk, hk]
  · rw [if_neg hk, if_neg hk]

/-- Settles O27: RB.READ is a read through cursor 0, and a read returns a peek's bytes and moves its cursor past them. -/
theorem readCopiesAndAdvances : Obligations.ReadCopiesAndAdvances := by
  intro i h n s hi
  have hexec : exec i s = exec (.rbReadh h n) s := by
    rcases hi with rfl | ⟨rfl, rfl⟩
    · rfl
    · exact exec_rbRead n s
  rw [hexec, exec_rbReadh]
  refine ⟨fun hr => ?_, fun hc hr hinv => ?_⟩
  · rw [← RB.readable_iff, Bool.not_eq_true] at hr
    rw [RB.read_of_not_readable hr]; rfl
  · have hr : s.rb.readable h.toNat = true := (RB.readable_iff _ _).2 ⟨hc, hr⟩
    refine ⟨_, s.rb.peek h.toNat n.toNat, by rw [RB.read_snd]; rfl, ?_, fun i hi => RB.getElem?_peek hi,
      s.rb.read_sameButCursors _ _, hinv.cursor_read hr _⟩
    rw [RB.length_peek, if_pos hr]

/-! ### Reads through two cursors (R169) -/

theorem RB.cursor_setCursor_of_ne (rb : RB) (hjk : j ≠ k) (v : Nat) : (rb.setCursor j v).cursor k = rb.cursor k := by
  simp [RB.cursor, List.getElem?_set_ne hjk]

theorem RB.setCursor_comm (rb : RB) (hjk : j ≠ k) (v w : Nat) :
    (rb.setCursor j v).setCursor k w = (rb.setCursor k w).setCursor j v := by
  simp only [RB.setCursor, List.set_comm _ _ hjk]

/-- Which cursors are readable depends on no cursor. -/
theorem RB.SameButCursors.readable {rb' : RB} (hs : rb.SameButCursors rb') (k : Nat) : rb'.readable k = rb.readable k := by
  simp only [RB.readable, RB.validh, RB.held_congr hs.shape.n hs.shape.taken, hs.shape.created, hs.shape.rhr]

theorem RB.cursor_read_of_ne (rb : RB) (hjk : j ≠ k) (n : Nat) : (rb.read j n).1.cursor k = rb.cursor k := by
  rcases RB.read_cases rb j n with ⟨-, he⟩ | ⟨-, he⟩ <;> rw [he]
  exact rb.cursor_setCursor_of_ne hjk _

/-- A cursor's unread bytes depend on the storage, the size, the write cursor and that cursor alone. -/
theorem RB.content_congr {rb rb' : RB} (hsize : rb'.size = rb.size) (hmem : rb'.mem = rb.mem) (hw : rb'.w = rb.w)
    (hcursor : rb'.cursor k = rb.cursor k) : rb'.content k = rb.content k := by
  simp only [RB.content, RB.unread, hsize, hmem, hw, hcursor]

theorem RB.content_read_of_ne (rb : RB) (hjk : j ≠ k) (n : Nat) : (rb.read j n).1.content k = rb.content k :=
  have hs := rb.read_sameButCursors j n
  RB.content_congr hs.shape.size hs.mem hs.w (rb.cursor_read_of_ne hjk n)

theorem RB.peek_read_of_ne (rb : RB) (hjk : j ≠ k) (n m : Nat) : (rb.read j n).1.peek k m = rb.peek k m := by
  have hread : (rb.read j n).1.readable k = rb.readable k := (rb.read_sameButCursors j n).readable k
  by_cases hr : rb.readable k = true
  · rw [RB.peek_eq m (hread.trans hr), RB.peek_eq m hr, rb.content_read_of_ne hjk]
  · rw [Bool.not_eq_true] at hr
    rw [RB.peek_of_not_readable m (hread.trans hr), RB.peek_of_not_readable m hr]

/-- The second read writes to its cursor what it would have written alone. -/
theorem RB.read_read_of_ne (rb : RB) (hjk : j ≠ k) (n : Nat) (hr : rb.readable k = true) (m : Nat) :
    ((rb.read j n).1.read k m).1 =
      (rb.read j n).1.setCursor k ((rb.cursor k + min m (rb.unread k)) % rb.size.toNat) := by
  have hs := rb.read_sameButCursors j n
  rw [RB.read_of_readable ((hs.readable k).trans hr), rb.cursor_read_of_ne hjk, hs.shape.size,
    ← RB.length_content, rb.content_read_of_ne hjk, RB.length_content]

theorem RB.read_comm (rb : RB) (hjk : j ≠ k) (n m : Nat) :
    ((rb.read j n).1.read k m).1 = ((rb.read k m).1.read j n).1 := by
  by_cases hj : rb.readable j = true
  · by_cases hk : rb.readable k = true
    · rw [RB.read_read_of_ne rb hjk n hk m, RB.read_read_of_ne rb hjk.symm m hj n, RB.read_of_readable hj,
        RB.read_of_readable hk, RB.setCursor_comm rb hjk]
    · rw [Bool.not_eq_true] at hk
      rw [RB.read_of_not_readable (((rb.read_sameButCursors j n).readable k).trans hk), RB.read_of_not_readable hk]
  · rw [Bool.not_eq_true] at hj
    rw [RB.read_of_not_readable (((rb.read_sameButCursors k m).readable j).trans hj), RB.read_of_not_readable hj]

/-- Settles O29: what a read answers and moves depends on its own cursor alone. -/
theorem readsOfTwoCursorsCommute : Obligations.ReadsOfTwoCursorsCommute := by
  intro j k n m s hne
  have hjk : j.toNat ≠ k.toNat := fun he => hne (BitVec.eq_of_toNat_eq he)
  refine ⟨_, _, _, _, exec_rbReadh j n s, exec_rbReadh k m _, exec_rbReadh k m s, exec_rbReadh j n _, ?_, ?_,
    s.rb.read_comm hjk _ _, s.rb.content_read_of_ne hjk _, (s.rb.read_sameButCursors _ _).readable _⟩
  · simp only [RB.read_snd, RB.peek_read_of_ne _ hjk]
  · simp only [RB.read_snd, RB.peek_read_of_ne _ hjk.symm]

end Sys2Proof.Machine
end

section
/-!
What the commands and the agents do to the ring buffer as one cursor k sees it: the FIFO property (41_rb_data.md R168)
and the lock property (R170).
-/

namespace Sys2Proof.Machine

open Host

variable {rb rb' : RB} {par : Config.Params} {k : Nat}

/-! ### Operations that leave cursor k alone -/

/-- The buffer, cursor k, its loss counter and the bytes it will read next are as they were, and a lock on it stands. -/
structure RB.Undisturbed (k : Nat) (rb rb' : RB) : Prop where
  created : rb'.created = rb.created
  held : rb'.held k = rb.held k
  cursor : rb'.cursor k = rb.cursor k
  lossOf : rb'.lossOf k = rb.lossOf k
  content : rb'.content k = rb.content k
  lockBit : rb.lockBit k = true → rb'.lockBit k = true

theorem RB.Undisturbed.refl (k : Nat) (rb : RB) : RB.Undisturbed k rb rb := ⟨rfl, rfl, rfl, rfl, rfl, id⟩

theorem RB.Undisturbed.setRhr (k : Nat) (rb : RB) (on : Bool) : RB.Undisturbed k rb { rb with rhr := on } :=
  ⟨rfl, rfl, rfl, rfl, rfl, id⟩

theorem RB.Undisturbed.refuseAdd (k : Nat) (rb : RB) (par : Config.Params) (n : Nat) :
    RB.Undisturbed k rb (rb.refuseAdd par n) :=
  ⟨rfl, rfl, rfl, rfl, rfl, id⟩

theorem RB.SameButBits.cursor_eq (h : rb.SameButBits rb') (k : Nat) : rb'.cursor k = rb.cursor k := by
  simp only [RB.cursor, h.x]

theorem RB.SameButBits.content_eq (h : rb.SameButBits rb') (k : Nat) : rb'.content k = rb.content k :=
  RB.content_congr h.size h.mem h.w (h.cursor_eq k)

/-- An operation on the bitmaps disturbs k through k's own two bits only. -/
theorem RB.SameButBits.undisturbed (h : rb.SameButBits rb') (htaken : rb'.takenBit k = rb.takenBit k)
    (hlock : rb.lockBit k = true → rb'.lockBit k = true) : RB.Undisturbed k rb rb' where
  created := h.created
  held := by simp only [RB.held, h.n, htaken]
  cursor := h.cursor_eq k
  lossOf := by simp only [RB.lossOf, h.lossRead]
  content := h.content_eq k
  lockBit := hlock

theorem RB.takenBit_lockHandle (rb : RB) (b : Bool) (h k : Nat) : (rb.lockHandle b h).takenBit k = rb.takenBit k := by
  cases k <;> simp only [RB.takenBit, rb.lockHandle_taken b h]

theorem RB.Undisturbed.giveHandle {h : Nat} (hk : k ≠ h) : RB.Undisturbed k rb (rb.giveHandle h) :=
  (rb.giveHandle_sameButBits h).undisturbed (by simp [RB.takenBit_giveHandle, hk]) (by simp [RB.lockBit_giveHandle, hk])

/-- RB.LOCK of k itself, too, leaves k locked. -/
theorem RB.Undisturbed.lock (hz : rb.Sized par) (h : Nat) : RB.Undisturbed k rb (rb.lockHandle true h) :=
  (rb.lockHandle_sameButBits true h).undisturbed (rb.takenBit_lockHandle _ _ _)
    (by simp +contextual [RB.lockBit_lockHandle_true hz])

theorem RB.Undisturbed.unlock {h : Nat} (hk : k ≠ h) : RB.Undisturbed k rb (rb.lockHandle false h) :=
  (rb.lockHandle_sameButBits false h).undisturbed (rb.takenBit_lockHandle _ _ _)
    (by simp [RB.lockBit_lockHandle_false, hk])

/-- The slot RB.TAKE finds is free, so it is not a cursor that is present. -/
theorem RB.freeSlot_ne_of_present {j : Nat} (hj : rb.freeSlot = some j) (hk : rb.present k = true) : k ≠ j := by
  obtain ⟨h1, -, hfree⟩ := rb.freeSlotFrom_bounds hj
  rintro rfl
  rcases (by simpa [RB.present] using hk : k = 0 ∨ rb.held k = true) with h0 | hheld
  · omega
  · rw [(RB.held_bounds hheld).2.2] at hfree; cases hfree

theorem RB.Undisturbed.takeSlot (hl : rb.Live par) (hz : rb.Sized par) {j : Nat} (hj : rb.freeSlot = some j)
    (hk : rb.present k = true) : RB.Undisturbed k rb (rb.takeSlot j) := by
  have hne : k ≠ j := RB.freeSlot_ne_of_present hj hk
  obtain ⟨h1, hlt, -⟩ := rb.freeSlotFrom_bounds hj
  have hn : j ≤ par.nmax := by have := hl.n_le; omega
  obtain ⟨htaken, hlock, hcursor, hloss⟩ := RB.takeSlot_reads hz h1 hn k
  rw [if_neg hne] at htaken hlock hcursor hloss
  exact {
    created := rb.takeSlot_created j
    held := by simp only [RB.held, rb.takeSlot_n, htaken]
    cursor := hcursor
    lossOf := hloss
    content := RB.content_congr (rb.takeSlot_size j) (rb.takeSlot_mem j) (rb.takeSlot_w j) hcursor
    lockBit := fun hb => hlock.trans hb }

theorem RB.lockBit_read (rb : RB) (j n k : Nat) : (rb.read j n).1.lockBit k = rb.lockBit k := by
  cases k <;> simp only [RB.lockBit, (rb.read_sameButCursors j n).shape.lock]

theorem RB.held_read (rb : RB) (j n k : Nat) : (rb.read j n).1.held k = rb.held k :=
  RB.held_congr (rb.read_sameButCursors j n).shape.n (rb.read_sameButCursors j n).shape.taken k

theorem RB.lossOf_read (rb : RB) (j n k : Nat) : (rb.read j n).1.lossOf k = rb.lossOf k := by
  simp only [RB.lossOf, (rb.read_sameButCursors j n).lossRead]

theorem RB.Undisturbed.read {j : Nat} (hk : k ≠ j) (n : Nat) : RB.Undisturbed k rb (rb.read j n).1 where
  created := (rb.read_sameButCursors j n).shape.created
  held := rb.held_read j n k
  cursor := rb.cursor_read_of_ne hk.symm n
  lossOf := rb.lossOf_read j n k
  content := rb.content_read_of_ne hk.symm n
  lockBit := fun hb => (rb.lockBit_read j n k).trans hb

/-! ### Commands that leave cursor k alone -/

@[simp] theorem State.postFrame_rb (s : State) (len : Nat) (bytes : List Byte) : (s.postFrame len bytes).rb = s.rb := by
  unfold State.postFrame
  split <;> rfl

@[simp] theorem State.postDecoded_rb (s : State) (r : UbxDecoded) : (s.postDecoded r).rb = s.rb := by
  cases r <;> rfl

@[simp] theorem State.startCall_rb (s : State) (frame : List Byte) (ubx : Ubx) : (s.startCall frame ubx).rb = s.rb := by
  unfold State.startCall
  split
  · rfl
  · split <;> rfl

/-- The commands of the other units do not write the ring buffer (10_state.md R22). -/
theorem exec_rb_of_owner {i : Instr} {s t : State} (ho : ownerOf i ≠ .ringBuffer) (h : exec i s = .next t) :
    t.rb = s.rb := by
  cases i with
  | rbCreate | rbCreateh | rbDestroy | rbSetrhr | rbTake | rbGive | rbLock | rbUnlock | rbAdd | rbFadd | rbRead | rbPeek
  | rbReadh | rbPeekh | rbAvail | rbAvailmax | rbStatadd | rbStatread => exact absurd rfl ho
  | edmEncdata | edmEnchead | edmEncatreq | edmEncatrsp => cases h; exact s.postFrame_rb _ _
  | ubxDecode => cases h; exact s.postDecoded_rb _
  | ubxSendrecv | ubxSendonly => cases h; exact s.startCall_rb _ _
  | uartWrite | linkDrain => cases h; split <;> rfl
  | _ => cases h; rfl

/-- RB.FADD or RB.ADD. -/
def isAdd (i : Instr) : Prop := ∃ d, i = .rbFadd d ∨ i = .rbAdd d

/-- Of the commands R170 does not name, all but the adds and the reads through k leave cursor k alone. -/
theorem exec_undisturbed {i : Instr} {s t : State} (hs : s.Inv) (hc : s.rb.created = true) (hk : s.rb.present k = true)
    (hi : sparesLocked k i) (hadd : ¬ isAdd i) (hread : readsCursor k i = false)
    (h : exec i s = .next t) : RB.Undisturbed k s.rb t.rb := by
  obtain ⟨⟨hcreate, hcreateh, hdestroy, hgive⟩, hunlock, -⟩ := hi
  cases i with
  | rbCreate size => exact absurd rfl (hcreate size)
  | rbCreateh m size => exact absurd rfl (hcreateh m size)
  | rbDestroy => exact absurd rfl hdestroy
  | rbSetrhr on => rw [exec_rbSetrhr_of_created hc] at h; cases h; exact .setRhr k _ on
  | rbTake =>
    cases hf : s.rb.freeSlot with
    | none => rw [exec_rbTake_of_no_slot hc hf] at h; cases h; exact .refl k _
    | some j => rw [exec_rbTake_of_slot hc hf] at h; cases h; exact .takeSlot (hs.rb.live hc) hs.rb.sized hf hk
  | rbGive j => rw [exec_rbGive] at h; cases h; exact .giveHandle (hgive j rfl)
  | rbLock j => rw [exec_rbLock] at h; cases h; exact .lock hs.rb.sized _
  | rbUnlock j => rw [exec_rbUnlock] at h; cases h; exact .unlock (hunlock j rfl)
  | rbAdd d => exact absurd ⟨d, .inr rfl⟩ hadd
  | rbFadd d => exact absurd ⟨d, .inl rfl⟩ hadd
  | rbRead n => cases h; exact .read (by simpa [readsCursor] using hread) _
  | rbReadh j n => cases h; exact .read (by simpa [readsCursor] using hread) _
  | rbPeek | rbPeekh | rbAvail | rbAvailmax | rbStatadd | rbStatread => cases h; exact .refl k _
  | _ => rw [exec_rb_of_owner (by simp [ownerOf]) h]; exact .refl k _

/-! ### The FIFO property (R168) -/

/-- A step returned `read` to cursor k and stored `stored`: the bytes k had not read, followed by those stored, are
those it was returned, followed by those it has still not read. -/
structure RB.Flow (k : Nat) (rb rb' : RB) (read stored : List Byte) : Prop where
  created : rb'.created = rb.created
  held : rb'.held k = rb.held k
  content : read ++ rb'.content k = rb.content k ++ stored

theorem RB.Undisturbed.flow (h : RB.Undisturbed k rb rb') : RB.Flow k rb rb' [] [] :=
  ⟨h.created, h.held, by rw [h.content, List.nil_append, List.append_nil]⟩

/-- RB.UNLOCK of k, too, moves no byte. -/
theorem RB.unlock_flow (rb : RB) (j k : Nat) : RB.Flow k rb (rb.lockHandle false j) [] [] := by
  have hs := rb.lockHandle_sameButBits false j
  exact ⟨hs.created, RB.held_congr hs.n (rb.lockHandle_taken _ _) k,
    by rw [hs.content_eq, List.nil_append, List.append_nil]⟩

/-- A read takes the bytes it returns off the front of what its cursor has not read. -/
theorem RB.read_flow (hi : rb.Inv par) (hc : rb.created = true) (hk : rb.present k = true) (n : Nat) :
    RB.Flow k rb (rb.read k n).1 (rb.read k n).2 [] where
  created := (rb.read_sameButCursors k n).shape.created
  held := rb.held_read k n k
  content := by
    have hl : rb.Live par := hi.live hc
    have hx : k < rb.x.length := hi.sized.lt_x (hl.present_le_nmax hk)
    rcases RB.read_cases rb k n with ⟨-, he⟩ | ⟨-, he⟩ <;> rw [he, List.append_nil]
    · rfl
    · have htake : (rb.content k).take n = (rb.content k).take (min n (rb.unread k)) := by
        rw [← RB.length_content, List.take_eq_take_min]
      rw [(RB.read_content hl hx (Nat.min_le_right n _)).2, htake, List.take_append_drop]

/-- An add that was refused, or found room behind k, gives k the bytes it stored. -/
theorem RB.AddOutcome.flow {d : List Byte} {b : Bool} (h : rb.AddOutcome par d (rb', b)) (hi : rb.Inv par)
    (hc : rb.created = true) (hk : rb.present k = true) (hfit : b = true → rb.unread k + d.length ≤ rb.capacity) :
    RB.Flow k rb rb' [] (if b = true then d else []) := by
  cases h with
  | refused => exact (RB.Undisturbed.refuseAdd k rb par d.length).flow
  | stored => exact ⟨rfl, rfl, RB.reclaim_put_content_of_fits hi hc hk (hfit rfl)⟩

/-- What a command returned to cursor k; `t` is the state after it. -/
def returnedTo (k : Nat) (i : Instr) (t : State) : List Byte := if readsCursor k i = true then t.port.out else []

/-- What a command stored in the ring buffer; `t` is the state after it. -/
def storedBy (i : Instr) (t : State) : List Byte := if t.port.result = some 1 then offered i else []

theorem returnedTo_of_not_reads {i : Instr} (h : readsCursor k i = false) (t : State) : returnedTo k i t = [] := by
  simp [returnedTo, h]

theorem storedBy_of_not_add {i : Instr} (h : ¬ isAdd i) (t : State) : storedBy i t = [] := by
  have hoffered : offered i = [] := by
    cases i with
    | rbAdd d => exact absurd ⟨d, .inr rfl⟩ h
    | rbFadd d => exact absurd ⟨d, .inl rfl⟩ h
    | _ => rfl
  rw [storedBy, hoffered, ite_self]

theorem not_reads_of_isAdd {i : Instr} (h : isAdd i) (k : Nat) : readsCursor k i = false := by
  obtain ⟨d, rfl | rfl⟩ := h <;> rfl

theorem boolWord_eq_one_iff (b : Bool) : some (boolWord b) = some 1 ↔ b = true := by cases b <;> decide

section

variable {i : Instr} {s t : State} (hs : s.Inv) (hc : s.rb.created = true) (hk : s.rb.present k = true)
  (h : exec i s = .next t)
include hs hc hk h

theorem exec_flow_of_isAdd (hadd : isAdd i)
    (hfit : t.port.result = some 1 → s.rb.unread k + (offered i).length ≤ s.rb.capacity) :
    RB.Flow k s.rb t.rb (returnedTo k i t) (storedBy i t) := by
  rw [returnedTo_of_not_reads (not_reads_of_isAdd hadd k)]
  obtain ⟨d, hi⟩ := hadd
  have hoffered : offered i = d := by rcases hi with rfl | rfl <;> rfl
  have hadds : exec (.rbFadd d) s = .next t ∨ exec (.rbAdd d) s = .next t := by
    rcases hi with rfl | rfl
    · exact .inl h
    · exact .inr h
  obtain ⟨b, houtcome, hresult⟩ := exec_adds_outcome (hs.rb.live hc) hc hadds
  rw [hoffered, hresult, boolWord_eq_one_iff] at hfit
  simpa only [storedBy, hoffered, hresult, boolWord_eq_one_iff] using houtcome.flow hs.rb hc hk hfit

theorem exec_flow_of_reads (hread : readsCursor k i = true) :
    RB.Flow k s.rb t.rb (returnedTo k i t) (storedBy i t) := by
  rw [storedBy_of_not_add fun hadd => by simp [not_reads_of_isAdd hadd k] at hread, returnedTo, if_pos hread]
  cases i with
  | rbRead n =>
    obtain rfl : k = 0 := of_decide_eq_true hread
    cases h; exact RB.read_flow hs.rb hc hk _
  | rbReadh j n =>
    obtain rfl : k = j.toNat := of_decide_eq_true hread
    cases h; exact RB.read_flow hs.rb hc hk _
  | _ => exact absurd hread Bool.false_ne_true

/-- Any command that leaves the buffer and cursor k in being, and reclaims nothing from k. -/
theorem exec_flow (hi : sparesCursor k i)
    (hfit : t.port.result = some 1 → s.rb.unread k + (offered i).length ≤ s.rb.capacity) :
    RB.Flow k s.rb t.rb (returnedTo k i t) (storedBy i t) := by
  by_cases hadd : isAdd i
  · exact exec_flow_of_isAdd hs hc hk h hadd hfit
  by_cases hread : readsCursor k i = true
  · exact exec_flow_of_reads hs hc hk h hread
  rw [Bool.not_eq_true] at hread
  rw [returnedTo_of_not_reads hread, storedBy_of_not_add hadd]
  by_cases hunlock : ∃ j, i = .rbUnlock j
  · obtain ⟨j, rfl⟩ := hunlock
    rw [exec_rbUnlock] at h
    cases h; exact s.rb.unlock_flow _ k
  · have hreadh : ∀ j n, i = .rbReadh j n → k ≠ j.toNat := by
      rintro j n rfl; exact of_decide_eq_false hread
    exact (exec_undisturbed hs hc hk ⟨hi, fun j he => absurd ⟨j, he⟩ hunlock, hreadh⟩ hadd hread h).flow

end

/-- Every command completes (60_exceptions.md R340). -/
theorem exec_next (i : Instr) (s : State) : ∃ t, exec i s = .next t := by
  cases i <;> exact ⟨_, rfl⟩

/-- Settles O25, by induction on the run: each command takes what it returns off the front and adds what it stores at
the back. -/
theorem cursorIsFifo : Obligations.CursorIsFifo := by
  intro is
  induction is with
  | nil =>
    intro s t k _ _ _ _ _ h
    cases h
    simp [drained, accepted]
  | cons i is ih =>
    intro s t k hs hc hk hspares hnever h
    obtain ⟨u, hu⟩ := exec_next i s
    simp only [execSeq, NeverReclaims, hu] at h hnever
    obtain ⟨hfit, hnever⟩ := hnever
    have hflow := exec_flow hs hc hk hu (hspares i List.mem_cons_self) hfit
    have hku : u.rb.present k = true := by rw [RB.present, hflow.held]; exact hk
    have hrest := ih u t k (exec_keeps hs hu).1 (hflow.created.trans hc) hku
      (fun j hj => hspares j (List.mem_cons_of_mem i hj)) hnever h
    have hdrained : drained k (i :: is) s = returnedTo k i u ++ drained k is u := by simp only [drained, hu, returnedTo]
    have haccepted : accepted (i :: is) s = storedBy i u ++ accepted is u := by simp only [accepted, hu, storedBy]
    calc drained k (i :: is) s ++ t.rb.content k
        = returnedTo k i u ++ (drained k is u ++ t.rb.content k) := by rw [hdrained, List.append_assoc]
      _ = (returnedTo k i u ++ u.rb.content k) ++ accepted is u := by rw [hrest, List.append_assoc]
      _ = s.rb.content k ++ accepted (i :: is) s := by rw [hflow.content, haccepted, List.append_assoc]

/-! ### The lock property (R170) -/

theorem RB.locked_iff (rb : RB) (k : Nat) : rb.locked k = true ↔ rb.held k = true ∧ rb.lockBit k = true := by
  simp only [RB.locked, Bool.and_eq_true]

theorem RB.Undisturbed.spared (h : RB.Undisturbed k rb rb') (hk : rb.locked k = true) : RB.Spared k rb rb' where
  cursor := h.cursor
  lossOf := h.lossOf
  locked := by
    obtain ⟨hheld, hlock⟩ := (rb.locked_iff k).1 hk
    exact (rb'.locked_iff k).2 ⟨h.held.trans hheld, h.lockBit hlock⟩
  content := by rw [h.content]

/-- An add stores only where every locked cursor has room behind it (R150, R151). -/
theorem RB.AddOutcome.spared {d : List Byte} {b : Bool} (h : rb.AddOutcome par d (rb', b)) (hi : rb.Inv par)
    (hc : rb.created = true) (hk : rb.locked k = true) : RB.Spared k rb rb' := by
  cases h with
  | refused => exact (RB.Undisturbed.refuseAdd k rb par d.length).spared hk
  | stored fits =>
    obtain ⟨hcursor, hloss⟩ := RB.reclaim_put_of_fits (par := par) (fits k hk)
    refine ⟨hcursor, hloss, hk, ?_⟩
    rw [RB.reclaim_put_content_of_fits hi hc (RB.present_of_locked hk) (fits k hk)]
    exact List.prefix_append _ _

/-- A command that may not change a locked cursor k does not read through it: it is no cursor 0. -/
theorem not_reads_of_sparesLocked {i : Instr} (hi : sparesLocked k i) (hk : 1 ≤ k) : readsCursor k i = false := by
  obtain ⟨-, -, hreadh⟩ := hi
  cases i with
  | rbRead n => exact decide_eq_false (by omega)
  | rbReadh j n => exact decide_eq_false (hreadh j n rfl)
  | _ => rfl

theorem exec_spared {i : Instr} {s t : State} (hs : s.Inv) (hc : s.rb.created = true) (hk : s.rb.locked k = true)
    (hi : sparesLocked k i) (h : exec i s = .next t) : RB.Spared k s.rb t.rb := by
  by_cases hadd : isAdd i
  · obtain ⟨d, rfl | rfl⟩ := hadd
    · cases h; exact (RB.forceAdd_outcome hc d).spared hs.rb hc hk
    · cases h; exact (RB.add_outcome (hs.rb.live hc) hc d).spared hs.rb hc hk
  · have hread := not_reads_of_sparesLocked hi (RB.locked_bounds hk).1
    exact (exec_undisturbed hs hc (RB.present_of_locked hk) hi hadd hread h).spared hk

theorem RB.pumpAdd_spared (hi : rb.Inv par) (hc : rb.created = true) (hk : rb.locked k = true) (mode : PumpMode)
    (b : Byte) : RB.Spared k rb (rb.pumpAdd par mode b) := by
  cases mode with
  | off => exact (RB.Undisturbed.refl k rb).spared hk
  | add => exact (RB.add_outcome (hi.live hc) hc [b]).spared hi hc hk
  | forceAdd => exact (RB.forceAdd_outcome hc [b]).spared hi hc hk

/-- A PUMP step adds a byte or does nothing (46_uart_link.md R317). -/
theorem State.pumpStep_rb_cases (s : State) :
    s.pumpStep.rb = s.rb ∨ ∃ b, s.pumpStep.rb = s.rb.pumpAdd s.par s.link.pump b := by
  unfold State.pumpStep
  split
  · split
    · exact .inl rfl
    · exact .inr ⟨_, rfl⟩
  · exact .inl rfl

/-- A DRAIN step reads a byte through the DRAIN's cursor or does nothing (46_uart_link.md R319). -/
theorem State.drainStep_rb_cases (s : State) :
    s.drainStep.rb = s.rb ∨ s.drainStep.rb = (s.rb.read s.link.drainCur.toNat 1).1 := by
  unfold State.drainStep
  split
  · dsimp only
    split <;> exact .inr rfl
  · exact .inl rfl

@[simp] theorem State.complete_rb (s : State) (cls id : Byte) (body : List Byte) : (s.complete cls id body).rb = s.rb := by
  unfold State.complete
  dsimp only
  split
  · split <;> rfl
  · rfl

/-- An ENGINE step does not touch the ring buffer (45_ubx_engine.md R290). -/
@[simp] theorem State.engineStep_rb (s : State) : s.engineStep.rb = s.rb := by
  unfold State.engineStep
  split
  · rfl
  · split
    · rfl
    · split
      · rfl
      · dsimp only
        split
        · exact State.complete_rb _ _ _ _
        · rfl

/-- A read through cursor k itself leaves k's lock, its loss counter and what it has still not read. -/
theorem RB.read_keeps_locked (hi : rb.Inv par) (hc : rb.created = true) (hk : rb.locked k = true) (n : Nat) :
    (rb.read k n).1.locked k = true ∧ (rb.read k n).1.lossOf k = rb.lossOf k ∧
      ∃ read, rb.content k = read ++ (rb.read k n).1.content k := by
  have hs := rb.read_sameButCursors k n
  have hflow := RB.read_flow hi hc (RB.present_of_locked hk) n
  exact ⟨(RB.locked_congr hs.shape.n hs.shape.taken hs.shape.lock k).trans hk, rb.lossOf_read k n k, _,
    by rw [hflow.content, List.append_nil]⟩

theorem RB.Undisturbed.keeps_locked (h : RB.Undisturbed k rb rb') (hk : rb.locked k = true) :
    rb'.locked k = true ∧ rb'.lossOf k = rb.lossOf k ∧ ∃ read, rb.content k = read ++ rb'.content k :=
  ⟨(h.spared hk).locked, h.lossOf, [], by rw [h.content, List.nil_append]⟩

/-- A DRAIN step through another cursor leaves cursor k alone. -/
theorem State.drainStep_undisturbed {s : State} (hk : k ≠ s.link.drainCur.toNat) :
    RB.Undisturbed k s.rb s.drainStep.rb := by
  rcases s.drainStep_rb_cases with he | he <;> rw [he]
  · exact .refl k _
  · exact .read hk 1

theorem State.drainStep_keeps_locked {s : State} (hs : s.Inv) (hc : s.rb.created = true) (hk : s.rb.locked k = true) :
    s.drainStep.rb.locked k = true ∧ s.drainStep.rb.lossOf k = s.rb.lossOf k ∧
      ∃ read, s.rb.content k = read ++ s.drainStep.rb.content k := by
  by_cases hcur : k = s.link.drainCur.toNat
  · rcases s.drainStep_rb_cases with he | he <;> rw [he]
    · exact (RB.Undisturbed.refl k _).keeps_locked hk
    · rw [← hcur]; exact RB.read_keeps_locked hs.rb hc hk 1
  · exact (State.drainStep_undisturbed hcur).keeps_locked hk

/-- Settles O26, from what each command and each agent does as the locked cursor sees it. -/
theorem lockedBytesSurvive : Obligations.LockedBytesSurvive := by
  intro s k hs hc hk
  have hrefl : RB.Spared k s.rb s.rb := (RB.Undisturbed.refl k _).spared hk
  refine ⟨fun i hi => ?_, ?_, ?_, fun _ _ => hrefl, fun hcur => (State.drainStep_undisturbed hcur).spared hk,
    State.drainStep_keeps_locked hs hc hk⟩
  · obtain ⟨t, h⟩ := exec_next i s
    exact ⟨t, h, exec_spared hs hc hk hi h⟩
  · rcases s.pumpStep_rb_cases with he | ⟨b, he⟩ <;> rw [he]
    · exact hrefl
    · exact RB.pumpAdd_spared hs.rb hc hk _ b
  · rw [s.engineStep_rb]; exact hrefl

end Sys2Proof.Machine
end

section
/-!
Room in the ring buffer and its loss counters (41_rb_data.md R159 to R162): what the two space queries answer, that
the adds take exactly that much, and what the two counter queries post.
-/

namespace Sys2Proof.Machine

open Host

/-! ### Room behind the furthest-behind of some cursors (00_scope.md R9) -/

section

variable {rb : RB} {p : Nat → Bool}

theorem RB.maxUnread_le_capacity (hs : 1 ≤ rb.size.toNat) (p : Nat → Bool) (m : Nat) : rb.maxUnread p m ≤ rb.capacity :=
  rb.maxUnread_le p fun k _ _ => RB.unread_le_capacity hs k

/-- As many bytes as the room left by the furthest-behind cursor fit behind each. -/
theorem RB.unread_add_room_le (hs : 1 ≤ rb.size.toNat) {k m : Nat} (hk : k ≤ m) (hp : p k = true) :
    rb.unread k + (rb.capacity - rb.maxUnread p m) ≤ rb.capacity := by
  have hle : rb.unread k ≤ rb.maxUnread p m := rb.le_maxUnread p hk hp
  have hmax : rb.maxUnread p m ≤ rb.capacity := RB.maxUnread_le_capacity hs p m
  omega

/-- The room is C, or some cursor has no more than that behind it. -/
theorem RB.room_attained (hs : 1 ≤ rb.size.toNat) (p : Nat → Bool) (m : Nat) :
    rb.capacity - rb.maxUnread p m = rb.capacity ∨
      ∃ k, p k = true ∧ rb.unread k + (rb.capacity - rb.maxUnread p m) = rb.capacity := by
  have hmax : rb.maxUnread p m ≤ rb.capacity := RB.maxUnread_le_capacity hs p m
  rcases rb.maxUnread_attained p m with h0 | ⟨k, -, hp, hk⟩
  · exact .inl (by omega)
  · exact .inr ⟨k, hp, by omega⟩

end

/-! ### What the space queries answer, and what the adds accept (R150, R151, R159, R160) -/

section

variable {s : State} (hc : s.rb.created = true)
include hc

theorem exec_rbAvail_of_created :
    exec .rbAvail s = .next { s with mutex := .free, port := ⟨some (BitVec.ofNat 32 s.rb.avail), []⟩ } := by
  rw [exec_rbAvail, if_pos hc]; rfl

theorem exec_rbAvailmax_of_created :
    exec .rbAvailmax s = .next { s with mutex := .free, port := ⟨some (BitVec.ofNat 32 s.rb.availmax), []⟩ } := by
  rw [exec_rbAvailmax, if_pos hc]; rfl

theorem exec_rbAdd_accepts_iff (d : List Byte) :
    (∃ t, exec (.rbAdd d) s = .next t ∧ t.port.result = some 1) ↔ d.length ≤ s.rb.avail := by
  constructor
  · rintro ⟨t, h, hr⟩
    by_contra hgt
    rw [exec_rbAdd_of_avail_lt hc (Nat.lt_of_not_le hgt)] at h
    cases h
    exact absurd hr (by simp)
  · exact fun h => ⟨_, exec_rbAdd_of_le_avail hc h, rfl⟩

theorem exec_rbFadd_accepts_iff (d : List Byte) :
    (∃ t, exec (.rbFadd d) s = .next t ∧ t.port.result = some 1) ↔
      ∀ k, s.rb.locked k = true → s.rb.unread k + d.length ≤ s.rb.capacity := by
  constructor
  · rintro ⟨t, h, hr⟩ k hk
    by_contra hgt
    rw [exec_rbFadd_of_blocked hc ⟨k, hk, Nat.lt_of_not_le hgt⟩] at h
    cases h
    exact absurd hr (by simp)
  · exact fun h => ⟨_, exec_rbFadd_of_fits hc h, rfl⟩

end

/-- Settles O30: `avail()` is the room behind the furthest-behind eligible cursor, which is what RB.ADD checks. -/
theorem availIsTheLargestAdd : Obligations.AvailIsTheLargestAdd := by
  intro s
  refine ⟨fun hc => by simp [exec_rbAvail, hc], fun hc hl => ⟨s.rb.avail, exec_rbAvail_of_created hc, ?_, ?_, ?_⟩⟩
  · exact fun k hk => RB.unread_add_room_le hl.size_pos (RB.eligible_le hk) hk
  · exact RB.room_attained hl.size_pos s.rb.eligible s.rb.n.toNat
  · exact exec_rbAdd_accepts_iff hc

/-- Every locked cursor has room behind it for exactly the lengths up to `availmax()`, if there is such a cursor. -/
theorem RB.locked_fits_iff {rb : RB} (hs : 1 ≤ rb.size.toNat) (n : Nat) :
    (∀ k, rb.locked k = true → rb.unread k + n ≤ rb.capacity) ↔ ((∃ k, rb.locked k = true) → n ≤ rb.availmax) := by
  constructor
  · rintro hfits ⟨k, hk⟩
    rcases RB.room_attained hs rb.locked rb.n.toNat with hroom | ⟨j, hj, hroom⟩
    · have := hfits k hk
      unfold RB.availmax; omega
    · have := hfits j hj
      unfold RB.availmax; omega
  · intro hle k hk
    have hn : n ≤ rb.availmax := hle ⟨k, hk⟩
    have hroom : rb.unread k + rb.availmax ≤ rb.capacity := RB.unread_add_room_le hs (RB.locked_bounds hk).2 hk
    omega

/-- Every locked cursor is eligible, so none is further behind than the furthest-behind eligible one. -/
theorem RB.avail_le_availmax (rb : RB) : rb.avail ≤ rb.availmax := by
  have hmax : rb.maxUnread rb.locked rb.n.toNat ≤ rb.maxUnread rb.eligible rb.n.toNat :=
    rb.maxUnread_le _ fun k hk hlocked => rb.le_maxUnread _ hk (RB.eligible_of_locked hlocked)
  unfold RB.avail RB.availmax
  omega

/-- Settles O31: `availmax()` is the room behind the furthest-behind locked cursor, which is what RB.FADD checks. -/
theorem availmaxIsTheLargestForcedAdd : Obligations.AvailmaxIsTheLargestForcedAdd := by
  intro s
  refine ⟨fun hc => by simp [exec_rbAvailmax, hc],
    fun hc hl => ⟨s.rb.availmax, exec_rbAvailmax_of_created hc, ?_, ?_, fun d => ?_, s.rb.avail_le_availmax⟩⟩
  · exact fun k hk => RB.unread_add_room_le hl.size_pos (RB.locked_bounds hk).2 hk
  · exact RB.room_attained hl.size_pos s.rb.locked s.rb.n.toNat
  · exact (exec_rbFadd_accepts_iff hc d).trans (RB.locked_fits_iff hl.size_pos _)

/-! ### RB.STATADD and RB.STATREAD (R161, R162) -/

/-- Whose counter RB.STATREAD posts: cursor 0's, and that of an acquired handle. -/
theorem RB.statreadable_iff (rb : RB) (h : Byte) :
    (rb.created && (decide (h.toNat = 0) || rb.validh h.toNat)) = true ↔
      rb.created = true ∧ (h = 0 ∨ rb.held h.toNat = true) := by
  have hzero : h.toNat = 0 ↔ h = 0 := by simp [← BitVec.toNat_inj]
  simp only [RB.validh, Bool.and_eq_true, Bool.or_eq_true, decide_eq_true_eq, hzero]
  tauto

/-- Settles O32, from the equations of the two commands. -/
theorem countersAreRead : Obligations.CountersAreRead := by
  intro s
  refine ⟨exec_rbStatadd s, fun h => ?_⟩
  simp only [exec_rbStatread, RB.statreadable_iff, Loss.word, countWord]

end Sys2Proof.Machine
end

section
/-!
The EDM parser's commands (42_edm_parser.md): each command as an equation on the state, what one byte does in each
state of the parser (R191 to R195, R205), and what the commands that look at the latched event post (R206, R208, R212).
-/

namespace Sys2Proof.Machine

open Host

section

variable {e e' : Edm} {par : Config.Params} {d : Bool} {b : Byte} {ev : Event} {s : State}

/-! ### The commands in terms of the parser -/

/-- EDM.PARSE posts the event that the parser's operation returns. -/
theorem exec_edmParse_of {r : Option Event} (h : s.edm.parse s.par b s.env.heapOk = (e', r)) :
    exec (.edmParse b) s = .next { s with edm := e', port := ⟨some (kindCode r), ser r⟩ } := by
  rw [exec_edmParse, h]

/-- A byte that completes no frame posts 0 and no data (R190). -/
theorem exec_edmParse_of_none (h : s.edm.parse s.par b s.env.heapOk = (e', none)) :
    exec (.edmParse b) s = .next { s with edm := e', port := ⟨some 0, []⟩ } :=
  exec_edmParse_of h

theorem exec_edmReady (s : State) : exec .edmReady s = .next { s with port := ⟨some (boolWord s.edm.ready), []⟩ } := rfl

theorem exec_edmReset (s : State) : exec .edmReset s = .next { s with edm := s.edm.reset, port := ⟨some 0, []⟩ } := rfl

theorem exec_edmEvent (s : State) :
    exec .edmEvent s = .next { s with port := ⟨some (kindCode s.edm.latched), ser s.edm.latched⟩ } := rfl

theorem exec_edmEvdata (m : Half) (s : State) : exec (.edmEvdata m) s =
    .next { s with port := ⟨some (BitVec.ofNat 32 (s.edm.eventData m.toNat).length), s.edm.eventData m.toNat⟩ } := rfl

/-! ### One byte in states 1, 2 and 3 -/

theorem Edm.onLength_high (h : e.lenCnt = 0) (par : Config.Params) (b : Byte) (d : Bool) :
    e.onLength par b d = { e with len := halfOf b 0, lenCnt := 1 } := by
  rw [Edm.onLength, if_pos h]

theorem Edm.onLength_low (h : e.lenCnt = 1) (par : Config.Params) (b : Byte) (d : Bool) :
    e.onLength par b d = Edm.lengthComplete { e with len := e.len ||| halfOf 0 b } par d := by
  rw [Edm.onLength, if_neg (by simp [h])]

/-- Which declared lengths start a frame (R193). -/
theorem Edm.lengthComplete_eq (e : Edm) (par : Config.Params) (d : Bool) : e.lengthComplete par d =
    if e.len.toNat < Config.edmMinLen ∨ par.edmMaxLen < e.len.toNat ∨
        (Config.edmStack < e.len.toNat ∧ ¬ heapAnswer par d = true)
    then { e with state := .parseStartByte }
    else { e with heap := decide (Config.edmStack < e.len.toNat), cnt := 0, state := .accumulatePayload } := by
  unfold Edm.lengthComplete
  by_cases hmin : e.len.toNat < Config.edmMinLen
  · rw [if_pos hmin, if_pos (.inl hmin)]
  by_cases hmax : par.edmMaxLen < e.len.toNat
  · rw [if_neg hmin, if_pos hmax, if_pos (.inr (.inl hmax))]
  by_cases hbig : Config.edmStack < e.len.toNat
  · by_cases hheap : heapAnswer par d = true <;> simp [hmin, hmax, hbig, hheap]
  · simp [hmin, hmax, hbig]

theorem Edm.onPayload_eq (h : e.state = .accumulatePayload) (b : Byte) : e.onPayload b =
    { e with
      buf := e.buf.write e.cnt.toNat b, cnt := e.cnt + 1
      state := if e.cnt + 1 = e.len then .parseTailByte else .accumulatePayload } := by
  rw [Edm.onPayload, h]

/-- A tail byte other than 0x55 discards the frame (R195). -/
theorem Edm.parse_wrong_tail (hs : e.state = .parseTailByte) (hb : b ≠ Config.edmTail) (par : Config.Params) (d : Bool) :
    e.parse par b d = (e.abort, none) := by
  rw [Edm.parse_tail hs, Edm.onTail, if_pos hb]

/-! ### Where an event comes from -/

/-- An event is returned in state 3 alone, and it is then the one latched (R195, R205). -/
theorem Edm.parse_event_cases (e : Edm) (par : Config.Params) (b : Byte) (d : Bool) :
    (e.parse par b d).2 = none ∨
    ∃ ev, e.parse par b d = ({ e with event := some ev, state := .waitForEventProcessing }, some ev) := by
  cases hs : e.state with
  | parseStartByte => exact .inl (by rw [Edm.parse_start hs])
  | parsePayloadLength => exact .inl (by rw [Edm.parse_length hs])
  | accumulatePayload => exact .inl (by rw [Edm.parse_payload hs])
  | parseTailByte =>
    rw [Edm.parse_tail hs]
    rcases Edm.onTail_cases e par b with ⟨-, h⟩ | ⟨-, -, h⟩ | ⟨ev, -, -, h⟩
    · exact .inl (by rw [h])
    · exact .inl (by rw [h])
    · exact .inr ⟨ev, h⟩
  | waitForEventProcessing => exact .inl (by rw [Edm.parse_wait hs])

/-! ### The latched event, and its slice of the frame buffer -/

theorem Edm.latched_of_waiting (h : e.state = .waitForEventProcessing) : e.latched = e.event := if_pos h

theorem Edm.latched_of_not_waiting (h : e.state ≠ .waitForEventProcessing) : e.latched = none := if_neg h

theorem Edm.eventData_of_not_waiting (h : e.state ≠ .waitForEventProcessing) (m : Nat) : e.eventData m = [] := by
  rw [Edm.eventData, Edm.latched_of_not_waiting h]

/-- Only Data and AT events have a slice (R208). -/
theorem Edm.eventData_of_no_slice (hev : e.event = some ev)
    (h : ∀ ch off len, ev ≠ .data ch off len ∧ ev ≠ .atText ch off len) (m : Nat) : e.eventData m = [] := by
  by_cases hs : e.state = .waitForEventProcessing
  · rw [Edm.eventData, Edm.latched_of_waiting hs, hev]
    cases ev with
    | data ch off len => exact absurd rfl (h ch off len).1
    | atText ch off len => exact absurd rfl (h ch off len).2
    | _ => rfl
  · exact Edm.eventData_of_not_waiting hs m

theorem Edm.eventData_of_slice (hs : e.state = .waitForEventProcessing) (hev : e.event = some ev) {ch : Byte} {off len : Half}
    (h : ev = .data ch off len ∨ ev = .atText ch off len) (m : Nat) :
    e.eventData m = e.buf.slice off.toNat (min m len.toNat) := by
  rw [Edm.eventData, Edm.latched_of_waiting hs, hev]
  rcases h with rfl | rfl <;> rfl

end

/-! ### The obligations of the single commands -/

/-- Settles O33: one case per byte of the frame's head. -/
theorem parseHeadAndLength : Obligations.ParseHeadAndLength := by
  intro b s
  refine ⟨fun hs => ?_, fun hs hc => ?_, fun hs hc len hlen => ?_⟩
  · exact exec_edmParse_of_none (Edm.parse_start hs ..)
  · refine exec_edmParse_of_none ?_
    rw [Edm.parse_length hs, Edm.onLength_high hc, halfOf_zero_right]
  · refine exec_edmParse_of_none ?_
    rw [Edm.parse_length hs, Edm.onLength_low hc, halfOf_zero_left, ← hlen, Edm.lengthComplete_eq]
    simp only [heapAnswer_iff]

/-- Settles O34, from what a byte does in each of the three states. -/
theorem parsePayloadTailAndWait : Obligations.ParsePayloadTailAndWait := by
  intro b s
  refine ⟨fun hs hwf => ⟨_, fun a => Memory.read_write _ a b hwf, exec_edmParse_of_none ?_⟩, fun hs hb => ?_,
    fun hs => ?_⟩
  · rw [Edm.parse_payload hs, Edm.onPayload_eq hs]
  · exact exec_edmParse_of_none (Edm.parse_wrong_tail hs hb ..)
  · exact exec_edmParse_of_none (Edm.parse_wait hs ..)

/-- Settles O36: what may be looked at is the latched event and its slice. -/
theorem eventCommandsOnlyLook : Obligations.EventCommandsOnlyLook := by
  intro s m
  refine ⟨?_, ?_, _, exec_edmEvdata m s, fun hs => Edm.eventData_of_not_waiting hs _, fun ev hev hs => ⟨fun hno =>
    Edm.eventData_of_no_slice hev hno _, fun ch off len hslice => ?_⟩⟩
  · rw [exec_edmReady]
    by_cases hs : s.edm.state = .waitForEventProcessing <;> simp [Edm.ready, boolWord, hs]
  · rw [exec_edmEvent]
    by_cases hs : s.edm.state = .waitForEventProcessing
    · rw [if_pos hs, Edm.latched_of_waiting hs]
    · rw [if_neg hs, Edm.latched_of_not_waiting hs]
      rfl
  · rw [Edm.eventData_of_slice hs hev hslice]
    exact ⟨Memory.length_slice .., fun i hi => Memory.getElem?_slice _ _ _ _ (by simpa using hi)⟩

/-- Settles O38: the model leaves the frame buffer as it was, which R207 leaves open. -/
theorem resetStartsTheParserOver : Obligations.ResetStartsTheParserOver := fun s => ⟨s.edm.buf, exec_edmReset s⟩

/-- Settles O37: a result other than 0 is that of an event, which the parser has latched. -/
theorem eventIsRepeatedUntilReset : Obligations.EventIsRepeatedUntilReset := by
  intro b s t h hres
  rw [exec_edmParse] at h
  cases h
  rcases Edm.parse_event_cases s.edm s.par b s.env.heapOk with hnone | ⟨ev, hev⟩
  · exact absurd (by rw [hnone]; rfl) hres
  · rw [hev]
    exact ⟨rfl, fun b' => rfl, _, exec_edmReset _, rfl⟩

end Sys2Proof.Machine
end

section
/-!
The dispatch of a frame with a good tail (42_edm_parser.md R195 to R204) and what its event posts (R209): the bytes an
event posts are slices of the frame buffer.
-/

namespace Sys2Proof.Machine

open Host

/-! ### Slices of the frame buffer -/

theorem Memory.slice_add (m : Memory) : ∀ off a b : Nat, m.slice off (a + b) = m.slice off a ++ m.slice (off + a) b
  | _, 0, _ => by simp [Memory.slice]
  | off, a + 1, b => by
    rw [show a + 1 + b = (a + b) + 1 by omega]
    simp only [Memory.slice, List.cons_append, Memory.slice_add m (off + 1) a b]
    rw [show off + 1 + a = off + (a + 1) by omega]

theorem Memory.take_slice (m : Memory) (off : Nat) {k n : Nat} (h : k ≤ n) : (m.slice off n).take k = m.slice off k := by
  obtain ⟨j, rfl⟩ := Nat.exists_eq_add_of_le h
  rw [Memory.slice_add, List.take_left' (m.length_slice off k)]

theorem Memory.drop_slice (m : Memory) (off : Nat) {k n : Nat} (h : k ≤ n) :
    (m.slice off n).drop k = m.slice (off + k) (n - k) := by
  obtain ⟨j, rfl⟩ := Nat.exists_eq_add_of_le h
  rw [Memory.slice_add, List.drop_left' (m.length_slice off k), Nat.add_sub_cancel_left]

section

variable (m : Memory) (o : Nat)

/-- A field of the sub-payload, whose byte 0 stands at index 2 of the frame buffer, is a slice of that buffer. -/
theorem toList_field (k : Nat) : (field (fun i => m.read (i + 2)) o k).toList = m.slice (o + 2) k := by
  apply List.ext_getElem?
  intro i
  by_cases h : i < k
  · rw [Memory.getElem?_slice m _ _ _ h]
    simp [field, h, Nat.add_right_comm]
  · rw [List.getElem?_eq_none (by simp; omega), List.getElem?_eq_none (by simp; omega)]

theorem bigEndian_field16 : bigEndian (field16 (fun i => m.read (i + 2)) o) = m.slice (o + 2) 2 := by
  rw [field16, bigEndian_halfOf, Nat.add_right_comm o 1 2]
  rfl

/-- A connect event posts the channel and what follows the connection type (R197 to R199). -/
theorem take_append_slice {k n : Nat} (h : k + 2 ≤ n) :
    (m.slice 2 n).take 1 ++ ((m.slice 2 n).drop 2).take k = m.read 2 :: m.slice 4 k := by
  rw [m.take_slice 2 (by omega : 1 ≤ n), m.drop_slice 2 (by omega : 2 ≤ n), m.take_slice _ (by omega : k ≤ n - 2)]
  rfl

end

/-! ### The event of each type header -/

/-- `r` is what a frame of that kind gives: nothing for kind 0, and otherwise an event with that kind code whose
fields are posted as R209 lays them out of the sub-payload `p`. -/
def IsEventOf (p : List Byte) (kind : Nat) : Option Event → Prop
  | none => kind = 0
  | some ev => kind ≠ 0 ∧ kindCode (some ev) = BitVec.ofNat 32 kind ∧ ser (some ev) = frameOut p kind

section

variable {par : Config.Params} (m : Memory) {plen : Nat}

/-- A header whose event hangs on a condition gives nothing where the condition fails. -/
theorem isEventOf_ite {p : List Byte} {kind : Nat} {ev : Event} {c : Prop} [Decidable c] (h : c → IsEventOf p kind (some ev)) :
    IsEventOf p (if c then kind else 0) (if c then some ev else none) := by
  by_cases hc : c
  · rw [if_pos hc, if_pos hc]; exact h hc
  · rw [if_neg hc, if_neg hc]; rfl

theorem connectBT_isEventOf (hmin : 11 ≤ par.pBt) :
    IsEventOf (m.slice 2 plen) (if plen = par.pBt then 1 else 0) (connectBT par plen fun i => m.read (i + 2)) :=
  isEventOf_ite fun hp => by
    refine ⟨by decide, rfl, ?_⟩
    rw [ser, frameOut, toList_field, bigEndian_field16, take_append_slice m (by omega)]
    rfl

theorem connectIPv4_isEventOf (hmin : 15 ≤ par.pIpv4) :
    IsEventOf (m.slice 2 plen) (if plen = par.pIpv4 then 2 else 0) (connectIPv4 par plen fun i => m.read (i + 2)) :=
  isEventOf_ite fun hp => by
    refine ⟨by decide, rfl, ?_⟩
    rw [ser, frameOut, toList_field, toList_field, bigEndian_field16, bigEndian_field16, take_append_slice m (by omega)]
    rfl

theorem connectIPv6_isEventOf (hmin : 39 ≤ par.pIpv6) :
    IsEventOf (m.slice 2 plen) (if plen = par.pIpv6 then 3 else 0) (connectIPv6 par plen fun i => m.read (i + 2)) :=
  isEventOf_ite fun hp => by
    refine ⟨by decide, rfl, ?_⟩
    rw [ser, frameOut, toList_field, toList_field, bigEndian_field16, bigEndian_field16, take_append_slice m (by omega)]
    rfl

/-- A connect frame, by its connection-type byte; one too short to hold that byte is shorter than every connect
frame of a legal build (R196). -/
theorem dispatchConnect_isEventOf (hpar : par.Legal) :
    IsEventOf (m.slice 2 plen) (frameKind par par.tConnect plen (m.read 3))
      (dispatchConnect par plen fun i => m.read (i + 2)) := by
  have hbt := hpar.pBt_ge
  have hv4 := hpar.pIpv4_ge
  have hv6 := hpar.pIpv6_ge
  obtain ⟨⟨hbt4, hbt6⟩, hv46⟩ : (par.ctBt ≠ par.ctIpv4 ∧ par.ctBt ≠ par.ctIpv6) ∧ par.ctIpv4 ≠ par.ctIpv6 := by
    simpa using hpar.ctypes
  rw [frameKind, if_pos rfl, dispatchConnect]
  by_cases hshort : plen < 2
  · rw [if_pos hshort, if_neg (by omega), if_neg (by omega), if_neg (by omega)]
    rfl
  rw [if_neg hshort, Nat.add_comm 1 2]
  by_cases h1 : m.read 3 = par.ctBt
  · simpa [h1, hbt4, hbt6] using connectBT_isEventOf m hbt
  by_cases h2 : m.read 3 = par.ctIpv4
  · simpa [h2, hbt4.symm, hv46] using connectIPv4_isEventOf m hv4
  by_cases h3 : m.read 3 = par.ctIpv6
  · simpa [h3, hbt6.symm, hv46.symm] using connectIPv6_isEventOf m hv6
  · simp [h1, h2, h3, IsEventOf]

theorem dispatchDisconnect_isEventOf :
    IsEventOf (m.slice 2 plen) (if plen = 1 then 4 else 0) (dispatchDisconnect plen fun i => m.read (i + 2)) :=
  isEventOf_ite fun hp => by
    subst hp
    exact ⟨by decide, rfl, rfl⟩

/-- A Data event's slice starts after the channel (R201). -/
theorem dispatchData_isEventOf :
    IsEventOf (m.slice 2 plen) (if 2 ≤ plen then 5 else 0) (dispatchData plen fun i => m.read (i + 2)) :=
  isEventOf_ite fun hp => by
    refine ⟨by decide, rfl, ?_⟩
    rw [ser, frameOut, m.take_slice 2 (by omega : 1 ≤ plen), m.length_slice]
    rfl

theorem dispatchAt_isEventOf : IsEventOf (m.slice 2 plen) 6 (dispatchAt plen) := by
  refine ⟨by decide, rfl, ?_⟩
  rw [ser, frameOut, m.length_slice]
  rfl

theorem dispatchStartup_isEventOf :
    IsEventOf (m.slice 2 plen) (if plen = 0 then 7 else 0) (dispatchStartup plen) :=
  isEventOf_ite fun _ => ⟨by decide, rfl, rfl⟩

/-- The dispatch table (R196, R204). -/
theorem dispatch_isEventOf (hpar : par.Legal) (hdr : Half) :
    IsEventOf (m.slice 2 plen) (frameKind par hdr plen (m.read 3)) (dispatch par hdr plen fun i => m.read (i + 2)) := by
  unfold dispatch
  by_cases h1 : hdr = par.tConnect
  · rw [if_pos h1, h1]
    exact dispatchConnect_isEventOf m hpar
  rw [frameKind, if_neg h1, if_neg h1]
  by_cases h2 : hdr = par.tDisconnect
  · rw [if_pos h2, if_pos h2]
    exact dispatchDisconnect_isEventOf m
  rw [if_neg h2, if_neg h2]
  by_cases h3 : hdr = par.tDataEvt ∨ hdr = par.tDataCmd
  · rw [if_pos h3, if_pos h3]
    exact dispatchData_isEventOf m
  rw [if_neg h3, if_neg h3]
  by_cases h4 : hdr = par.tAtEvt ∨ hdr = par.tAtRsp
  · rw [if_pos h4, if_pos h4]
    exact dispatchAt_isEventOf m
  rw [if_neg h4, if_neg h4]
  by_cases h5 : hdr = par.tStart
  · rw [if_pos h5, if_pos h5]
    exact dispatchStartup_isEventOf m
  · rw [if_neg h5, if_neg h5]
    rfl

end

/-! ### A good tail -/

section

variable {e : Edm} {par : Config.Params}

/-- A frame that gives no event is dropped (R195, R204). -/
theorem Edm.parse_tail_none (hs : e.state = .parseTailByte) (he : e.frameEvent par = none) (d : Bool) :
    e.parse par Config.edmTail d = (e.abort, none) := by
  rw [Edm.parse_tail hs, Edm.onTail, if_neg (not_not_intro rfl), he]

/-- A frame's event is latched and returned (R195). -/
theorem Edm.parse_tail_some (hs : e.state = .parseTailByte) {ev : Event} (he : e.frameEvent par = some ev) (d : Bool) :
    e.parse par Config.edmTail d = ({ e with event := some ev, state := .waitForEventProcessing }, some ev) := by
  rw [Edm.parse_tail hs, Edm.onTail, if_neg (not_not_intro rfl), he]

/-- Settles O35, from the dispatch table. -/
theorem dispatchGivesTheEvent : Obligations.DispatchGivesTheEvent := by
  rintro s hdr plen kind p hpar hs rfl hplen rfl rfl
  have hdispatch : s.edm.frameEvent s.par =
      dispatch s.par (s.edm.buf.read 0 ++ s.edm.buf.read 1) plen fun i => s.edm.buf.read (i + 2) := by
    rw [Edm.frameEvent, ← hplen]
    rfl
  have hev := dispatch_isEventOf (plen := plen) s.edm.buf hpar (s.edm.buf.read 0 ++ s.edm.buf.read 1)
  rw [← hdispatch] at hev
  cases he : s.edm.frameEvent s.par with
  | none =>
    rw [he] at hev
    exact ⟨fun _ => exec_edmParse_of_none (Edm.parse_tail_none hs he _), fun hk => absurd hev hk⟩
  | some ev =>
    rw [he] at hev
    obtain ⟨hk, hcode, hser⟩ := hev
    refine ⟨fun h0 => absurd h0 hk, fun _ => ⟨ev, hcode, hser, ?_⟩⟩
    rw [exec_edmParse_of (Edm.parse_tail_some hs he _), hcode, hser]

end

end Sys2Proof.Machine
end

section
/-!
A frame's bytes through the parser (42_edm_parser.md R211): a run of EDM.PARSE commands as a run of the parser's
operation, the frame's head and payload, and then its tail.
-/

namespace Sys2Proof.Machine

open Host

/-- The parser after a run of bytes, each fed with the heap answering `d`. -/
def Edm.feed (par : Config.Params) (d : Bool) (e : Edm) (bs : List Byte) : Edm :=
  bs.foldl (fun e b => (e.parse par b d).1) e

section

variable {e : Edm} {par : Config.Params} {d : Bool} {b : Byte} {s : State}

@[simp] theorem Edm.feed_nil (par : Config.Params) (d : Bool) (e : Edm) : e.feed par d [] = e := rfl

@[simp] theorem Edm.feed_cons (par : Config.Params) (d : Bool) (e : Edm) (b : Byte) (bs : List Byte) :
    e.feed par d (b :: bs) = (e.parse par b d).1.feed par d bs := rfl

@[simp] theorem Edm.feed_append (par : Config.Params) (d : Bool) (e : Edm) (a b : List Byte) :
    e.feed par d (a ++ b) = (e.feed par d a).feed par d b := List.foldl_append

/-- A waiting parser takes no byte (R205). -/
theorem Edm.feed_of_waiting (h : e.state = .waitForEventProcessing) (par : Config.Params) (d : Bool) :
    ∀ bs : List Byte, e.feed par d bs = e
  | [] => rfl
  | b :: bs => by rw [Edm.feed_cons, Edm.parse_wait h]; exact Edm.feed_of_waiting h par d bs

/-- A parser that does not wait after a run did not wait on the way. -/
theorem Edm.feed_not_waiting_of_append {a c : List Byte} (h : (e.feed par d (a ++ c)).state ≠ .waitForEventProcessing) :
    (e.feed par d a).state ≠ .waitForEventProcessing := by
  intro hw
  rw [Edm.feed_append, Edm.feed_of_waiting hw] at h
  exact h hw

/-! ### Runs of EDM.PARSE -/

/-- A run of EDM.PARSE runs the parser, and its last byte gives what is posted. -/
theorem execSeq_edmParse_concat (b : Byte) : ∀ (bs : List Byte) (s : State) {e' : Edm} {r : Option Event},
    (s.edm.feed s.par s.env.heapOk bs).parse s.par b s.env.heapOk = (e', r) →
    execSeq ((bs ++ [b]).map .edmParse) s = .next { s with edm := e', port := ⟨some (kindCode r), ser r⟩ }
  | [], s, e', r, h => by
    simp only [List.nil_append, List.map_cons, List.map_nil, execSeq, exec_edmParse_of h]
  | a :: bs, s, e', r, h => by
    simp only [List.cons_append, List.map_cons, execSeq, exec_edmParse]
    exact execSeq_edmParse_concat b bs _ h

/-- A run that does not end in a waiting parser ends with no event posted. -/
theorem execSeq_edmParse_of_not_waiting {bs : List Byte} (hne : bs ≠ [])
    (h : (s.edm.feed s.par s.env.heapOk bs).state ≠ .waitForEventProcessing) :
    execSeq (bs.map .edmParse) s =
      .next { s with edm := s.edm.feed s.par s.env.heapOk bs, port := ⟨some 0, []⟩ } := by
  obtain ⟨init, b, rfl⟩ := List.eq_nil_or_concat' bs |>.resolve_left hne
  have hlast : s.edm.feed s.par s.env.heapOk (init ++ [b]) =
      ((s.edm.feed s.par s.env.heapOk init).parse s.par b s.env.heapOk).1 := Edm.feed_append ..
  rcases Edm.parse_event_cases (s.edm.feed s.par s.env.heapOk init) s.par b s.env.heapOk with hnone | ⟨ev, hev⟩
  · exact execSeq_edmParse_concat b init s (Prod.ext hlast.symm hnone)
  · rw [hlast, hev] at h
    exact absurd rfl h

/-! ### A frame up to its tail byte -/

/-- The head marker and the two length bytes (R191 to R193). -/
theorem Edm.feed_length (hs : e.state = .parseStartByte) (par : Config.Params) (d : Bool) (hi lo : Byte) :
    e.feed par d [Config.edmHead, hi, lo] =
      Edm.lengthComplete { e with state := .parsePayloadLength, lenCnt := 1, len := halfOf hi lo } par d := by
  rw [Edm.feed_cons, Edm.parse_start hs, Edm.onStart, if_pos rfl, Edm.feed_cons, Edm.parse_length rfl,
    Edm.onLength_high rfl, Edm.feed_cons, Edm.parse_length rfl, Edm.onLength_low rfl, Edm.feed_nil, halfOf_or]

/-- A payload of the declared length is stored byte for byte, and the tail byte is next (R194). -/
theorem Edm.feed_payload (par : Config.Params) (d : Bool) : ∀ (p : List Byte) (e : Edm), e.state = .accumulatePayload →
    e.buf.wf = true → p ≠ [] → e.cnt.toNat + p.length = e.len.toNat →
    (e.feed par d p).state = .parseTailByte ∧ (e.feed par d p).len = e.len ∧
      (∀ a, a < e.cnt.toNat → (e.feed par d p).buf.read a = e.buf.read a) ∧
      (e.feed par d p).buf.slice e.cnt.toNat p.length = p
  | [], _, _, _, hne, _ => absurd rfl hne
  | b :: bs, e, hs, hwf, _, hlen => by
    have hcnt : (e.cnt + 1).toNat = e.cnt.toNat + 1 := by
      have := e.len.isLt
      simp only [List.length_cons] at hlen
      rw [BitVec.toNat_add]
      exact Nat.mod_eq_of_lt (by simp; omega)
    have hread := fun a => Memory.read_write e.cnt.toNat a b hwf
    rw [Edm.feed_cons, Edm.parse_payload hs, Edm.onPayload_eq hs]
    cases bs with
    | nil =>
      have hlast : e.cnt + 1 = e.len := BitVec.eq_of_toNat_eq (by rw [hcnt]; exact hlen)
      refine ⟨if_pos hlast, rfl, fun a ha => ?_, ?_⟩
      · exact (hread a).trans (if_neg (Nat.ne_of_lt ha))
      · exact congrArg (· :: []) ((hread e.cnt.toNat).trans (if_pos rfl))
    | cons c cs =>
      have hmore : e.cnt + 1 ≠ e.len := fun h => by
        rw [← h, hcnt] at hlen
        simp at hlen
      rw [if_neg hmore]
      obtain ⟨hstate, hlen', hbelow, hslice⟩ := Edm.feed_payload par d (c :: cs)
        { e with buf := e.buf.write e.cnt.toNat b, cnt := e.cnt + 1, state := .accumulatePayload } rfl
        (Memory.wf_write _ _ hwf) (by simp) (by simp only [hcnt]; simp only [List.length_cons] at hlen ⊢; omega)
      simp only [hcnt] at hbelow hslice
      refine ⟨hstate, hlen', fun a ha => ?_, ?_⟩
      · exact (hbelow a (by omega)).trans ((hread a).trans (if_neg (Nat.ne_of_lt ha)))
      · rw [List.length_cons, Memory.slice, hslice, hbelow _ (Nat.lt_succ_self _), hread, if_pos rfl]

/-- The parser holds the type header and the sub-payload of a frame whose tail byte is next. -/
structure Edm.AwaitsTail (e : Edm) (hdr : Half) (p : List Byte) : Prop where
  state : e.state = .parseTailByte
  len : e.len.toNat = p.length + 2
  header : halfOf (e.buf.read 0) (e.buf.read 1) = hdr
  payload : e.buf.slice 2 p.length = p

/-- A declared length that the build and the heap take starts the payload (R193). -/
theorem Edm.feed_length_taken (hs : e.state = .parseStartByte) {n : Nat} (hmin : Config.edmMinLen ≤ n) (hhalf : n < 65536)
    (hmax : n ≤ par.edmMaxLen) (hheap : n ≤ Config.edmStack ∨ heapAnswer par d = true) :
    ∃ e', e.feed par d (Config.edmHead :: bigEndian (BitVec.ofNat 16 n)) = e' ∧
      e'.state = .accumulatePayload ∧ e'.len.toNat = n ∧ e'.cnt = 0 ∧ e'.buf = e.buf := by
  have hlen : (BitVec.ofNat 16 n).toNat = n := by rw [BitVec.toNat_ofNat]; exact Nat.mod_eq_of_lt hhalf
  rw [bigEndian, Edm.feed_length hs, halfOf_hiByte_loByte, Edm.lengthComplete_eq, if_neg]
  · exact ⟨_, rfl, rfl, hlen, rfl, rfl⟩
  · simp only [hlen]
    rintro (h | h | ⟨h, hno⟩)
    · exact absurd hmin (Nat.not_le.2 h)
    · exact absurd hmax (Nat.not_le.2 h)
    · exact hno (hheap.resolve_left (Nat.not_le.2 h))

/-- The type header is the first two bytes of the frame buffer, and the sub-payload the others (R194, R195). -/
theorem Edm.feed_header_payload (par : Config.Params) (d : Bool) (hs : e.state = .accumulatePayload)
    (hwf : e.buf.wf = true) (hcnt : e.cnt = 0) (hdr : Half) {p : List Byte} (hlen : e.len.toNat = p.length + 2) :
    (e.feed par d (bigEndian hdr ++ p)).AwaitsTail hdr p := by
  obtain ⟨hstate, hlen', -, hslice⟩ := Edm.feed_payload par d (bigEndian hdr ++ p) e hs hwf (by simp [bigEndian])
    (by simp [hcnt, hlen, bigEndian])
  generalize e.feed par d (bigEndian hdr ++ p) = e' at *
  obtain ⟨h0, h1, hp⟩ : e'.buf.read 0 = hiByte hdr ∧ e'.buf.read 1 = loByte hdr ∧ e'.buf.slice 2 p.length = p := by
    simpa [hcnt, bigEndian, Memory.slice] using hslice
  exact ⟨hstate, by rw [hlen', hlen], by rw [h0, h1, halfOf_hiByte_loByte], hp⟩

/-- A frame of any type header and sub-payload, up to its tail byte (R191 to R194). -/
theorem Edm.feed_frame (hs : e.state = .parseStartByte) (hwf : e.buf.wf = true) (hdr : Half) {p : List Byte}
    (hhalf : p.length + 2 < 65536) (hmax : p.length + 2 ≤ par.edmMaxLen)
    (hheap : p.length + 2 ≤ Config.edmStack ∨ heapAnswer par d = true) :
    (e.feed par d (frameHead (p.length + 2) hdr ++ p)).AwaitsTail hdr p := by
  obtain ⟨e', he', hstate, hlen, hcnt, hbuf⟩ := Edm.feed_length_taken hs (Nat.le_add_left 2 _) hhalf hmax hheap
  have hsplit : frameHead (p.length + 2) hdr ++ p =
      Config.edmHead :: bigEndian (BitVec.ofNat 16 (p.length + 2)) ++ (bigEndian hdr ++ p) := by
    simp [frameHead]
  rw [hsplit, Edm.feed_append, he']
  exact Edm.feed_header_payload par d hstate (hbuf ▸ hwf) hcnt hdr hlen

/-- The event of a complete frame is that of its type header and sub-payload (R195). -/
theorem Edm.AwaitsTail.frameEvent {hdr : Half} {p : List Byte} (h : e.AwaitsTail hdr p) (par : Config.Params) :
    e.frameEvent par = dispatch par hdr p.length fun i => e.buf.read (i + 2) := by
  rw [Edm.frameEvent, h.header, h.len, Nat.add_sub_cancel]

/-! ### Data frames -/

/-- On a legal build the data header is not taken for a connection's (R196). -/
theorem dispatch_tDataCmd (hpar : par.Legal) (plen : Nat) (p : Nat → Byte) :
    dispatch par par.tDataCmd plen p = dispatchData plen p := by
  have htypes := hpar.types_cmd
  simp only [List.nodup_cons, List.mem_cons, not_or] at htypes
  obtain ⟨⟨-, hconnect, -⟩, ⟨hdisconnect, -⟩, -⟩ := htypes
  rw [dispatch, if_neg (Ne.symm hconnect), if_neg (Ne.symm hdisconnect), if_pos (.inr rfl)]

theorem dataFrame_eq (par : Config.Params) (ch : Byte) (d : List Byte) :
    dataFrame par ch d = frameHead ((ch :: d).length + 2) par.tDataCmd ++ (ch :: d) ++ [Config.edmTail] := by
  simp [dataFrame, dataHead]

theorem length_dataFrame (par : Config.Params) (ch : Byte) (d : List Byte) : (dataFrame par ch d).length = d.length + 7 := by
  simp [dataFrame, dataHead, frameHead, bigEndian]

/-- EDM.ENCDATA gives the whole frame for every payload within the maximum (R231). -/
theorem exec_edmEncdata_of_le {s : State} (ch : Byte) {d : List Byte} (h : d.length + 3 ≤ s.par.edmMaxLen) :
    exec (.edmEncdata ch d) s =
      .next { s with port := ⟨some (BitVec.ofNat 32 (d.length + 7)), dataFrame s.par ch d⟩ } := by
  have hpost : s.postFrame (d.length + 3) (dataFrame s.par ch d) =
      s.post (countWord (dataFrame s.par ch d).length) (dataFrame s.par ch d) := if_neg (Nat.not_lt.2 h)
  rw [length_dataFrame] at hpost
  exact congrArg Outcome.next hpost

end

section

variable {e : Edm} {par : Config.Params} {ch : Byte} {d : List Byte}

/-- A data frame's event is a Data event whose slice starts after the channel (R201). -/
theorem Edm.AwaitsTail.frameEvent_data (h : e.AwaitsTail par.tDataCmd (ch :: d)) (hpar : par.Legal) (hd : 1 ≤ d.length) :
    e.frameEvent par = some (.data ch 3 (BitVec.ofNat 16 d.length)) ∧ e.buf.slice 3 d.length = d := by
  obtain ⟨hch, hslice⟩ := List.cons.inj h.payload
  refine ⟨?_, hslice⟩
  rw [h.frameEvent, dispatch_tDataCmd hpar, dispatchData, if_pos (by simp; omega), hch]
  rfl

end

/-- EDM.EVDATA with room for it posts the whole slice of a waiting Data or AT event (R208). -/
theorem exec_edmEvdata_whole_slice {s : State} (hs : s.edm.state = .waitForEventProcessing) {ev : Event}
    (hev : s.edm.event = some ev) {out : List Byte} {ch : Byte} {off : Half}
    (h : ev = .data ch off (BitVec.ofNat 16 out.length) ∨ ev = .atText ch off (BitVec.ofNat 16 out.length))
    (hhalf : out.length < 65536) (hout : s.edm.buf.slice off.toNat out.length = out) :
    exec (.edmEvdata (BitVec.ofNat 16 out.length)) s =
      .next { s with port := ⟨some (BitVec.ofNat 32 out.length), out⟩ } := by
  have hlen : (BitVec.ofNat 16 out.length).toNat = out.length := by
    rw [BitVec.toNat_ofNat]; exact Nat.mod_eq_of_lt hhalf
  rw [exec_edmEvdata, Edm.eventData_of_slice hs hev h, Nat.min_self, hlen, hout]

/-- Settles O40: the frame up to its tail byte leaves the parser in state 3 with the frame in its buffer, so no byte
before the tail gave an event, and the tail byte decides. -/
theorem dataFrameRoundTrip : Obligations.DataFrameRoundTrip := by
  intro ch d s e frame hpar hep hd hmax hheap hs hwf henc
  obtain rfl : dataFrame s.par ch d = frame := by
    rw [exec_edmEncdata_of_le ch (hep ▸ hmax), hep] at henc
    injection henc with henc
    exact congrArg (fun t : State => t.port.out) henc
  have hhalf : d.length + 3 < 65536 := by have := hpar.edmMaxLen_le; omega
  rw [dataFrame_eq]
  generalize hbody : frameHead ((ch :: d).length + 2) s.par.tDataCmd ++ (ch :: d) = body
  have htail : (s.edm.feed s.par s.env.heapOk body).AwaitsTail s.par.tDataCmd (ch :: d) :=
    hbody ▸ Edm.feed_frame hs hwf _ (by simpa using hhalf) (by simpa using hmax)
      (by simpa [heapAnswer_iff] using hheap)
  have hnotwait : (s.edm.feed s.par s.env.heapOk body).state ≠ .waitForEventProcessing := by rw [htail.state]; simp
  refine ⟨fun j t hj0 hj h => ?_, ?_, fun b hb => ?_, ?_⟩
  · have htake : (body ++ [Config.edmTail]).take j = body.take j := by
      rw [List.length_append, List.length_singleton] at hj
      exact List.take_append_of_le_length (by omega)
    have hbody0 : body ≠ [] := by rw [← hbody]; simp [frameHead]
    have hne : body.take j ≠ [] := fun hnil => (List.take_eq_nil_iff.1 hnil).elim hj0.ne' hbody0
    have hwait : (s.edm.feed s.par s.env.heapOk (body.take j)).state ≠ .waitForEventProcessing :=
      Edm.feed_not_waiting_of_append (c := body.drop j) (by rwa [List.take_append_drop])
    rw [htake, execSeq_edmParse_of_not_waiting hne hwait] at h
    cases h
    exact ⟨rfl, hwait⟩
  · obtain ⟨hev, hslice⟩ := htail.frameEvent_data hpar hd
    exact ⟨_, execSeq_edmParse_concat _ body s (Edm.parse_tail_some htail.state hev _), rfl, rfl,
      exec_edmEvdata_whole_slice (ch := ch) (off := 3) rfl rfl (.inl rfl) (by omega) hslice⟩
  · rw [List.dropLast_concat]
    exact ⟨_, execSeq_edmParse_concat b body s (Edm.parse_wrong_tail htail.state hb _ _), rfl, rfl, rfl, rfl⟩
  · have hstart : (s.edm.feed s.par s.env.heapOk [0xAA, 0x00, 0x01]).state = .parseStartByte := by
      rw [show ([0xAA, 0x00, 0x01] : List Byte) = [Config.edmHead, 0x00, 0x01] from rfl, Edm.feed_length hs,
        Edm.lengthComplete_eq, if_pos (.inl (by change (halfOf 0 1).toNat < 2; decide))]
    exact ⟨_, execSeq_edmParse_of_not_waiting (by simp) (by rw [hstart]; simp), rfl, hstart⟩

end Sys2Proof.Machine
end

section
/-!
The heap buffer of the EDM parser (42_edm_parser.md R193, R210): what a byte does to it, and that no step but one that
parses a byte or resets the parser touches the parser at all.
-/

namespace Sys2Proof.Machine

open Host

/-! ### What a byte does to the heap buffer -/

/-- A byte leaves `edm.heap`, or discards the frame in flight, or starts a payload, whose length decides (R193, R195). -/
theorem Edm.parse_heap_cases (e : Edm) (par : Config.Params) (b : Byte) (d : Bool) :
    (e.parse par b d).1.heap = e.heap ∨ (e.parse par b d).1 = e.abort ∨
    (e.state = .parsePayloadLength ∧ (e.parse par b d).1.state = .accumulatePayload ∧
      ((e.parse par b d).1.heap = true → Config.edmStack < (e.parse par b d).1.len.toNat ∧
        (e.parse par b d).1.len.toNat ≤ par.edmMaxLen ∧ heapAnswer par d = true)) := by
  cases hs : e.state with
  | parseStartByte =>
    rw [Edm.parse_start hs, Edm.onStart]
    exact .inl (by split <;> rfl)
  | parsePayloadLength =>
    rw [Edm.parse_length hs, Edm.onLength]
    split
    · exact .inl rfl
    · rcases Edm.lengthComplete_cases { e with len := e.len ||| halfOf 0 b } par d with
        h | ⟨-, hmax, hbig, hans, h⟩ | ⟨-, -, -, h⟩ <;> rw [h]
      · exact .inl rfl
      · exact .inr (.inr ⟨rfl, rfl, fun _ => ⟨hbig, hmax, hans⟩⟩)
      · exact .inr (.inr ⟨rfl, rfl, nofun⟩)
  | accumulatePayload => rw [Edm.parse_payload hs]; exact .inl rfl
  | parseTailByte =>
    rw [Edm.parse_tail hs]
    rcases Edm.onTail_cases e par b with ⟨-, h⟩ | ⟨-, -, h⟩ | ⟨ev, -, -, h⟩ <;> rw [h]
    · exact .inr (.inl rfl)
    · exact .inr (.inl rfl)
    · exact .inl rfl
  | waitForEventProcessing => rw [Edm.parse_wait hs]; exact .inl rfl

/-! ### What a step does to the parser -/

/-- The parser of `t` is that of `s`, or reset, or has taken a byte with the heap answering as it does in `t`. -/
def State.EdmMoves (s t : State) : Prop :=
  t.edm = s.edm ∨ t.edm = s.edm.reset ∨ ∃ b, t.edm = (s.edm.parse s.par b t.env.heapOk).1

@[simp] theorem State.postFrame_edm (s : State) (len : Nat) (bytes : List Byte) : (s.postFrame len bytes).edm = s.edm := by
  unfold State.postFrame
  split <;> rfl

@[simp] theorem State.postDecoded_edm (s : State) (r : UbxDecoded) : (s.postDecoded r).edm = s.edm := by
  cases r <;> rfl

@[simp] theorem State.startCall_edm (s : State) (frame : List Byte) (ubx : Ubx) : (s.startCall frame ubx).edm = s.edm := by
  unfold State.startCall
  split
  · rfl
  · split <;> rfl

@[simp] theorem State.complete_edm (s : State) (cls id : Byte) (body : List Byte) : (s.complete cls id body).edm = s.edm := by
  unfold State.complete
  dsimp only
  split
  · split <;> rfl
  · rfl

/-- The commands of the other units do not write the parser (10_state.md R30). -/
theorem exec_edm_of_owner {i : Instr} {s t : State} (ho : ownerOf i ≠ .edmParser) (h : exec i s = .next t) :
    t.edm = s.edm := by
  cases i with
  | edmParse | edmReset => exact absurd rfl ho
  | rbCreate | rbSetrhr | rbGive | rbLock | rbUnlock => cases h; simp only [State.underMutex]; split <;> rfl
  | rbCreateh =>
    cases h
    simp only [State.underMutex]
    split
    · rfl
    · split <;> rfl
  | rbTake =>
    cases h
    simp only [State.underMutex]
    split
    · split <;> rfl
    · rfl
  | edmEncdata | edmEnchead | edmEncatreq | edmEncatrsp => cases h; exact s.postFrame_edm _ _
  | ubxDecode => cases h; exact s.postDecoded_edm _
  | ubxSendrecv | ubxSendonly => cases h; exact s.startCall_edm _ _
  | uartWrite | linkDrain => cases h; split <;> rfl
  | _ => cases h; rfl

theorem exec_edmMoves {i : Instr} {s t : State} (h : exec i s = .next t) : s.EdmMoves t := by
  by_cases ho : ownerOf i = .edmParser
  · cases i with
    | edmParse b => cases h; exact .inr (.inr ⟨b, rfl⟩)
    | edmReset => cases h; exact .inr (.inl rfl)
    | _ => cases ho
  · exact .inl (exec_edm_of_owner ho h)

theorem State.hostStep_edmMoves {s t : State} (h : s.hostStep = .next t) : s.EdmMoves t := by
  unfold State.hostStep at h
  split at h
  · rename_i i words input _
    exact exec_edmMoves (s := s.consume words input) h
  · cases h; exact .inl rfl
  · cases h; exact .inl rfl

@[simp] theorem State.pumpStep_edm (s : State) : s.pumpStep.edm = s.edm := by
  unfold State.pumpStep
  split
  · split <;> rfl
  · rfl

/-- A DRAIN step parses the byte it reads, if it reads one (46_uart_link.md R319). -/
theorem State.drainStep_edmMoves (s : State) : s.EdmMoves s.drainStep := by
  unfold State.drainStep
  split
  · dsimp only
    split
    · exact .inl rfl
    · exact .inr (.inr ⟨_, rfl⟩)
  · exact .inl rfl

@[simp] theorem State.engineStep_edm (s : State) : s.engineStep.edm = s.edm := by
  unfold State.engineStep
  split
  · rfl
  · split
    · rfl
    · split
      · rfl
      · dsimp only
        split
        · exact State.complete_edm _ _ _ _
        · rfl

/-- Every step takes a byte into the parser, resets it or leaves it alone. -/
theorem step_edmMoves {s t : State} (h : step s = .next t) : s.EdmMoves t := by
  obtain ⟨turn, u, htakes⟩ := exists_takes s
  have hmoves : u.EdmMoves t := by
    rw [step_of_takes htakes] at h
    cases hagent : turn.agent with
    | host words input => rw [hagent] at h; exact State.hostStep_edmMoves (s := u.present words input) h
    | line received sent => rw [hagent] at h; cases h; exact .inl rfl
    | pump => rw [hagent] at h; cases h; exact .inl u.pumpStep_edm
    | drain => rw [hagent] at h; cases h; exact u.drainStep_edmMoves
    | engine => rw [hagent] at h; cases h; exact .inl u.engineStep_edm
  obtain ⟨hpar, -, -, hedm, -⟩ := htakes.same
  rwa [State.EdmMoves, hpar, hedm] at hmoves

/-- Settles O39: a byte is what changes `edm.heap`, besides a reset; and the invariant, which the step keeps, has no
heap buffer in states 0 and 1. -/
theorem heapBufferDiscipline : Obligations.HeapBufferDiscipline := by
  intro s t hs h
  obtain ⟨ht, hpar⟩ := stepKeepsInv s t hs h
  have hidle : t.edm.heap = true → t.edm.state ≠ .parseStartByte ∧ t.edm.state ≠ .parsePayloadLength := by
    refine fun hheap => ⟨fun hst => ?_, fun hst => ?_⟩
    · exact absurd (ht.edm.idle_heap (.inl hst)) (by simp [hheap])
    · exact absurd (ht.edm.idle_heap (.inr hst)) (by simp [hheap])
  suffices hchange : (s.edm.heap = false → t.edm.heap = true → _) ∧ (s.edm.heap = true → t.edm.heap = false → _) from
    ⟨hchange.1, hchange.2, hidle⟩
  rcases step_edmMoves h with he | he | ⟨b, he⟩
  · exact ⟨fun h0 h1 => by simp [he, h0] at h1, fun h1 h0 => by simp [he, h1] at h0⟩
  · exact ⟨fun _ h1 => by simp [he, Edm.reset] at h1, fun _ _ => by rw [he]; rfl⟩
  · rcases Edm.parse_heap_cases s.edm s.par b t.env.heapOk with hsame | habort | ⟨hst, hst', hbig⟩
    · rw [← he] at hsame
      exact ⟨fun h0 h1 => by simp [hsame, h0] at h1, fun h1 h0 => by simp [hsame, h1] at h0⟩
    · rw [← he] at habort
      exact ⟨fun _ h1 => by simp [habort, Edm.abort] at h1, fun _ _ => by rw [habort]; rfl⟩
    · rw [← he] at hst' hbig
      refine ⟨fun _ h1 => ?_, fun h1 _ => absurd (hs.edm.idle_heap (.inr hst)) (by simp [h1])⟩
      obtain ⟨hstack, hmax, hans⟩ := hbig h1
      exact ⟨hst, hst', hstack, hmax, (heapAnswer_iff t).1 (hpar ▸ hans)⟩

end Sys2Proof.Machine
end

section
/-!
The EDM encode helpers (43_edm_encode.md): what each command posts (R231 to R235), and the frames of R234 and R235
through the parser (R236, 42_edm_parser.md R202, R204).
-/

namespace Sys2Proof.Machine

open Host

/-! ### What the encoders post -/

theorem frameHead_eq (len : Nat) (hdr : Half) : frameHead len hdr =
    [0xAA, BitVec.ofNat 8 (len / 256), BitVec.ofNat 8 len, hiByte hdr, loByte hdr] := by
  simp [frameHead, bigEndian, hiByte_ofNat, loByte_ofNat, Config.edmHead]

theorem length_dataHead (par : Config.Params) (ch : Byte) (n : Nat) : (dataHead par ch n).length = 6 := rfl

theorem length_atFrame (hdr : Half) (d : List Byte) : (atFrame hdr d).length = d.length + 6 := by
  simp [atFrame, frameHead_eq]

/-- A frame and its number of bytes, or the refusal of a declared length over EDM_MAX_LEN. -/
theorem State.postFrame_eq (s : State) (len : Nat) (bytes : List Byte) : s.postFrame len bytes =
    { s with port :=
      if s.par.edmMaxLen < len then ⟨some (errWord s.par .invalidParameter), []⟩
      else ⟨some (BitVec.ofNat 32 bytes.length), bytes⟩ } := by
  rw [State.postFrame]
  split <;> rfl

theorem exec_edmEncdata (ch : Byte) (d : List Byte) (s : State) :
    exec (.edmEncdata ch d) s = .next (s.postFrame (d.length + 3) (dataFrame s.par ch d)) := rfl

theorem exec_edmEnchead (ch : Byte) (n : Half) (s : State) :
    exec (.edmEnchead ch n) s = .next (s.postFrame (n.toNat + 3) (dataHead s.par ch n.toNat)) := rfl

theorem exec_edmEnctail (s : State) : exec .edmEnctail s = .next { s with port := ⟨some 1, [0x55]⟩ } := rfl

theorem exec_edmEncatreq (d : List Byte) (s : State) :
    exec (.edmEncatreq d) s = .next (s.postFrame (d.length + 2) (atFrame s.par.tAtReq d)) := rfl

theorem exec_edmEncatrsp (d : List Byte) (s : State) :
    exec (.edmEncatrsp d) s = .next (s.postFrame (d.length + 2) (atFrame s.par.tAtRsp d)) := rfl

/-- The bytes of an AT frame of either type, as R234 and R235 list them. -/
theorem State.postFrame_atFrame (s : State) (hdr : Half) (d : List Byte) :
    s.postFrame (d.length + 2) (atFrame hdr d) = { s with port :=
      if s.par.edmMaxLen < d.length + 2 then ⟨some (errWord s.par .invalidParameter), []⟩
      else ⟨some (BitVec.ofNat 32 (d.length + 6)),
        [0xAA, BitVec.ofNat 8 ((d.length + 2) / 256), BitVec.ofNat 8 (d.length + 2), hiByte hdr, loByte hdr]
          ++ d ++ [0x55]⟩ } := by
  rw [State.postFrame_eq, length_atFrame, atFrame, frameHead_eq, Config.edmTail]

/-- Settles O42: each encoder posts one frame, head or tail, whose bytes and length the lemmas above give. -/
theorem edmEncoders : Obligations.EdmEncoders := by
  intro ch d n s
  refine ⟨?_, ?_, exec_edmEnctail s, ?_, ?_⟩
  · rw [exec_edmEncdata, State.postFrame_eq, length_dataFrame, dataFrame, dataHead, frameHead_eq]
    rfl
  · rw [exec_edmEnchead, State.postFrame_eq, length_dataHead, dataHead, frameHead_eq]
    rfl
  · rw [exec_edmEncatreq, State.postFrame_atFrame]
  · rw [exec_edmEncatrsp, State.postFrame_atFrame]

/-- A frame within the maximum is the data that was posted. -/
theorem eq_of_postFrame_eq {s : State} {len : Nat} {bytes out : List Byte} {r : Word} (hlen : len ≤ s.par.edmMaxLen)
    (h : (.next (s.postFrame len bytes) : Outcome State Fault Refusal) = .next { s with port := ⟨some r, out⟩ }) :
    bytes = out := by
  rw [State.postFrame_eq, if_neg (Nat.not_lt.2 hlen)] at h
  injection h with h
  exact congrArg (fun t : State => t.port.out) h

/-! ### AT frames through the parser -/

section

variable {par : Config.Params} {s : State} {d : List Byte}

/-- On a legal build the AT response header gives an AT event (R196, R202). -/
theorem dispatch_tAtRsp (hpar : par.Legal) (plen : Nat) (p : Nat → Byte) :
    dispatch par par.tAtRsp plen p = dispatchAt plen := by
  have hevt := hpar.types_evt
  have hcmd := hpar.types_cmd
  simp only [List.nodup_cons, List.mem_cons, not_or] at hevt hcmd
  obtain ⟨⟨-, -, -, -, hconnect, -⟩, ⟨-, -, -, hdisconnect, -⟩, ⟨-, -, hdataEvt, -⟩, -⟩ := hevt
  obtain ⟨-, -, ⟨-, -, hdataCmd, -⟩, -⟩ := hcmd
  rw [dispatch, if_neg (Ne.symm hconnect), if_neg (Ne.symm hdisconnect),
    if_neg (not_or.2 ⟨Ne.symm hdataEvt, Ne.symm hdataCmd⟩), if_pos (.inr rfl)]

/-- On a legal build the AT request header gives no event (R196, R204). -/
theorem dispatch_tAtReq (hpar : par.Legal) (plen : Nat) (p : Nat → Byte) :
    dispatch par par.tAtReq plen p = none := by
  have hevt := hpar.types_evt
  have hcmd := hpar.types_cmd
  simp only [List.nodup_cons, List.mem_cons, not_or] at hevt hcmd
  obtain ⟨⟨-, -, -, hconnect, -⟩, ⟨-, -, hdisconnect, -⟩, ⟨-, hdataEvt, -⟩, ⟨hatEvt, -⟩, ⟨hatRsp, hstart, -⟩, -⟩ := hevt
  obtain ⟨-, -, ⟨-, hdataCmd, -⟩, -⟩ := hcmd
  rw [dispatch, if_neg (Ne.symm hconnect), if_neg (Ne.symm hdisconnect),
    if_neg (not_or.2 ⟨Ne.symm hdataEvt, Ne.symm hdataCmd⟩), if_neg (not_or.2 ⟨Ne.symm hatEvt, hatRsp⟩), if_neg hstart]

/-- An AT frame of any type header: the parser holds it before the tail byte, and what it makes of that byte is what
the whole run leaves and posts. -/
theorem execSeq_atFrame (hs : s.edm.state = .parseStartByte) (hwf : s.edm.buf.wf = true) (hpar : s.par.Legal)
    (hmax : d.length + 2 ≤ s.par.edmMaxLen) (hheap : d.length + 2 ≤ Config.edmStack ∨ s.HeapGrants) (hdr : Half) :
    ∃ w : Edm, w.AwaitsTail hdr d ∧ ∀ {e' : Edm} {r : Option Event},
      w.parse s.par Config.edmTail s.env.heapOk = (e', r) →
      execSeq ((atFrame hdr d).map .edmParse) s =
        .next { s with edm := e', port := ⟨some (kindCode r), ser r⟩ } :=
  ⟨_, Edm.feed_frame hs hwf hdr (Nat.lt_succ_of_le (hmax.trans hpar.edmMaxLen_le)) hmax
    (hheap.imp_right (heapAnswer_iff s).2), execSeq_edmParse_concat Config.edmTail _ s⟩

end

/-- Settles O41: either frame leaves the parser before its tail byte with the text in its buffer, and the type header
decides whether the tail byte gives an event. -/
theorem atFrameRoundTrip : Obligations.AtFrameRoundTrip := by
  intro d s e req rsp hpar hep hmax hheap hs hwf hreq hrsp
  have hmax' : d.length + 2 ≤ e.par.edmMaxLen := hep ▸ hmax
  obtain rfl : atFrame s.par.tAtReq d = req := hep ▸ eq_of_postFrame_eq hmax' hreq
  obtain rfl : atFrame s.par.tAtRsp d = rsp := hep ▸ eq_of_postFrame_eq hmax' hrsp
  constructor
  · obtain ⟨w, hw, hrun⟩ := execSeq_atFrame hs hwf hpar hmax hheap s.par.tAtReq
    have hnone : w.frameEvent s.par = none := by rw [hw.frameEvent, dispatch_tAtReq hpar]
    exact ⟨_, hrun (Edm.parse_tail_none hw.state hnone _), rfl, rfl⟩
  · obtain ⟨w, hw, hrun⟩ := execSeq_atFrame hs hwf hpar hmax hheap s.par.tAtRsp
    have hev : w.frameEvent s.par = some (.atText 0 2 (BitVec.ofNat 16 d.length)) := by
      rw [hw.frameEvent, dispatch_tAtRsp hpar, dispatchAt]
    have hhalf : d.length < 65536 := by have := hpar.edmMaxLen_le; omega
    exact ⟨_, hrun (Edm.parse_tail_some hw.state hev _), rfl, rfl,
      exec_edmEvdata_whole_slice (ch := 0) (off := 2) rfl rfl (.inr rfl) hhalf hw.payload⟩

end Sys2Proof.Machine
end

section
/-!
The ubx codec (44_ubx_codec.md): the bytes of the frame UBX.ENCODE posts, with the checksum in closed form (R251, R252);
what UBX.DECODE posts (R254); and what the decoder's pass has read of a frame at every byte, from which come the round
trip, the soundness of what it finds, and the outcome on a buffer that ends inside a frame (R253, R255).
-/

namespace Sys2Proof.Machine

open Host

/-! ### The checksum in closed form -/

/-- The sum of each byte times the number of bytes from it on (R251). -/
def weightedSum (s : List Byte) : Nat := (s.mapIdx fun i b => (s.length - i) * b.toNat).sum

theorem weightedSum_cons (v : Byte) (s : List Byte) :
    weightedSum (v :: s) = (s.length + 1) * v.toNat + weightedSum s := by
  simp [weightedSum, List.mapIdx_cons]

theorem Cksum.over_a : ∀ (s : List Byte) (c : Cksum), (c.over s).a = c.a + BitVec.ofNat 8 (s.map BitVec.toNat).sum
  | [], c => by simp
  | v :: s, c => by
    rw [Cksum.over_cons, Cksum.over_a s]
    simp [Cksum.upd, BitVec.ofNat_add, BitVec.add_assoc]

/-- Each byte enters CK_A once, and CK_A enters CK_B once for the byte and for each byte after it. -/
theorem Cksum.over_b : ∀ (s : List Byte) (c : Cksum),
    (c.over s).b = c.b + BitVec.ofNat 8 s.length * c.a + BitVec.ofNat 8 (weightedSum s)
  | [], c => by simp [weightedSum]
  | v :: s, c => by
    rw [Cksum.over_cons, Cksum.over_b s, weightedSum_cons]
    simp only [Cksum.upd, List.length_cons, BitVec.ofNat_add, BitVec.ofNat_mul, BitVec.ofNat_toNat, BitVec.setWidth_eq,
      BitVec.mul_add, BitVec.add_mul, BitVec.one_mul]
    ring

theorem ck_eq (s : List Byte) :
    ck s = ⟨BitVec.ofNat 8 (s.map BitVec.toNat).sum, BitVec.ofNat 8 (weightedSum s)⟩ := by
  have ha := Cksum.over_a s ⟨0, 0⟩
  have hb := Cksum.over_b s ⟨0, 0⟩
  simp only [mul_zero, zero_add] at ha hb
  rw [← ha, ← hb, ck]

theorem ck_singleton (v : Byte) : ck [v] = ⟨v, v⟩ := by
  simp [ck, Cksum.upd]

theorem ck_concat (s : List Byte) (v : Byte) : ck (s ++ [v]) = (ck s).upd v := Cksum.over_snoc ⟨0, 0⟩ s v

/-! ### What the two commands post -/

theorem littleEndian_ofNat (n : Nat) :
    littleEndian (BitVec.ofNat 16 n) = [BitVec.ofNat 8 n, BitVec.ofNat 8 (n / 256)] := by
  rw [littleEndian, loByte_ofNat, hiByte_ofNat]

theorem exec_ubxEncode (cls id : Byte) (body : List Byte) (s : State) :
    exec (.ubxEncode cls id body) s =
      .next (s.post (countWord (body.length + s.par.ubxOverhead)) (ubxFrame s.par cls id body)) := rfl

theorem exec_ubxDecode (buf : List Byte) (s : State) :
    exec (.ubxDecode buf) s = .next (s.postDecoded (ubxDecode s.par buf)) := rfl

/-- Settles O43: the covered bytes are the ones listed, and their checksum is the pair of sums. -/
theorem ubxEncodeFrame : Obligations.UbxEncodeFrame := by
  rintro cls id body covered s - hcov
  have hcovered : ubxCovered cls id body = covered := by rw [hcov, ubxCovered, littleEndian_ofNat]; rfl
  rw [exec_ubxEncode, ubxFrame, hcovered, ck_eq]
  rfl

/-- Only the output ports change when a decode outcome is posted (R254). -/
theorem State.postDecoded_eq (s : State) (r : UbxDecoded) :
    s.postDecoded r = { s with port := (s.postDecoded r).port } := by
  cases r <;> rfl

/-- Settles O44: one row of R254's table for each outcome of the decoder. -/
theorem ubxDecodePresentation : Obligations.UbxDecodePresentation := by
  intro buf s
  refine ⟨(s.postDecoded (ubxDecode s.par buf)).port, ?_, ?_, ?_, ?_⟩
  · rw [exec_ubxDecode, ← State.postDecoded_eq]
  · intro cls id body next h
    rw [h, State.postDecoded, littleEndian_ofNat]
    rfl
  · intro start h
    rw [h, State.postDecoded, littleEndian_ofNat]
    rfl
  · intro h
    rw [h]
    rfl

/-! ### The round trip -/

/-- Settles O45: what is posted is a frame, and the pass finds a frame behind junk and before any tail. -/
theorem codecRoundTrip : Obligations.CodecRoundTrip := by
  intro cls id body junk tail s e hbody hjunk he
  rw [exec_ubxEncode] at he
  obtain rfl : s.post _ _ = e := Outcome.next.inj he
  rw [State.post_port, length_ubxFrame, List.append_assoc]
  constructor
  · simpa using ubxDecode_junk_frame s.par [] cls id body [] List.not_mem_nil hbody
  · exact ubxDecode_junk_frame s.par junk cls id body tail hjunk hbody

/-! ### What the pass has read of a frame -/

/-- The checksum-covered bytes that the pass has read of the frame it is in. -/
def Scan.covered (c : Scan) : List Byte :=
  match c.st with
  | .sync1 | .sync2 | .cls => []
  | .id => [c.cls]
  | .lenLo => [c.cls, c.id]
  | .lenHi => [c.cls, c.id, loByte c.len]
  | .body | .ckA | .ckB => [c.cls, c.id] ++ littleEndian c.len ++ c.body

/-- All the bytes that the pass has read of the frame it is in. -/
def Scan.held (c : Scan) (par : Config.Params) : List Byte :=
  match c.st with
  | .sync1 => []
  | .sync2 => [par.ubxSync1]
  | .ckB => [par.ubxSync1, par.ubxSync2] ++ c.covered ++ [c.ck.a]
  | _ => [par.ubxSync1, par.ubxSync2] ++ c.covered

/-- The variables of the pass agree with the bytes it has read (R253). -/
structure Scan.Coherent (c : Scan) : Prop where
  /-- From the class byte on, the running checksum is that of the covered bytes. -/
  cksum : c.covered ≠ [] → c.ck = Machine.ck c.covered
  /-- Before its second byte is read, the length field has its low byte only. -/
  lenHi : c.st = .lenHi → halfOf 0 (loByte c.len) = c.len
  body : c.st = .body → c.body.length = c.cnt ∧ c.cnt < c.len.toNat
  /-- The checksum bytes come after a whole body. -/
  whole : c.st = .ckA ∨ c.st = .ckB → c.body.length = c.len.toNat

section

variable {c c' : Scan} {par : Config.Params} {x : Nat} {b : Byte}

/-- Before a class byte is read there is nothing to agree with. -/
theorem Scan.coherent_of_uncovered (h : c.st = .sync1 ∨ c.st = .sync2 ∨ c.st = .cls) : c.Coherent := by
  rcases h with h | h | h <;> exact ⟨by simp [covered, h], by simp [h], by simp [h], by simp [h]⟩

/-- The byte `b` extends the frame that `c` is in. -/
structure Scan.Extends (c c' : Scan) (par : Config.Params) (b : Byte) : Prop where
  st : c.st ≠ .sync1
  st' : c'.st ≠ .sync1
  start : c'.start = c.start
  held : c'.held par = c.held par ++ [b]

/-- A covered byte that also enters the checksum keeps the checksum that of the covered bytes. -/
theorem Scan.Coherent.cksum_concat (hc : c.Coherent) (hne : c.covered ≠ []) (b : Byte) :
    c.ck.upd b = Machine.ck (c.covered ++ [b]) := by
  rw [ck_concat, ← hc.cksum hne]

/-- Up to the length's low byte, a byte extends the frame (`st` = 2 to 4 of R253). -/
theorem Scan.step_header (hc : c.Coherent) (hst : c.st = .cls ∨ c.st = .id ∨ c.st = .lenLo)
    (h : c.step par x b = some c') :
    c'.Coherent ∧ c.Extends c' par b := by
  rcases hst with hst | hst | hst <;> simp only [Scan.step, hst, Option.some.injEq] at h <;> subst h
  · refine ⟨⟨fun _ => (ck_singleton b).symm, by simp, by simp, by simp⟩, by simp [hst], by simp, rfl, ?_⟩
    simp [held, covered, hst]
  · have hck := hc.cksum_concat (by simp [covered, hst]) b
    refine ⟨⟨fun _ => ?_, by simp, by simp, by simp⟩, by simp [hst], by simp, rfl, ?_⟩
    · simpa [covered, hst] using hck
    · simp [held, covered, hst]
  · have hck := hc.cksum_concat (by simp [covered, hst]) b
    refine ⟨⟨fun _ => ?_, fun _ => ?_, by simp, by simp⟩, by simp [hst], by simp, rfl, ?_⟩
    · simpa [covered, hst, loByte_halfOf] using hck
    · simp [loByte_halfOf]
    · simp [held, covered, hst, loByte_halfOf]

/-- The length's high byte extends the frame, and the body follows when the length is not 0 (`st` = 5 of R253). -/
theorem Scan.step_lenHi (hc : c.Coherent) (hst : c.st = .lenHi) (h : c.step par x b = some c') :
    c'.Coherent ∧ c.Extends c' par b := by
  have hlen : c.len ||| halfOf b 0 = halfOf b (loByte c.len) := by
    rw [← halfOf_or b (loByte c.len), hc.lenHi hst, BitVec.or_comm]
  have hck := hc.cksum_concat (by simp [covered, hst]) b
  simp only [Scan.step, hst, Option.some.injEq, hlen] at h
  by_cases hpos : (halfOf b (loByte c.len)).toNat > 0
  · rw [if_pos hpos] at h
    subst h
    refine ⟨⟨fun _ => ?_, by simp, fun _ => ⟨rfl, hpos⟩, by simp⟩, by simp [hst], by simp, rfl, ?_⟩
    · simpa [covered, hst, littleEndian, loByte_halfOf, hiByte_halfOf] using hck
    · simp [held, covered, hst, littleEndian, loByte_halfOf, hiByte_halfOf]
  · rw [if_neg hpos] at h
    subst h
    refine ⟨⟨fun _ => ?_, by simp, by simp, fun _ => ?_⟩, by simp [hst], by simp, rfl, ?_⟩
    · simpa [covered, hst, littleEndian, loByte_halfOf, hiByte_halfOf] using hck
    · exact (Nat.eq_zero_of_not_pos hpos).symm
    · simp [held, covered, hst, littleEndian, loByte_halfOf, hiByte_halfOf]

/-- A body byte extends the frame, and the checksum follows the last one (`st` = 6 of R253). -/
theorem Scan.step_body (hc : c.Coherent) (hst : c.st = .body) (h : c.step par x b = some c') :
    c'.Coherent ∧ c.Extends c' par b := by
  obtain ⟨hcnt, hlt⟩ := hc.body hst
  have hck := hc.cksum_concat (by simp [covered, hst]) b
  simp only [Scan.step, hst, Option.some.injEq] at h
  by_cases hlast : c.cnt + 1 = c.len.toNat
  · rw [if_pos hlast] at h
    subst h
    refine ⟨⟨fun _ => ?_, by simp, by simp, fun _ => ?_⟩, by simp [hst], by simp, rfl, ?_⟩
    · simpa [covered, hst] using hck
    · simp [hcnt, hlast]
    · simp [held, covered, hst]
  · rw [if_neg hlast] at h
    subst h
    refine ⟨⟨fun _ => ?_, by simp, fun _ => ⟨?_, ?_⟩, by simp⟩, by simp [hst], by simp, rfl, ?_⟩
    · simpa [covered, hst] using hck
    · simp [hcnt]
    · simp only; omega
    · simp [held, covered, hst]

/-- One byte extends the frame the pass is in, or begins a frame, or leaves the pass in no frame. -/
theorem Scan.step_cases (hc : c.Coherent) (h : c.step par x b = some c') :
    c'.Coherent ∧ (c.Extends c' par b ∨ (c'.start = x ∧ c'.held par = [b]) ∨ c'.st = .sync1) := by
  cases hst : c.st with
  | sync1 =>
    simp only [Scan.step, hst, Option.some.injEq] at h
    by_cases hb : b = par.ubxSync1
    · rw [if_pos hb] at h
      subst h
      exact ⟨coherent_of_uncovered (.inr (.inl rfl)), .inr (.inl ⟨rfl, by rw [hb]; rfl⟩)⟩
    · rw [if_neg hb] at h
      subst h
      exact ⟨hc, .inr (.inr hst)⟩
  | sync2 =>
    simp only [Scan.step, hst, Option.some.injEq] at h
    by_cases hb2 : b = par.ubxSync2
    · rw [if_pos hb2] at h
      subst h
      refine ⟨coherent_of_uncovered (.inr (.inr rfl)), .inl ⟨by simp [hst], by simp, rfl, ?_⟩⟩
      simp [held, covered, hst, hb2]
    · rw [if_neg hb2] at h
      by_cases hb : b = par.ubxSync1
      · rw [if_pos hb] at h
        subst h
        exact ⟨coherent_of_uncovered (.inr (.inl rfl)), .inr (.inl ⟨rfl, by rw [hb]; rfl⟩)⟩
      · rw [if_neg hb] at h
        subst h
        exact ⟨coherent_of_uncovered (.inl rfl), .inr (.inr rfl)⟩
  | cls => exact (step_header hc (.inl hst) h).imp_right .inl
  | id => exact (step_header hc (.inr (.inl hst)) h).imp_right .inl
  | lenLo => exact (step_header hc (.inr (.inr hst)) h).imp_right .inl
  | lenHi => exact (step_lenHi hc hst h).imp_right .inl
  | body => exact (step_body hc hst h).imp_right .inl
  | ckA =>
    simp only [Scan.step, hst, Option.some.injEq] at h
    by_cases hb : b = c.ck.a
    · rw [if_pos hb] at h
      subst h
      refine ⟨⟨fun hne => ?_, by simp, by simp, fun _ => hc.whole (.inl hst)⟩, .inl ⟨by simp [hst], by simp, rfl, ?_⟩⟩
      · simpa [covered, hst] using hc.cksum (by simp [covered, hst])
      · simp [held, covered, hst, hb]
    · rw [if_neg hb] at h
      subst h
      exact ⟨coherent_of_uncovered (.inl rfl), .inr (.inr rfl)⟩
  | ckB =>
    by_cases hb : b = c.ck.b
    · simp [Scan.step, hst, hb] at h
    · simp only [Scan.step, hst, if_neg hb, Option.some.injEq] at h
      subst h
      exact ⟨coherent_of_uncovered (.inl rfl), .inr (.inr rfl)⟩

/-- The pass ends only at a correct second checksum byte. -/
theorem Scan.step_eq_none (h : c.step par x b = none) : c.st = .ckB ∧ b = c.ck.b := by
  cases hst : c.st <;> simp only [Scan.step, hst, reduceCtorEq] at h
  exact ⟨rfl, by_contra fun hb => by simp [hb] at h⟩

/-- The byte that ends the pass completes a frame of the class, id and body read (R252). -/
theorem Scan.held_concat_of_step_none (hc : c.Coherent) (h : c.step par x b = none) :
    c.st ≠ .sync1 ∧ c.body.length < 65536 ∧ c.held par ++ [b] = ubxFrame par c.cls c.id c.body := by
  obtain ⟨hst, hb⟩ := step_eq_none h
  have hlen : c.body.length = c.len.toNat := hc.whole (.inr hst)
  have hcov : c.covered = ubxCovered c.cls c.id c.body := by
    simp [covered, hst, ubxCovered, hlen]
  have hck : c.ck = Machine.ck (ubxCovered c.cls c.id c.body) := by
    rw [← hcov]; exact hc.cksum (by simp [covered, hst])
  refine ⟨by simp [hst], hlen ▸ c.len.isLt, ?_⟩
  simp [held, hst, hcov, hb, hck, ubxFrame]

end

/-! ### The pass over a buffer -/

/-- After the bytes `seen`, the frame that the pass is in stands at their end, from index `start` on. -/
structure Scan.Tracks (c : Scan) (par : Config.Params) (seen : List Byte) : Prop where
  coherent : c.Coherent
  held : c.st ≠ .sync1 → ∃ before, seen = before ++ c.held par ∧ before.length = c.start

theorem Scan.init_tracks (par : Config.Params) : Scan.init.Tracks par [] :=
  ⟨coherent_of_uncovered (.inl rfl), fun h => absurd rfl h⟩

theorem Scan.Tracks.step {c c' : Scan} {par : Config.Params} {seen : List Byte} {b : Byte} (hc : c.Tracks par seen)
    (h : c.step par seen.length b = some c') : c'.Tracks par (seen ++ [b]) := by
  obtain ⟨hcoh, hext | ⟨hstart, hheld⟩ | hst⟩ := step_cases hc.coherent h
  · obtain ⟨before, hseen, hlen⟩ := hc.held hext.st
    exact ⟨hcoh, fun _ => ⟨before, by rw [hext.held, ← List.append_assoc, ← hseen], by rw [hext.start, hlen]⟩⟩
  · exact ⟨hcoh, fun _ => ⟨seen, by rw [hheld], hstart.symm⟩⟩
  · exact ⟨hcoh, fun hne => absurd hst hne⟩

/-- What the pass finds is a frame that stands in the buffer just before the reported index: the one it is in, or a
later one. -/
theorem Scan.run_found {par : Config.Params} {cls id : Byte} {body : List Byte} {next : Nat} :
    ∀ (bs : List Byte) {c : Scan} {seen : List Byte}, c.Tracks par seen →
      c.run par seen.length bs = .found cls id body next →
      body.length < 65536 ∧ ∃ before after, seen ++ bs = before ++ ubxFrame par cls id body ++ after ∧
        next = before.length + (body.length + 8) ∧
        (seen.length ≤ before.length ∨ c.st ≠ .sync1 ∧ c.start = before.length)
  | [], c, seen, _, h => by
    unfold Scan.run at h; split at h <;> cases h
  | b :: bs, c, seen, hc, h => by
    cases hs : c.step par seen.length b with
    | none =>
      simp only [Scan.run, hs, UbxDecoded.found.injEq] at h
      obtain ⟨rfl, rfl, rfl, rfl⟩ := h
      obtain ⟨hst, hbody, hframe⟩ := held_concat_of_step_none hc.coherent hs
      obtain ⟨before, hseen, hlen⟩ := hc.held hst
      have hbytes : seen ++ [b] = before ++ ubxFrame par c.cls c.id c.body := by
        rw [← hframe, ← List.append_assoc, ← hseen]
      refine ⟨hbody, before, bs, ?_, ?_, .inr ⟨hst, hlen.symm⟩⟩
      · rw [← hbytes]; simp
      · simpa using congrArg List.length hbytes
    | some c' =>
      rw [run_cons_of_step bs hs, ← List.length_concat (a := b), List.concat_eq_append] at h
      obtain ⟨hbody, before, after, hbytes, hnext, hwhere⟩ := run_found bs (hc.step hs) h
      refine ⟨hbody, before, after, by simpa using hbytes, hnext, ?_⟩
      simp only [List.length_append, List.length_singleton] at hwhere
      obtain ⟨-, hext | ⟨hstart, -⟩ | hst⟩ := step_cases hc.coherent hs
      · rw [hext.start] at hwhere
        rcases hwhere with hle | ⟨-, heq⟩
        · exact .inl (by omega)
        · exact .inr ⟨hext.st, heq⟩
      · exact .inl (by omega)
      · have hle := hwhere.resolve_right fun hwhere => hwhere.1 hst
        exact .inl (by omega)

/-- Settles O46: the frame that the pass finds, read off the buffer. -/
theorem decodeFindsOnlyFrames : Obligations.DecodeFindsOnlyFrames := by
  intro par buf body cls id next h
  obtain ⟨hbody, before, after, hbuf, hnext, -⟩ := Scan.run_found buf (Scan.init_tracks par) h
  have hlen : next = (before ++ ubxFrame par cls id body).length := by simp [hnext]
  rw [List.nil_append] at hbuf
  refine ⟨(ubxDecode_found_bounds h).2, hbody, before, ?_⟩
  rw [hbuf, hlen, List.take_left]

/-- A buffer cut inside the frame that the pass would find leaves the pass in that frame. -/
theorem Scan.run_take {par : Config.Params} {cls id : Byte} {body : List Byte} {start : Nat} :
    ∀ (bs : List Byte) {c : Scan} {seen : List Byte} {n : Nat}, c.Tracks par seen →
      c.run par seen.length bs = .found cls id body (start + (body.length + 8)) →
      start < seen.length + n → seen.length + n < start + (body.length + 8) →
      c.run par seen.length (bs.take n) = .partialFrame start
  | bs, c, seen, 0, hc, h, hlo, _ => by
    obtain ⟨-, before, after, -, hnext, hwhere⟩ := run_found bs hc h
    obtain rfl : start = before.length := by omega
    obtain ⟨hst, hstart⟩ : c.st ≠ .sync1 ∧ c.start = before.length := hwhere.resolve_left (by omega)
    rw [List.take_zero, Scan.run, if_neg hst, hstart]
  | [], c, seen, n + 1, _, h, _, _ => by
    unfold Scan.run at h; split at h <;> cases h
  | b :: bs, c, seen, n + 1, hc, h, hlo, hhi => by
    cases hs : c.step par seen.length b with
    | none =>
      simp only [Scan.run, hs, UbxDecoded.found.injEq] at h
      omega
    | some c' =>
      rw [run_cons_of_step _ hs, ← List.length_concat (a := b), List.concat_eq_append] at h
      rw [List.take_succ_cons, run_cons_of_step _ hs, ← List.length_concat (a := b), List.concat_eq_append]
      exact run_take bs (hc.step hs) h (by simp; omega) (by simp; omega)

/-- `decode` answers Partial on a buffer that ends inside the first frame (R253). -/
theorem ubxDecode_take {par : Config.Params} {buf body : List Byte} {cls id : Byte} {start n : Nat}
    (h : ubxDecode par buf = .found cls id body (start + (body.length + 8)))
    (hlo : start < n) (hhi : n < start + (body.length + 8)) : ubxDecode par (buf.take n) = .partialFrame start :=
  Scan.run_take buf (Scan.init_tracks par) h (by simpa using hlo) (by simpa using hhi)

theorem ubxDecode_junk {par : Config.Params} {junk : List Byte} (h : par.ubxSync1 ∉ junk) :
    ubxDecode par junk = .notFound := by
  have hrun := Scan.run_junk (c := .init) rfl junk [] 0 h
  rwa [List.append_nil] at hrun

/-- Settles O47: the buffer is the junk and the whole frame, which is found there, cut inside the frame. -/
theorem truncatedFrameIsPartial : Obligations.TruncatedFrameIsPartial := by
  intro par cls id body junk n hbody hjunk
  refine ⟨fun hpos hlt => ?_, ubxDecode_junk hjunk⟩
  have hfound := ubxDecode_junk_frame par junk cls id body [] hjunk hbody
  rw [List.append_nil] at hfound
  rw [← List.take_length_add_append]
  exact ubxDecode_take hfound (by omega) (by omega)

end Sys2Proof.Machine
end

section
/-!
The ubx engine (45_ubx_engine.md): what starts a call and what ends one, how the scan of an ENGINE step goes past the
frames that do not match and how it ends on what follows them (R290, R293, R294), and a whole call in three steps of the
machine (R298 (a)).
-/

namespace Sys2Proof.Machine

open Host

/-! ### The command steps -/

theorem exec_ubxSendrecv (cls id : Byte) (ec ei : Option Byte) (maxBody : Half) (timeout : Word) (body : List Byte)
    (s : State) :
    exec (.ubxSendrecv cls id ec ei maxBody timeout body) s =
      .next (s.startCall (ubxFrame s.par cls id body) (Ubx.arm s.par cls id ec ei false maxBody timeout s.env.now)) := rfl

theorem exec_ubxSendonly (cls id : Byte) (timeout : Word) (body : List Byte) (s : State) :
    exec (.ubxSendonly cls id timeout body) s =
      .next (s.startCall (ubxFrame s.par cls id body)
        (Ubx.arm s.par cls id (some Config.ubxClassAck) none true 2 timeout s.env.now)) := rfl

/-- Both commands refuse, fail or start their call in the same way (R280, R281, R297). -/
theorem State.startCall_eq (s : State) (frame : List Byte) (ubx : Ubx) : s.startCall frame ubx =
    if s.ubx.phase = .poll then { s with port := ⟨some (errWord s.par .notSupported), []⟩ }
    else if s.env.writeOk = false then { s with port := ⟨some (errWord s.par .transportError), []⟩ }
    else { s with uart := { s.uart with tx := s.uart.tx ++ frame }, ubx := ubx, port := ⟨none, []⟩ } := by
  unfold State.startCall
  cases s.env.writeOk <;> rfl

/-- The state in which a call has sent its frame and armed the unit. -/
def State.armed (s : State) (frame : List Byte) (ubx : Ubx) : State :=
  { s with uart := { s.uart with tx := s.uart.tx ++ frame }, ubx := ubx, port := ⟨none, []⟩ }

theorem State.startCall_of_idle {s : State} (hidle : s.ubx.phase = .idle) (hwrite : s.env.writeOk = true)
    (frame : List Byte) (ubx : Ubx) : s.startCall frame ubx = s.armed frame ubx := by
  rw [State.startCall_eq, if_neg (by simp [hidle]), if_neg (by simp [hwrite])]
  rfl

/-- Settles O48: the three outcomes of starting a call, with the fields of R280. -/
theorem sendrecvArmsTheEngine : Obligations.SendrecvArmsTheEngine := by
  intro cls id ec ei maxBody timeout body s
  rw [exec_ubxSendrecv, State.startCall_eq]
  rfl

/-- Settles O49: the same three outcomes, with the fields of R281. -/
theorem sendonlyArmsTheAckCheck : Obligations.SendonlyArmsTheAckCheck := by
  intro cls id timeout body s
  rw [exec_ubxSendonly, State.startCall_eq]
  rfl

/-! ### The ENGINE step, by what it finds -/

theorem Ubx.expired_iff (u : Ubx) (now : Word) : u.expired now = true ↔ u.timeout.toNat ≤ (now - u.t0).toNat :=
  decide_eq_true_iff

theorem State.engineStep_of_expired {s : State} (hp : s.ubx.phase = .poll) (he : s.ubx.expired s.env.now = true) :
    s.engineStep = (s.setUbx s.ubx.finish).post (errWord s.par .timeout) [] := by
  unfold State.engineStep
  rw [if_neg (by simp [hp]), if_pos he]

theorem State.engineStep_of_empty {s : State} (hp : s.ubx.phase = .poll) (he : ¬ s.ubx.expired s.env.now = true)
    (hrx : s.uart.rx = []) : s.engineStep = s.silent := by
  unfold State.engineStep
  rw [if_neg (by simp [hp]), if_neg he, if_pos hrx]

/-- Settles O50: the two ways an ENGINE step ends before it reads (R291, R292). -/
theorem engineDeadlineComesFirst : Obligations.EngineDeadlineComesFirst := by
  intro s hp
  constructor
  · intro hlate
    rw [State.engineStep_of_expired hp ((s.ubx.expired_iff _).2 hlate)]
    rfl
  · intro hearly hrx
    rw [State.engineStep_of_empty hp (mt (s.ubx.expired_iff _).1 (by omega)) hrx]
    rfl

/-- The model's test for an Ack is the one R296 names. -/
theorem Ubx.isAck_iff (u : Ubx) (id : Byte) (body : List Byte) :
    u.isAck id body = true ↔ id = Config.ubxIdAck ∧ body = [u.reqClass, u.reqId] := by
  simp [Ubx.isAck]

/-- A call ends with the answer of R295, or with that of R296 when it checks an Ack. -/
theorem State.complete_eq (s : State) (cls id : Byte) (body : List Byte) : s.complete cls id body =
    { s with
      ubx := { s.ubx with phase := .idle, acc := [] }
      port :=
        if s.ubx.ack = true then
          ⟨some (if id = Config.ubxIdAck ∧ body = [s.ubx.reqClass, s.ubx.reqId] then 0
            else errWord s.par .deviceError), []⟩
        else ⟨some (BitVec.ofNat 32 (min body.length s.ubx.maxBody.toNat)),
          [cls, id] ++ body.take s.ubx.maxBody.toNat⟩ } := by
  unfold State.complete
  simp only [Ubx.isAck_iff, List.length_take, Nat.min_comm s.ubx.maxBody.toNat]
  split
  · split <;> rfl
  · rfl

/-! ### The scan -/

/-- A whole frame behind junk ends the scan or is dropped with the junk (R294). -/
theorem Ubx.scan_traffic (u : Ubx) {par : Config.Params} {f : Traffic} (hf : f.Clean par) (fuel : Nat) (rest : List Byte) :
    u.scan par (fuel + 1) (f.bytes par ++ rest) =
      if u.accepts f.cls f.id = true then .matched f.cls f.id f.body else u.scan par fuel rest := by
  obtain ⟨hjunk, hbody⟩ := hf
  have hdecode := ubxDecode_junk_frame par f.junk f.cls f.id f.body rest hjunk hbody
  have hrest : (f.junk ++ (ubxFrame par f.cls f.id f.body ++ rest)).drop (f.junk.length + (f.body.length + 8)) = rest := by
    rw [← List.append_assoc]
    exact List.drop_left' (by simp)
  simp only [Traffic.bytes, List.append_assoc, Ubx.scan, hdecode, hrest]

theorem Traffic.length_bytes (par : Config.Params) (f : Traffic) :
    (f.bytes par).length = f.junk.length + (f.body.length + 8) := by
  simp [Traffic.bytes]

/-- The scan goes past any number of frames that do not match (R294), and has fuel left for what follows them. -/
theorem Ubx.scan_skips (u : Ubx) {par : Config.Params} (rest : List Byte) : ∀ (skipped : List Traffic) (fuel : Nat),
    (∀ f ∈ skipped, f.Clean par ∧ ¬ u.accepts f.cls f.id = true) →
    (skipped.flatMap (Traffic.bytes par) ++ rest).length < fuel →
    u.scan par fuel (skipped.flatMap (Traffic.bytes par) ++ rest) = u.scan par (rest.length + 1) rest
  | [], fuel, _, hfuel => u.scan_fuel par fuel (rest.length + 1) rest hfuel (Nat.lt_succ_self _)
  | _ :: _, 0, _, hfuel => absurd hfuel (Nat.not_lt_zero _)
  | f :: skipped, fuel + 1, hskip, hfuel => by
    obtain ⟨⟨hclean, hmiss⟩, hskip⟩ := List.forall_mem_cons.1 hskip
    rw [List.flatMap_cons, List.append_assoc] at hfuel ⊢
    rw [List.length_append, Traffic.length_bytes] at hfuel
    rw [u.scan_traffic hclean, if_neg hmiss]
    exact u.scan_skips rest skipped fuel hskip (by omega)

theorem Ubx.scan_of_partial (u : Ubx) {par : Config.Params} {acc : List Byte} {start : Nat}
    (h : ubxDecode par acc = .partialFrame start) (fuel : Nat) :
    u.scan par (fuel + 1) acc = .more (lastBytes (u.keep par) acc) := by
  simp only [Ubx.scan, h]

theorem Ubx.scan_of_notFound (u : Ubx) {par : Config.Params} {acc : List Byte}
    (h : ubxDecode par acc = .notFound) (fuel : Nat) : u.scan par (fuel + 1) acc = .more [] := by
  simp only [Ubx.scan, h]

theorem lastBytes_of_length_le {k : Nat} {s : List Byte} (h : s.length ≤ k) : lastBytes k s = s := by
  rw [lastBytes, Nat.sub_eq_zero_of_le h, List.drop_zero]

/-! ### The ENGINE step that reads -/

/-- Reading moves bytes of the line into the buffer and touches nothing else (R293). -/
theorem State.readUart_eq (s : State) : s.readUart = { s with
    uart := { s.uart with rx := s.uart.rx.drop (s.ubx.room s.uart.rx) }
    ubx := { s.ubx with acc := s.ubx.acc ++ s.uart.rx.take (s.ubx.room s.uart.rx) } } := rfl

/-- The scan of an ENGINE step is the scan of what follows the frames that do not match. -/
theorem State.scan_readUart {s : State} {skipped : List Traffic} {rest : List Byte}
    (hacc : s.ubx.acc ++ s.uart.rx.take (s.ubx.room s.uart.rx) = skipped.flatMap (Traffic.bytes s.par) ++ rest)
    (hskip : ∀ f ∈ skipped, f.Clean s.par ∧
      ¬ ((s.ubx.expClass = none ∨ s.ubx.expClass = some f.cls) ∧ (s.ubx.expId = none ∨ s.ubx.expId = some f.id))) :
    s.readUart.ubx.scan s.par (s.readUart.ubx.acc.length + 1) s.readUart.ubx.acc =
      s.readUart.ubx.scan s.par (rest.length + 1) rest := by
  have hread : s.readUart.ubx.acc = skipped.flatMap (Traffic.bytes s.par) ++ rest := hacc
  rw [hread]
  exact s.readUart.ubx.scan_skips rest skipped _
    (fun f hf => (hskip f hf).imp_right (mt (s.readUart.ubx.accepts_iff f.cls f.id).1)) (Nat.lt_succ_self _)

/-- Settles O51: past the frames that do not match, the scan ends on the one that does. -/
theorem engineAnswersTheMatchingFrame : Obligations.EngineAnswersTheMatchingFrame := by
  rintro s skipped hit tail room hp ht hrx rfl hacc hskip hclean hclass hid
  have haccepts : s.readUart.ubx.accepts hit.cls hit.id = true := (Ubx.accepts_iff _ _ _).2 ⟨hclass, hid⟩
  rw [State.engineStep_of_bytes hp ht hrx, State.scan_readUart hacc hskip, Ubx.scan_traffic _ hclean, if_pos haccepts]
  exact State.complete_eq _ _ _ _

/-- Settles O52: past the frames that do not match, the scan ends on the tail without a match, and a tail that is the
beginning of a frame decodes as Partial. -/
theorem engineKeepsAPartialFrame : Obligations.EngineKeepsAPartialFrame := by
  rintro s skipped tail room keep hp ht hrx rfl rfl hacc hskip
  have hpartial : ∀ start, ubxDecode s.par tail = .partialFrame start → s.engineStep =
      (s.readUart.setUbx { s.readUart.ubx with acc := lastBytes (s.ubx.keep s.par) tail }).silent := by
    intro start hdecode
    rw [State.engineStep_of_bytes hp ht hrx, State.scan_readUart hacc hskip, Ubx.scan_of_partial _ hdecode]
    rfl
  refine ⟨hpartial, fun hdecode => ?_, fun f n hclean hpos hlt htail hfits => ?_⟩
  · rw [State.engineStep_of_bytes hp ht hrx, State.scan_readUart hacc hskip, Ubx.scan_of_notFound _ hdecode]
    rfl
  · obtain ⟨hjunk, hbody⟩ := hclean
    have hdecode := (truncatedFrameIsPartial s.par f.cls f.id f.body f.junk n hbody hjunk).1 hpos hlt
    rw [← htail] at hdecode
    rw [hpartial _ hdecode, lastBytes_of_length_le (k := s.ubx.keep s.par) hfits]
    rfl

/-- With half the buffer free there is room to read when there is anything to read (R293). -/
theorem Ubx.Inv.room_pos {u : Ubx} {par : Config.Params} (hpar : par.Legal) (hi : u.Inv par) (hp : u.phase = .poll)
    {rx : List Byte} (hrx : rx ≠ []) : 0 < u.room rx := by
  have hcap := hi.poll_cap hp
  have hacc := hi.poll_acc hp
  have hkeep : u.keep par = u.maxBody.toNat + par.ubxOverhead := rfl
  have hover := hpar.overhead_ge
  have hlen := List.length_pos_iff.2 hrx
  unfold Ubx.room
  omega

/-- Settles O53: the step reads, and then either answers and empties the buffer, or keeps what the unit's invariant
allows and answers nothing. -/
theorem engineAlwaysProgresses : Obligations.EngineAlwaysProgresses := by
  intro s hpar hi hp ht hrx
  have hshorter : s.readUart.uart.rx.length < s.uart.rx.length := by
    have hroom := hi.room_pos hpar hp hrx
    have hlen := List.length_pos_iff.2 hrx
    rw [State.readUart_eq, List.length_drop]
    omega
  rw [State.engineStep_of_bytes hp ht hrx]
  cases hscan : s.readUart.ubx.scan s.par (s.readUart.ubx.acc.length + 1) s.readUart.ubx.acc with
  | matched cls id body =>
    simp only [State.complete_eq]
    refine ⟨hshorter, Nat.zero_le _, Nat.zero_le _, fun _ => ?_, fun _ => trivial⟩
    split <;> simp
  | more acc =>
    have hkept := Ubx.Inv.scan_more (u := s.readUart.ubx) hi.poll_cap hp hscan
    have hcap : s.ubx.cap.toNat = 2 * s.ubx.keep s.par := hi.poll_cap hp
    have hacc : acc.length ≤ s.ubx.keep s.par := hkept.poll_acc hp
    have hpoll : s.readUart.ubx.phase = .poll := hp
    refine ⟨hshorter, hacc, ?_, ?_⟩
    · simp only [State.silent_ubx, State.setUbx_ubx]; omega
    · simp [hpoll]

/-! ### A whole call -/

/-- The state in which the agent of the agenda's first turn steps. -/
def State.inTurn (s : State) (t : Config.Turn) (rest : List Config.Turn) : State :=
  { s with env := { s.env with
    now := s.env.now + t.elapsed, heapOk := t.heapOk, writeOk := t.writeOk, agenda := rest } }

theorem State.takes_inTurn {s : State} {t : Config.Turn} {rest : List Config.Turn} (h : s.env.agenda = t :: rest) :
    s.Takes t (s.inTurn t rest) := .inl ⟨rest, h, rfl⟩

/-- A run goes on from where its first step leads. -/
theorem core_run_succ {s t : State} (h : step s = .next t) (k : Nat) : core.run (k + 1) s = core.run k t := by
  have hcore : core.step s = .next t := h
  simp only [Core.run, hcore]

theorem step_line {s : State} {t : Config.Turn} {rest : List Config.Turn} {received : List Byte} {sent : Nat}
    (hagenda : s.env.agenda = t :: rest) (hagent : t.agent = .line received sent) :
    step s = .next ((s.inTurn t rest).lineStep received sent) := by
  rw [step_of_takes (State.takes_inTurn hagenda), hagent]

theorem step_engine {s : State} {t : Config.Turn} {rest : List Config.Turn}
    (hagenda : s.env.agenda = t :: rest) (hagent : t.agent = .engine) :
    step s = .next (s.inTurn t rest).engineStep := by
  rw [step_of_takes (State.takes_inTurn hagenda), hagent]

/-- The HOST's step of an idle unit that takes UBX.SENDRECV from an empty port, with the whole frame written (R280). -/
theorem step_ubxSendrecv {s : State} {t : Config.Turn} {rest : List Config.Turn} {cls id : Byte} {ec ei : Option Byte}
    {maxBody : Half} {timeout : Word} {body : List Byte} (hagenda : s.env.agenda = t :: rest) (hwords : s.env.words = [])
    (hinput : s.env.input = []) (hidle : s.ubx.phase = .idle) (hbody : body.length < 65536)
    (hagent : t.agent = .host (encode (.ubxSendrecv cls id ec ei maxBody timeout body)).words body)
    (hwrite : t.writeOk = true) :
    step s = .next (((s.inTurn t rest).consume [] []).armed (ubxFrame s.par cls id body)
      (Ubx.arm s.par cls id ec ei false maxBody timeout (s.env.now + t.elapsed))) := by
  have hwf : (Instr.ubxSendrecv cls id ec ei maxBody timeout body).wellFormed = true := decide_eq_true hbody
  have hdecode := decodeOfEncode _ [] [] hwf
  rw [encode_input, List.append_nil, List.append_nil] at hdecode
  have hstep := stepRunsDecodedCommand s _ t _ [] body [] _ (State.takes_inTurn hagenda) hagent
    (by rw [hwords, hinput]; exact hdecode)
  rw [hstep, exec_ubxSendrecv, State.startCall_of_idle (s := (s.inTurn t rest).consume [] []) hidle hwrite]
  rfl

/-- Before the deadline of a UBX.SENDRECV of which nothing has been read yet, with one frame on the line that matches
and fits, the ENGINE's step posts the frame's class, id and body (R295). -/
theorem State.engineStep_of_response {s : State} {cls id cls' id' : Byte} {ec ei : Option Byte} {maxBody : Half}
    {timeout t0 : Word} {body' : List Byte} (hpar : s.par.Legal)
    (hubx : s.ubx = Ubx.arm s.par cls id ec ei false maxBody timeout t0) (ht : (s.env.now - t0).toNat < timeout.toNat)
    (hrx : s.uart.rx = ubxFrame s.par cls' id' body') (hfits : body'.length ≤ maxBody.toNat)
    (hclass : ec = none ∨ ec = some cls') (hid : ei = none ∨ ei = some id') :
    s.engineStep = { s with
      uart := { s.uart with rx := [] }
      ubx := { s.ubx with phase := .idle, acc := [] }
      port := ⟨some (BitVec.ofNat 32 body'.length), [cls', id'] ++ body'⟩ } := by
  have hcap : s.ubx.cap.toNat = 2 * (maxBody.toNat + s.par.ubxOverhead) := by
    rw [hubx]; exact (Ubx.Inv.arm hpar ..).poll_cap rfl
  have hacc : s.ubx.acc = [] := by rw [hubx]; rfl
  have hmax : s.ubx.maxBody = maxBody := by rw [hubx]; rfl
  have hack : s.ubx.ack = false := by rw [hubx]; rfl
  have hlen : s.uart.rx.length = body'.length + 8 := by rw [hrx, length_ubxFrame]
  have hroom : s.uart.rx.length = min s.uart.rx.length (s.ubx.cap.toNat - s.ubx.acc.length) := by
    have := hpar.overhead_ge
    rw [hacc, List.length_nil]
    omega
  have hbytes : s.ubx.acc ++ s.uart.rx.take s.uart.rx.length =
      ([] : List Traffic).flatMap (Traffic.bytes s.par) ++ ((⟨[], cls', id', body'⟩ : Traffic).bytes s.par ++ []) := by
    rw [hacc, List.take_length, hrx]
    simp [Traffic.bytes]
  have hbody : body'.length < 65536 := by have := maxBody.isLt; omega
  rw [engineAnswersTheMatchingFrame s [] ⟨[], cls', id', body'⟩ [] _ (by rw [hubx]; rfl) (by rw [hubx]; exact ht)
    (List.ne_nil_of_length_pos (by omega)) hroom hbytes (List.forall_mem_nil _) ⟨List.not_mem_nil, hbody⟩
    (by rw [hubx]; exact hclass) (by rw [hubx]; exact hid)]
  simp [hack, hmax, List.take_of_length_le hfits, Nat.min_eq_left hfits]

/-- Settles O54, a step for each of the three turns. -/
theorem sendReceiveCycle : Obligations.SendReceiveCycle := by
  intro s send line engine rest cls id cls' id' ec ei maxBody timeout body body' hpar hagenda hwords hinput hidle hrx hbody
    hsend hwrite hline hengine htime hfits hclass hid
  have hstep₁ := step_ubxSendrecv hagenda hwords hinput hidle hbody hsend hwrite
  generalize hs₁ : State.armed _ _ _ = s₁ at hstep₁
  have hstep₂ := step_line (s := s₁) (rest := engine :: rest) (by rw [← hs₁]; rfl) hline
  generalize hs₂ : State.lineStep _ _ _ = s₂ at hstep₂
  have hstep₃ := step_engine (s := s₂) (rest := rest) (by rw [← hs₂]; rfl) hengine
  generalize hs₃ : s₂.inTurn engine rest = s₃ at hstep₃
  have hrun : core.run 3 s = .next s₃.engineStep := by
    rw [core_run_succ hstep₁, core_run_succ hstep₂, core_run_succ hstep₃]
    rfl
  obtain ⟨hpar₃, hrb, hedm, hlink, hagenda₃, hubx, huart, hnow⟩ :
      s₃.par = s.par ∧ s₃.rb = s.rb ∧ s₃.edm = s.edm ∧ s₃.link = s.link ∧ s₃.env.agenda = rest ∧
      s₃.ubx = Ubx.arm s.par cls id ec ei false maxBody timeout (s.env.now + send.elapsed) ∧
      s₃.uart = ⟨ubxFrame s.par cls' id' body', s.uart.tx ++ ubxFrame s.par cls id body⟩ ∧
      s₃.env.now = s.env.now + send.elapsed + (line.elapsed + engine.elapsed) := by
    subst hs₃ hs₂ hs₁
    simp [State.inTurn, State.armed, State.lineStep, hrx, add_assoc]
  rw [← hpar₃] at hpar hubx
  have hanswer := State.engineStep_of_response hpar hubx (by rwa [hnow, add_sub_cancel_left])
    (by rw [huart, hpar₃]) hfits hclass hid
  rw [hanswer] at hrun
  exact ⟨_, hrun, rfl, rfl, by rw [huart], rfl, hrb, hedm, hlink, hagenda₃⟩

end Sys2Proof.Machine
end

section
/-!
The UART and the LINK unit (46_uart_link.md): what their commands do (R311 to R313, R316, R318), and when a PUMP or a
DRAIN step does anything and what it then does (R317, R319).
-/

namespace Sys2Proof.Machine

/-! ### The commands -/

/-- All of the bytes are appended or none is, as the write draw answers (R311). -/
theorem exec_uartWrite (d : List Byte) (s : State) : exec (.uartWrite d) s = .next
    (if s.env.writeOk = true
     then { s with uart := { s.uart with tx := s.uart.tx ++ d }, port := ⟨some (BitVec.ofNat 32 d.length), []⟩ }
     else { s with port := ⟨some (errWord s.par .transportError), []⟩ }) := rfl

theorem exec_uartAvail (s : State) : exec .uartAvail s =
    .next { s with port := ⟨some (BitVec.ofNat 32 (min s.uart.rx.length 2147483647)), []⟩ } := rfl

/-- Asking for more bytes than there are takes all of them (R313). -/
theorem exec_uartRead (n : Half) (s : State) : exec (.uartRead n) s = .next { s with
    uart := { s.uart with rx := s.uart.rx.drop n.toNat }
    port := ⟨some (BitVec.ofNat 32 (min n.toNat s.uart.rx.length)), s.uart.rx.take n.toNat⟩ } := by
  rw [List.drop_eq_drop_min, List.take_eq_take_min]
  rfl

theorem exec_linkPump (mode : PumpMode) (s : State) :
    exec (.linkPump mode) s = .next { s with link := { s.link with pump := mode }, port := ⟨some 0, []⟩ } := rfl

theorem exec_linkDrain (cursor : Byte) (enable : Bool) (s : State) : exec (.linkDrain cursor enable) s = .next
    (if s.par.nmax < cursor.toNat then { s with port := ⟨some (errWord s.par .invalidParameter), []⟩ }
     else { s with link := { s.link with drainCur := cursor, drainEn := enable }, port := ⟨some 0, []⟩ }) := rfl

/-- Settles O55, one clause for each command. -/
theorem uartAndLinkCommands : Obligations.UartAndLinkCommands := fun d n mode cursor enable s =>
  ⟨exec_uartWrite d s, exec_uartAvail s, exec_uartRead n s, exec_linkPump mode s, exec_linkDrain cursor enable s⟩

/-! ### The PUMP -/

theorem State.pumpEnabled_iff (s : State) :
    s.pumpEnabled = true ↔ s.link.pump ≠ .off ∧ s.rb.created = true ∧ s.uart.rx ≠ [] := by
  simp only [State.pumpEnabled, Bool.and_eq_true, decide_eq_true_eq, and_assoc]

theorem State.pumpStep_of_not_enabled {s : State} (h : ¬ s.pumpEnabled = true) : s.pumpStep = s.silent := if_neg h

/-- An enabled PUMP moves the first received byte into the ring buffer (R317). -/
theorem State.pumpStep_of_enabled {s : State} (h : s.pumpEnabled = true) {b : Byte} {rest : List Byte}
    (hrx : s.uart.rx = b :: rest) :
    s.pumpStep = { s with
      rb := s.rb.pumpAdd s.par s.link.pump b, mutex := .free, uart := { s.uart with rx := rest }, port := ⟨none, []⟩ } := by
  rw [State.pumpStep, if_pos h, hrx]
  rfl

/-- The add that the PUMP's mode names is the one of the command of that name (R150, R151). -/
theorem exists_exec_pumpAdd {s : State} (h : s.link.pump ≠ .off) (b : Byte) :
    ∃ t, exec (if s.link.pump = .add then .rbAdd [b] else .rbFadd [b]) s = .next t ∧
      s.rb.pumpAdd s.par s.link.pump b = t.rb := by
  cases hmode : s.link.pump with
  | off => exact absurd hmode h
  | add => exact ⟨_, exec_rbAdd [b] s, rfl⟩
  | forceAdd => exact ⟨_, exec_rbFadd [b] s, rfl⟩

/-- Settles O56: an enabled PUMP adds as the command does, and one that is not enabled is silent. -/
theorem pumpStepAddsOneByte : Obligations.PumpStepAddsOneByte := by
  refine fun s => ⟨fun b rest hc hrx hmode => ?_, fun hoff => ?_⟩
  · obtain ⟨t, hexec, hadd⟩ := exists_exec_pumpAdd hmode b
    have henabled : s.pumpEnabled = true := s.pumpEnabled_iff.2 ⟨hmode, hc, by simp [hrx]⟩
    exact ⟨t, hexec, by rw [State.pumpStep_of_enabled henabled hrx, hadd]⟩
  · refine State.pumpStep_of_not_enabled fun henabled => ?_
    obtain ⟨hmode, hc, hrx⟩ := s.pumpEnabled_iff.1 henabled
    rcases hoff with h | h | h
    · simp [hc] at h
    · exact hrx h
    · exact hmode h

/-! ### The DRAIN -/

/-- The five conditions of R319. -/
theorem State.drainEnabled_iff (s : State) : s.drainEnabled = true ↔
    s.link.drainEn = true ∧ s.rb.created = true ∧ s.edm.state ≠ .waitForEventProcessing ∧
      s.rb.readable s.link.drainCur.toNat = true ∧ 0 < s.rb.unread s.link.drainCur.toNat := by
  simp only [State.drainEnabled, Edm.ready, Bool.and_eq_true, decide_eq_true_eq, and_assoc, gt_iff_lt]

theorem State.drainStep_of_not_enabled {s : State} (h : ¬ s.drainEnabled = true) : s.drainStep = s.silent := if_neg h

/-- A readable cursor with an unread byte reads one byte when asked for one (R157). -/
theorem RB.read_one {rb : RB} {h : Nat} (hr : rb.readable h = true) (hu : 0 < rb.unread h) :
    ∃ b, (rb.read h 1).2 = [b] := by
  rcases rb.read_cases h 1 with ⟨hnr, -⟩ | ⟨-, hread⟩
  · simp [hr] at hnr
  · rw [hread]
    exact List.length_eq_one_iff.1 (by rw [List.length_take, RB.length_content]; omega)

/-- An enabled DRAIN parses the byte it reads (R319). -/
theorem State.drainStep_of_enabled {s : State} (h : s.drainEnabled = true) {b : Byte}
    (hb : (s.rb.read s.link.drainCur.toNat 1).2 = [b]) :
    s.drainStep = { s with
      rb := (s.rb.read s.link.drainCur.toNat 1).1, mutex := .free
      edm := (s.edm.parse s.par b s.env.heapOk).1, port := ⟨none, []⟩ } := by
  simp only [State.drainStep, if_pos h, hb]
  rfl

/-- Settles O57: the byte that an enabled DRAIN reads is what RB.READH of one byte posts, and one that is not enabled is
silent. -/
theorem drainStepReadsAndParses : Obligations.DrainStepReadsAndParses := by
  refine fun s => ⟨fun hen hc hready hr hu => ?_, fun hoff => ?_⟩
  · obtain ⟨b, hb⟩ := RB.read_one hr hu
    have henabled : s.drainEnabled = true := s.drainEnabled_iff.2 ⟨hen, hc, hready, hr, hu⟩
    refine ⟨b, _, _, exec_rbReadh s.link.drainCur 1 s, ?_, exec_edmParse b _, State.drainStep_of_enabled henabled hb⟩
    exact congrArg (fun out : List Byte => Port.mk (some (countWord out.length)) out) hb
  · refine State.drainStep_of_not_enabled fun henabled => ?_
    obtain ⟨hen, hc, hready, hr, hu⟩ := s.drainEnabled_iff.1 henabled
    rcases hoff with h | h | h | h | h
    · simp [hen] at h
    · simp [hc] at h
    · exact hready h
    · simp [hr] at h
    · omega

end Sys2Proof.Machine
end

section
/-!
The two queues of the UART (46_uart_link.md R320, 20_memory.md R79): what each command and each agent does to them.
-/

namespace Sys2Proof.Machine

/-! ### The commands -/

@[simp] theorem State.postFrame_uart (s : State) (len : Nat) (bytes : List Byte) :
    (s.postFrame len bytes).uart = s.uart := by
  rw [State.postFrame_eq]

@[simp] theorem State.postDecoded_uart (s : State) (r : UbxDecoded) : (s.postDecoded r).uart = s.uart := by
  rw [State.postDecoded_eq]

/-- The commands of the units other than the UART and the ubx engine leave both queues (10_state.md R40). -/
theorem exec_uart_of_owner {i : Instr} {s t : State} (huart : ownerOf i ≠ .uart) (hubx : ownerOf i ≠ .ubxEngine)
    (h : exec i s = .next t) : t.uart = s.uart := by
  cases i with
  | uartWrite | uartRead => exact absurd rfl huart
  | ubxSendrecv | ubxSendonly => exact absurd rfl hubx
  | rbCreate | rbSetrhr | rbGive | rbLock | rbUnlock => cases h; simp only [State.underMutex]; split <;> rfl
  | rbCreateh =>
    cases h
    simp only [State.underMutex]
    split
    · rfl
    · split <;> rfl
  | rbTake =>
    cases h
    simp only [State.underMutex]
    split
    · split <;> rfl
    · rfl
  | edmEncdata | edmEnchead | edmEncatreq | edmEncatrsp => cases h; exact s.postFrame_uart _ _
  | ubxDecode => cases h; exact s.postDecoded_uart _
  | linkDrain => cases h; split <;> rfl
  | _ => cases h; rfl

/-- Between `s` and `t` a front part of `uart.rx` is taken, and posted if it is not empty, and bytes only join the back
of `uart.tx`. -/
def State.HostMovesBytes (s t : State) : Prop :=
  (∃ taken, s.uart.rx = taken ++ t.uart.rx ∧ (taken = [] ∨ t.port.out = taken)) ∧
    ∃ sent, t.uart.tx = s.uart.tx ++ sent

theorem State.HostMovesBytes.of_uart_eq {s t : State} (h : t.uart = s.uart) : s.HostMovesBytes t := by
  rw [State.HostMovesBytes, h]
  exact ⟨⟨[], rfl, .inl rfl⟩, [], (List.append_nil _).symm⟩

theorem State.HostMovesBytes.of_sent {s t : State} {d : List Byte} (h : t.uart = { s.uart with tx := s.uart.tx ++ d }) :
    s.HostMovesBytes t := by
  rw [State.HostMovesBytes, h]
  exact ⟨⟨[], rfl, .inl rfl⟩, d, rfl⟩

/-- A call sends its frame or, refused or failed, nothing (45_ubx_engine.md R280, R281). -/
theorem State.startCall_hostMovesBytes (s : State) (frame : List Byte) (ubx : Ubx) :
    s.HostMovesBytes (s.startCall frame ubx) := by
  rw [State.startCall_eq]
  split
  · exact .of_uart_eq rfl
  · split
    · exact .of_uart_eq rfl
    · exact .of_sent rfl

theorem exec_hostMovesBytes {i : Instr} {s t : State} (h : exec i s = .next t) : s.HostMovesBytes t := by
  cases howner : ownerOf i with
  | uart =>
    cases i with
    | uartWrite d =>
      rw [exec_uartWrite] at h
      cases h
      split
      · exact .of_sent rfl
      · exact .of_uart_eq rfl
    | uartRead n =>
      rw [exec_uartRead] at h
      cases h
      exact ⟨⟨_, (List.take_append_drop n.toNat s.uart.rx).symm, .inr rfl⟩, [], (List.append_nil _).symm⟩
    | _ => cases howner
  | ubxEngine =>
    cases i with
    | ubxSendrecv | ubxSendonly => cases h; exact s.startCall_hostMovesBytes _ _
    | _ => cases howner
  | ringBuffer | edmParser | link | nothing =>
    exact .of_uart_eq (exec_uart_of_owner (by simp [howner]) (by simp [howner]) h)

/-- An illegal command and one that is not all there yet move nothing (30_encoding.md R99). -/
theorem State.hostStep_hostMovesBytes {s t : State} (h : s.hostStep = .next t) : s.HostMovesBytes t := by
  unfold State.hostStep at h
  split at h
  · rename_i i words input _
    exact exec_hostMovesBytes (s := s.consume words input) h
  · cases h; exact .of_uart_eq rfl
  · cases h; exact .of_uart_eq rfl

/-! ### The agents -/

/-- A PUMP step takes the first received byte if it is enabled, and none if it is not (R317). -/
theorem State.pumpStep_uart_cases (s : State) :
    s.pumpStep.uart = s.uart ∨ ∃ b rest, s.uart.rx = b :: rest ∧ s.pumpStep.uart = { s.uart with rx := rest } := by
  by_cases henabled : s.pumpEnabled = true
  · obtain ⟨-, -, hne⟩ := s.pumpEnabled_iff.1 henabled
    obtain ⟨b, rest, hrx⟩ := List.exists_cons_of_ne_nil hne
    exact .inr ⟨b, rest, hrx, by rw [State.pumpStep_of_enabled henabled hrx]⟩
  · exact .inl (by rw [State.pumpStep_of_not_enabled henabled, State.silent_uart])

/-- What the DRAIN reads comes from the ring buffer, not from the line (R319). -/
@[simp] theorem State.drainStep_uart (s : State) : s.drainStep.uart = s.uart := by
  by_cases henabled : s.drainEnabled = true
  · obtain ⟨-, -, -, hr, hu⟩ := s.drainEnabled_iff.1 henabled
    obtain ⟨b, hb⟩ := RB.read_one hr hu
    rw [State.drainStep_of_enabled henabled hb]
  · rw [State.drainStep_of_not_enabled henabled, State.silent_uart]

theorem State.engineStep_of_idle {s : State} (h : s.ubx.phase = .idle) : s.engineStep = s.silent := if_pos h

/-- An ENGINE step drops what it reads from the front of the line, and sends nothing (45_ubx_engine.md R293). -/
theorem State.engineStep_uart (s : State) : ∃ k, s.engineStep.uart = { s.uart with rx := s.uart.rx.drop k } := by
  cases hp : s.ubx.phase with
  | idle => exact ⟨0, by rw [State.engineStep_of_idle hp]; rfl⟩
  | poll =>
    by_cases hlate : s.ubx.expired s.env.now = true
    · exact ⟨0, by rw [State.engineStep_of_expired hp hlate]; rfl⟩
    by_cases hrx : s.uart.rx = []
    · exact ⟨0, by rw [State.engineStep_of_empty hp hlate hrx]; rfl⟩
    have hearly := Nat.not_le.1 (mt (s.ubx.expired_iff _).2 hlate)
    refine ⟨s.ubx.room s.uart.rx, ?_⟩
    rw [State.engineStep_of_bytes hp hearly hrx]
    split
    · rw [State.complete_eq, State.readUart_eq]
    · rfl

/-- Settles O60, one case for each agent. -/
theorem receivedBytesLeaveInOrder : Obligations.ReceivedBytesLeaveInOrder := by
  intro s t u turn htakes h
  rw [step_of_takes htakes] at h
  obtain ⟨-, -, -, -, -, huart, -⟩ := htakes.same
  rw [← huart]
  cases hagent : turn.agent with
  | host words input => rw [hagent] at h; exact State.hostStep_hostMovesBytes (s := u.present words input) h
  | line received sent => rw [hagent] at h; cases h; exact ⟨rfl, rfl⟩
  | pump =>
    rw [hagent] at h
    cases h
    rcases u.pumpStep_uart_cases with hsame | ⟨b, rest, hrx, htook⟩
    · exact ⟨.inl (by rw [hsame]), by rw [hsame]⟩
    · exact ⟨.inr ⟨b, by rw [htook, hrx]⟩, by rw [htook]⟩
  | drain => rw [hagent] at h; cases h; exact u.drainStep_uart
  | engine =>
    rw [hagent] at h
    cases h
    obtain ⟨k, hread⟩ := u.engineStep_uart
    exact ⟨⟨u.uart.rx.take k, by rw [hread, List.take_append_drop]⟩, by rw [hread]⟩

end Sys2Proof.Machine
end

section
/-!
The turns of the agents (60_exceptions.md R340, R352): every step has a next state, a turn is its agent's step, and the
whole of what an agent's step can write.
-/

namespace Sys2Proof.Machine

open Host

/-! ### What each agent can write -/

/-- A PUMP step writes the ring buffer, its mutex and `uart.rx`, and clears the port (46_uart_link.md R317). -/
theorem State.pumpStep_writes (s : State) : ∃ rb mutex rx, s.pumpStep =
    { s with rb := rb, mutex := mutex, uart := { s.uart with rx := rx }, port := ⟨none, []⟩ } := by
  by_cases henabled : s.pumpEnabled = true
  · obtain ⟨-, -, hne⟩ := s.pumpEnabled_iff.1 henabled
    obtain ⟨b, rest, hrx⟩ := List.exists_cons_of_ne_nil hne
    exact ⟨_, _, _, State.pumpStep_of_enabled henabled hrx⟩
  · exact ⟨s.rb, s.mutex, s.uart.rx, State.pumpStep_of_not_enabled henabled⟩

/-- A DRAIN step writes the ring buffer, its mutex and the EDM parser, and clears the port (46_uart_link.md R319);
what it writes of the ring buffer is in `State.drainStep_rb_cases`. -/
theorem State.drainStep_writes (s : State) : ∃ rb mutex edm, s.drainStep =
    { s with rb := rb, mutex := mutex, edm := edm, port := ⟨none, []⟩ } := by
  by_cases henabled : s.drainEnabled = true
  · obtain ⟨-, -, -, hreadable, hunread⟩ := s.drainEnabled_iff.1 henabled
    obtain ⟨b, hread⟩ := RB.read_one hreadable hunread
    exact ⟨_, _, _, State.drainStep_of_enabled henabled hread⟩
  · exact ⟨s.rb, s.mutex, s.edm, State.drainStep_of_not_enabled henabled⟩

/-- An ENGINE step writes the ubx unit, `uart.rx` and the port (45_ubx_engine.md R290). -/
theorem State.engineStep_writes (s : State) : ∃ ubx rx port, s.engineStep =
    { s with ubx := ubx, uart := { s.uart with rx := rx }, port := port } := by
  cases hphase : s.ubx.phase with
  | idle => exact ⟨s.ubx, s.uart.rx, ⟨none, []⟩, State.engineStep_of_idle hphase⟩
  | poll =>
    by_cases hlate : s.ubx.expired s.env.now = true
    · exact ⟨_, s.uart.rx, _, State.engineStep_of_expired hphase hlate⟩
    by_cases hrx : s.uart.rx = []
    · exact ⟨s.ubx, s.uart.rx, ⟨none, []⟩, State.engineStep_of_empty hphase hlate hrx⟩
    have hearly := Nat.not_le.1 (mt (s.ubx.expired_iff _).2 hlate)
    rw [State.engineStep_of_bytes hphase hearly hrx]
    split
    · rw [State.complete_eq, State.readUart_eq]; exact ⟨_, _, _, rfl⟩
    · exact ⟨_, _, _, rfl⟩

/-- A DRAIN step writes the read cursors of the ring buffer alone (10_state.md R22). -/
theorem State.drainStep_sameButCursors (s : State) : s.rb.SameButCursors s.drainStep.rb := by
  rcases s.drainStep_rb_cases with he | he <;> rw [he]
  · exact ⟨⟨rfl, rfl, rfl, rfl, rfl, rfl⟩, rfl, rfl, rfl, rfl⟩
  · exact s.rb.read_sameButCursors _ _

/-- Settles O58: the agents' `_writes` lemmas, and for the DRAIN that it moves its own cursor alone. -/
theorem agentsWriteOnlyTheirState : Obligations.AgentsWriteOnlyTheirState := by
  refine fun s => ⟨?pump, ⟨s.drainStep_sameButCursors, fun k hk => (State.drainStep_undisturbed hk).cursor, ?drain⟩,
    ?engine⟩
  case pump =>
    obtain ⟨rb, mutex, rx, hwrites⟩ := s.pumpStep_writes
    rw [hwrites]
    exact ⟨rfl, rfl, rfl, rfl, rfl, rfl⟩
  case drain =>
    obtain ⟨rb, mutex, edm, hwrites⟩ := s.drainStep_writes
    rw [hwrites]
    exact ⟨rfl, rfl, rfl, rfl, rfl⟩
  case engine =>
    obtain ⟨ubx, rx, port, hwrites⟩ := s.engineStep_writes
    rw [hwrites]
    exact ⟨rfl, rfl, rfl, rfl, rfl, rfl, rfl⟩

/-! ### The turn of an agent -/

/-- A LINE step writes the two queues and clears the port (46_uart_link.md R314). -/
theorem State.lineStep_eq (s : State) (received : List Byte) (sent : Nat) : s.lineStep received sent = { s with
    uart := { rx := s.uart.rx ++ received, tx := s.uart.tx.drop sent }, port := ⟨none, []⟩ } := rfl

/-- Settles O8, one clause for each agent. -/
theorem stepGivesTheTurnToTheAgent : Obligations.StepGivesTheTurnToTheAgent := by
  intro s u t htakes
  obtain ⟨-, -, -, -, -, huart, -⟩ := htakes.same
  rw [step_of_takes htakes]
  refine ⟨fun received sent hagent => ?line, fun hagent => ?pump, fun hagent => ?drain, fun hagent => ?engine⟩
  case line => rw [hagent, ← huart]; exact congrArg Outcome.next (u.lineStep_eq received sent)
  case pump => rw [hagent]
  case drain => rw [hagent]
  case engine => rw [hagent]

/-! ### Nothing stops -/

/-- A HOST step completes: the command's meaning does, an illegal command is answered (60_exceptions.md R341), and
one that is not all there yet is waited for. -/
theorem State.hostStep_next (s : State) : ∃ t, s.hostStep = .next t := by
  unfold State.hostStep
  split
  · exact exec_next _ _
  · exact ⟨_, rfl⟩
  · exact ⟨_, rfl⟩

/-- Every step completes, whichever agent's turn it is (60_exceptions.md R340). -/
theorem step_next (s : State) : ∃ t, step s = .next t := by
  obtain ⟨turn, u, htakes⟩ := exists_takes s
  rw [step_of_takes htakes]
  cases turn.agent with
  | host words input => exact (u.present words input).hostStep_next
  | line | pump | drain | engine => exact ⟨_, rfl⟩

/-- Settles O9, from `exec_next` for the commands and `step_next` for the steps. -/
theorem nothingEverStops : Obligations.NothingEverStops := ⟨exec_next, step_next⟩

end Sys2Proof.Machine
end

section
/-!
The reset state (70_reset_and_hazards.md R370, 10_state.md R26, R48): each unit's invariant after power-on, on every build.
-/

namespace Sys2Proof.Machine

/-! ### The units after power-on -/

/-- The tables list a zero for every register of the build, and no buffer is created (log entries 2 and 3). -/
theorem RB.Inv.powerOn (par : Config.Params) : (State.powerOn par).rb.Inv par where
  mem_wf := Memory.wf_nil
  mem_below := nofun
  lossAdd_lt := Nat.two_pow_pos _
  loss_lt k := by
    have hzero : (State.powerOn par).rb.lossOf k = 0 := List.getElem?_getD_replicate_default_eq 0 (par.nmax + 1) k
    rw [hzero]
    exact Nat.two_pow_pos _
  sized := ⟨List.length_replicate, List.length_replicate, List.length_replicate, List.length_replicate⟩
  live := nofun

/-- The parser is idle, its frame buffer lists nothing. -/
theorem Edm.Inv.powerOn (par : Config.Params) : (State.powerOn par).edm.Inv par :=
  .of_idle Memory.wf_nil nofun (.inl rfl) rfl rfl

/-- No call is in progress and nothing is accumulated. -/
theorem Ubx.Inv.powerOn (par : Config.Params) : (State.powerOn par).ubx.Inv par := ⟨fun _ => rfl, nofun, nofun⟩

theorem State.Inv.powerOn {par : Config.Params} (hpar : par.Legal) : (State.powerOn par).Inv where
  par := hpar
  rb := .powerOn par
  mutex := rfl
  edm := .powerOn par
  ubx := .powerOn par
  drainCur := Nat.zero_le _

/-! ### The build of R6's defaults -/

/-- The default error codes are negative, fit 32 bits and tell the kinds apart (60_exceptions.md R341). -/
theorem errCodes_default_legal :
    (∀ k, -2 ^ 31 ≤ Config.ErrCodes.default.code k ∧ Config.ErrCodes.default.code k < 0) ∧
    ∀ j k, Config.ErrCodes.default.code j = Config.ErrCodes.default.code k → j = k := by
  refine ⟨fun k => ?_, fun j k => ?_⟩
  · cases k <;> decide
  · cases j <;> cases k <;> decide

/-- The laws do not lean on the model's tests, so the reset state of the default build is shown legal here. -/
theorem params_default_legal : Config.Params.default.Legal := by
  obtain ⟨herr_neg, herr_inj⟩ := errCodes_default_legal
  refine ⟨?_, ?_, ?_, ?_, ?_, ?_, ?_, ?_, ?_, ?_, ?_, ?_, ?_, herr_neg, herr_inj⟩ <;> decide

/-- Settles O12: every legal build starts in the invariant, and R6's defaults are a legal build. -/
theorem resetHasInv : Obligations.ResetHasInv :=
  ⟨.powerOn params_default_legal, fun _ hpar => .powerOn hpar⟩

end Sys2Proof.Machine
end

section
/-!
Which unit a command writes (70_reset_and_hazards.md R371): for the commands of each unit, all that their meaning can
change of the state.
-/

namespace Sys2Proof.Machine

/-! ### The frame of a unit's commands -/

/-- `t` is `s` but for what the commands of unit `o` may write, and the output port, which every command may set: a
ring-buffer command leaves the mutex free (10_state.md R27), and a ubx call sends besides arming its unit. -/
def State.WritesOnly (o : Owner) (s t : State) : Prop :=
  match o with
  | .ringBuffer => ∃ rb port, t = { s with rb := rb, mutex := .free, port := port }
  | .edmParser => ∃ edm port, t = { s with edm := edm, port := port }
  | .ubxEngine => ∃ ubx sent port,
      t = { s with ubx := ubx, uart := { s.uart with tx := s.uart.tx ++ sent }, port := port }
  | .uart => ∃ uart port, t = { s with uart := uart, port := port }
  | .link => ∃ link port, t = { s with link := link, port := port }
  | .nothing => ∃ port, t = { s with port := port }

/-! ### The commands with several outcomes -/

/-- Each of the three outcomes of R121 writes the buffer, if anything. -/
theorem exec_rbCreateh_writesOnly {s t : State} {m : Byte} {size : Half} (h : exec (.rbCreateh m size) s = .next t) :
    s.WritesOnly .ringBuffer t := by
  cases hsize : sizeRefused s.par size with
  | true => rw [exec_rbCreateh_of_sizeRefused m hsize] at h; cases h; exact ⟨s.rb, _, rfl⟩
  | false =>
    rcases Nat.lt_or_ge s.par.nmax m.toNat with hmany | hfits
    · rw [exec_rbCreateh_of_too_many hsize hmany] at h; cases h; exact ⟨s.rb, _, rfl⟩
    · rw [exec_rbCreateh_of_fits hsize hfits] at h; cases h; exact ⟨_, _, rfl⟩

theorem exec_rbSetrhr_writesOnly {s t : State} {on : Bool} (h : exec (.rbSetrhr on) s = .next t) :
    s.WritesOnly .ringBuffer t := by
  cases hc : s.rb.created with
  | true => rw [exec_rbSetrhr_of_created hc] at h; cases h; exact ⟨_, _, rfl⟩
  | false => rw [exec_rbSetrhr_of_not_created hc] at h; cases h; exact ⟨s.rb, _, rfl⟩

/-- Each of the three outcomes of R124 writes the buffer, if anything. -/
theorem exec_rbTake_writesOnly {s t : State} (h : exec .rbTake s = .next t) : s.WritesOnly .ringBuffer t := by
  cases hc : s.rb.created with
  | false => rw [exec_rbTake_of_not_created hc] at h; cases h; exact ⟨s.rb, _, rfl⟩
  | true =>
    cases hslot : s.rb.freeSlot with
    | none => rw [exec_rbTake_of_no_slot hc hslot] at h; cases h; exact ⟨s.rb, _, rfl⟩
    | some k => rw [exec_rbTake_of_slot hc hslot] at h; cases h; exact ⟨_, _, rfl⟩

/-- A call that is refused or fails sends nothing and leaves the unit (45_ubx_engine.md R280, R281). -/
theorem State.startCall_writesOnly (s : State) (frame : List Byte) (ubx : Ubx) :
    s.WritesOnly .ubxEngine (s.startCall frame ubx) := by
  have hsendsNothing : ∀ port, s.WritesOnly .ubxEngine { s with port := port } := fun port =>
    ⟨s.ubx, [], port, by rw [List.append_nil]⟩
  rw [State.startCall_eq]
  split
  · exact hsendsNothing _
  · split
    · exact hsendsNothing _
    · exact ⟨ubx, frame, _, rfl⟩

/-! ### Every command -/

/-- A command writes what its unit's commands may, and nothing else (R371). -/
theorem exec_writesOnly {i : Instr} {s t : State} (h : exec i s = .next t) : s.WritesOnly (ownerOf i) t := by
  cases i with
  | rbCreate size => rw [← exec_rbCreateh_zero] at h; exact exec_rbCreateh_writesOnly h
  | rbCreateh => exact exec_rbCreateh_writesOnly h
  | rbSetrhr => exact exec_rbSetrhr_writesOnly h
  | rbTake => exact exec_rbTake_writesOnly h
  | rbGive => rw [exec_rbGive] at h; cases h; exact ⟨_, _, rfl⟩
  | rbLock => rw [exec_rbLock] at h; cases h; exact ⟨_, _, rfl⟩
  | rbUnlock => rw [exec_rbUnlock] at h; cases h; exact ⟨_, _, rfl⟩
  | rbDestroy | rbAdd | rbFadd | rbRead | rbReadh => cases h; exact ⟨_, _, rfl⟩
  | rbPeek | rbPeekh | rbAvail | rbAvailmax | rbStatadd | rbStatread => cases h; exact ⟨s.rb, _, rfl⟩
  | edmParse | edmReset => cases h; exact ⟨_, _, rfl⟩
  | ubxSendrecv | ubxSendonly => cases h; exact s.startCall_writesOnly _ _
  | uartWrite =>
    rw [exec_uartWrite] at h
    cases h
    split
    · exact ⟨_, _, rfl⟩
    · exact ⟨s.uart, _, rfl⟩
  | uartRead => cases h; exact ⟨_, _, rfl⟩
  | linkPump => cases h; exact ⟨_, _, rfl⟩
  | linkDrain =>
    rw [exec_linkDrain] at h
    cases h
    split
    · exact ⟨s.link, _, rfl⟩
    · exact ⟨_, _, rfl⟩
  | edmEncdata | edmEnchead | edmEncatreq | edmEncatrsp => cases h; exact ⟨_, s.postFrame_eq _ _⟩
  | ubxDecode => cases h; exact ⟨_, s.postDecoded_eq _⟩
  | edmReady | edmEvdata | edmEvent | edmEnctail | ubxEncode | uartAvail => cases h; exact ⟨_, rfl⟩

/-- Settles O59: for each owner, `exec_writesOnly` gives the next state field by field. -/
theorem commandsWriteOnlyTheirUnit : Obligations.CommandsWriteOnlyTheirUnit := by
  intro i s t h
  have hwrites := exec_writesOnly h
  cases howner : ownerOf i <;> rw [howner] at hwrites
  case ringBuffer => obtain ⟨rb, port, rfl⟩ := hwrites; simp
  case edmParser => obtain ⟨edm, port, rfl⟩ := hwrites; simp
  case ubxEngine => obtain ⟨ubx, sent, port, rfl⟩ := hwrites; simp
  case uart => obtain ⟨uart, port, rfl⟩ := hwrites; simp
  case link => obtain ⟨link, port, rfl⟩ := hwrites; simp
  case nothing => obtain ⟨port, rfl⟩ := hwrites; simp

end Sys2Proof.Machine
end
